-- ==== Sys2Proof/Word.lean ====
section
/-! DEFINITION. The word types of the block: the byte of a register (00_scope.md R10), the 16-bit event word
(30_encoding.md R81) and the 64-bit millisecond time (00_scope.md R7 `TIME_WIDTH`, R13). -/

namespace Sys2Proof

/-- A register's value, an unsigned byte (R10). -/
abbrev Byte := BitVec 8

/-- One event word of the serialized stream (R81). -/
abbrev EventWord := BitVec 16

/-- A value of the millisecond counter, or a stamp of it (R40). Differences are taken modulo 2^64 (R13). -/
abbrev Time := BitVec 64

/-- A register address, 0..11 (R11, R51, R64). -/
abbrev Reg := Fin 12

namespace Reg

@[simp] abbrev whoAmI : Reg := 0
@[simp] abbrev ctrl1 : Reg := 1
@[simp] abbrev status : Reg := 2
@[simp] abbrev tempL : Reg := 3
@[simp] abbrev tempH : Reg := 4
@[simp] abbrev humidH : Reg := 5
@[simp] abbrev humidL : Reg := 6
@[simp] abbrev config : Reg := 7
@[simp] abbrev padding : Reg := 8
@[simp] abbrev sessionCode : Reg := 9
@[simp] abbrev unlock : Reg := 10
@[simp] abbrev lockStatus : Reg := 11

end Reg

end Sys2Proof
end

