-- ==== Sys2Proof/Syntax.lean ====
section
/-! DEFINITION. The events of the block (30_encoding.md R82), one constructor for each mnemonic of
spec/opcode_table.json. -/

namespace Sys2Proof

/-- One event. Only WBYTE carries an operand (R83). The table's seven RESERVED rows overlap one another (R89), so they
are one constructor, which keeps the word (log entry 11). -/
inductive Instr where
  | nop
  | wstart
  | wbyte (d : Byte)
  | rreq
  | rcont
  | stop
  | tick
  | chkto
  | chkmc
  | reserved (w : EventWord)
  deriving DecidableEq, Repr

/-- The mnemonics of spec/opcode_table.json. -/
inductive Mnemonic where
  | NOP
  | WSTART
  | WBYTE
  | RREQ
  | RCONT
  | STOP
  | TICK
  | CHKTO
  | CHKMC
  | RESERVED
  deriving DecidableEq, Repr

/-- The mnemonic an event goes by (R82). -/
def Instr.mnemonic : Instr → Mnemonic
  | .nop => .NOP
  | .wstart => .WSTART
  | .wbyte _ => .WBYTE
  | .rreq => .RREQ
  | .rcont => .RCONT
  | .stop => .STOP
  | .tick => .TICK
  | .chkto => .CHKTO
  | .chkmc => .CHKMC
  | .reserved _ => .RESERVED

end Sys2Proof
end

