-- ==== Sys2Proof/WellFormed.lean ====
section
/-! DEFINITION. Which terms of `Instr` stand for an event: every one but a RESERVED term that holds a word which is not
reserved (30_encoding.md R86). -/

namespace Sys2Proof

/-- A reserved word: a bit of RSVD is set, or KIND is 0x9..0xF (R86). -/
def isReservedWord (w : EventWord) : Bool :=
  w.getLsbD 8 || w.getLsbD 9 || w.getLsbD 10 || w.getLsbD 11 || decide (0x9000 ≤ w.toNat)

/-- The well-formedness check of an event. -/
def Instr.wf : Instr → Bool
  | .nop => true
  | .wstart => true
  | .wbyte _ => true
  | .rreq => true
  | .rcont => true
  | .stop => true
  | .tick => true
  | .chkto => true
  | .chkmc => true
  | .reserved w => isReservedWord w

end Sys2Proof
end

