-- ==== Sys2Proof/Decode.lean ====
section
/-! DEFINITION. The decoder, total on all 65536 words (30_encoding.md R85), the encoder that writes 0 in every ignored
bit (R89), and the opcode map as match/mask rows (R89, spec/opcode_table.json). -/

namespace Sys2Proof

/-- `KIND = w[15:12]` (R81). -/
def kindField (w : EventWord) : BitVec 4 := w.extractLsb' 12 4

/-- `RSVD = w[11:8]` (R81). -/
def rsvdField (w : EventWord) : BitVec 4 := w.extractLsb' 8 4

/-- `DATA = w[7:0]` (R81, R83). -/
def dataField (w : EventWord) : Byte := w.extractLsb' 0 8

/-- The decode function of R85: RSVD is tested before KIND. -/
def decode (w : EventWord) : Instr :=
  if rsvdField w ≠ 0#4 then .reserved w
  else
    match (kindField w).toNat with
    | 0x0 => .nop
    | 0x1 => .wstart
    | 0x2 => .wbyte (dataField w)
    | 0x3 => .rreq
    | 0x4 => .rcont
    | 0x5 => .stop
    | 0x6 => .tick
    | 0x7 => .chkto
    | 0x8 => .chkmc
    | _ => .reserved w

/-- The canonical word of an event (R89). -/
def encode : Instr → EventWord
  | .nop => 0x0000#16
  | .wstart => 0x1000#16
  | .wbyte d => 0x20#8 ++ d
  | .rreq => 0x3000#16
  | .rcont => 0x4000#16
  | .stop => 0x5000#16
  | .tick => 0x6000#16
  | .chkto => 0x7000#16
  | .chkmc => 0x8000#16
  | .reserved w => w

/-- A row of the opcode map: a word matches where `w AND mask = match` (R89). -/
structure OpcodeRow where
  mnemonic : Mnemonic
  bits : EventWord
  mask : EventWord
  deriving DecidableEq, Repr

/-- Does a word match a row? -/
def rowMatches (r : OpcodeRow) (w : EventWord) : Bool := w &&& r.mask == r.bits

/-- The opcode map of R89, RESERVED split into its seven rows. -/
def opcodeRows : List OpcodeRow :=
  [ ⟨.NOP, 0x0000#16, 0xFF00#16⟩, ⟨.WSTART, 0x1000#16, 0xFF00#16⟩, ⟨.WBYTE, 0x2000#16, 0xFF00#16⟩,
    ⟨.RREQ, 0x3000#16, 0xFF00#16⟩, ⟨.RCONT, 0x4000#16, 0xFF00#16⟩, ⟨.STOP, 0x5000#16, 0xFF00#16⟩,
    ⟨.TICK, 0x6000#16, 0xFF00#16⟩, ⟨.CHKTO, 0x7000#16, 0xFF00#16⟩, ⟨.CHKMC, 0x8000#16, 0xFF00#16⟩,
    ⟨.RESERVED, 0x9000#16, 0xF000#16⟩, ⟨.RESERVED, 0xA000#16, 0xE000#16⟩, ⟨.RESERVED, 0xC000#16, 0xC000#16⟩,
    ⟨.RESERVED, 0x0100#16, 0x0100#16⟩, ⟨.RESERVED, 0x0200#16, 0x0200#16⟩, ⟨.RESERVED, 0x0400#16, 0x0400#16⟩,
    ⟨.RESERVED, 0x0800#16, 0x0800#16⟩ ]

/-- The event the decoder reads from the word with the bits of `w`, numbered as the opcode table numbers them. Every event
is one 16-bit word (R88), so no more than 16 bits can be asked for. -/
def decodeTableWord (nbits w : Nat) : Option Instr :=
  if nbits ≤ 16 then some (decode (BitVec.ofNat 16 w)) else none

end Sys2Proof
end

