-- ==== Sys2Proof/Config.lean ====
section
/-! DEFINITION. What is fixed for the block, and what the spec leaves open: the parameters of 00_scope.md R7, the
read-only mask and constant reset values of 10_state.md R20 to R22, the three mode switches the spec defines
alternatives for, and the free values (opaque, no body: no proof can see what they are). -/

namespace Sys2Proof

/-- How the timer events are scheduled (44_ticker.md R191, R195). -/
inductive TickerMode where
  | periodic
  | free
  deriving DecidableEq, Repr

/-- The three switches of 00_scope.md R7 under which a rule of the spec reads differently. Log entry 2: they are
configuration; `State` carries them and no step changes them. -/
structure Config where
  /-- `TICKER_MODE`. -/
  tickerMode : TickerMode
  /-- `BG_ATOMIC`: true is atomic mode (20_memory.md R66), false torn mode (R67). -/
  bgAtomic : Bool
  /-- `BUS_DROP` (R75). -/
  busDrop : Bool
  deriving DecidableEq, Repr

namespace Config

/-- The setting of this hardware: periodic, atomic, nothing dropped (00_scope.md R7). -/
def hardware : Config := { tickerMode := .periodic, bgAtomic := true, busDrop := false }

/-- `T_RELOCK`, ms; compared with a strict `>`. -/
abbrev tRelock : Nat := 5000
/-- `T_MEAS`, ms; compared with `>=`. -/
abbrev tMeas : Nat := 500
/-- `P_TIMEOUT`, ms. -/
abbrev pTimeout : Nat := 1000
/-- `P_COMPLETE`, ms. -/
abbrev pComplete : Nat := 50
abbrev tempMin : Nat := 2000
abbrev tempMax : Nat := 2999
abbrev humidMin : Nat := 5000
abbrev humidMax : Nat := 6999

/-- `RO_MASK`, bit i for address i (10_state.md R22). -/
abbrev roMask : BitVec 12 := 0xA7D#12

/-- The register values at reset, SESSION_CODE being the drawn byte (10_state.md R20, R54). -/
def resetRegs (code : Byte) : Vector Byte 12 :=
  #v[0x42#8, 0x00#8, 0x02#8, 0xFF#8, 0xFF#8, 0xFF#8, 0xFF#8, 0x00#8, 0x00#8, code, 0x00#8, 0x01#8]

/-- FREE VALUE (log entry 3): the n-th drawn session code, `draw_byte()`; any of the 256 values (10_state.md R29, D22). -/
opaque sessionDraw : Nat → Byte

/-- FREE VALUE (log entry 3): the n-th temperature draw, as its distance from `TEMP_MIN`; every value of
`TEMP_MIN`..`TEMP_MAX` and no other can be drawn (43_measurement.md R172, D21). -/
opaque tempDraw : Nat → Fin (tempMax - tempMin + 1)

/-- FREE VALUE (log entry 3): the n-th humidity draw, as its distance from `HUMID_MIN` (R172, D21). -/
opaque humidDraw : Nat → Fin (humidMax - humidMin + 1)

/-- FREE VALUE (log entry 3): `rsp_data` on an event that is not a read (30_encoding.md R84). -/
opaque undefinedRspData : Nat → Byte

/-- FREE VALUE (log entry 3): whether a bus event that finds the mutex held drops its call, true, or is held, false;
read only with `BUS_DROP = true` (20_memory.md R75, "The choice between the two is a free draw"); drawn at each attempt (log entry 14). -/
opaque dropDraw : Nat → Bool

/-- FREE VALUE (log entry 6): torn mode, whose move comes next where `ports.env` names no boundary (20_memory.md R67 item 4). -/
opaque turnDraw : Nat → Bool

/-- FREE VALUE (log entry 6): torn mode, which sub-step comes next where `ports.env` names no boundary (R67 item 3). -/
opaque pickDraw : Nat → Nat

/-- The OPEN parameter `INIT_ERROR_CODE`, less one (70_reset_and_hazards.md R243, D24; log entry 10). -/
opaque initErrorCodePred : Nat

/-- `INIT_ERROR_CODE`: "an opaque nonzero code" (D24). -/
def initErrorCode : Nat := initErrorCodePred + 1

end Config

end Sys2Proof
end

