-- ==== Sys2Proof/Machine/State.lean ====
section
/-! DEFINITION. Every piece of state the spec gives the block (10_state.md R20 to R42, R54, R55), the outputs of the last
event (30_encoding.md R80), and what the agents around the block present (R80, 20_memory.md R77). -/

namespace Sys2Proof.Machine

/-- `PHASE`, the bus transaction state machine (R34). -/
inductive Phase where
  | idle
  | awaitingAddress
  | addressed
  deriving DecidableEq, Repr

/-- `LOCKST` (R35). -/
inductive LockState where
  | locked
  | unlocked
  deriving DecidableEq, Repr

/-- `MEASST` (R37). -/
inductive MeasState where
  | idle
  | inProgress
  deriving DecidableEq, Repr

/-- `MUTEX`; read in torn mode only (R39, 20_memory.md R67 item 1). -/
inductive Mutex where
  | free
  | heldByTicker
  deriving DecidableEq, Repr

/-- The diagnostic codes of 60_exceptions.md R212. Code 7 is never emitted and has no name. -/
inductive Diag where
  | noDiag
  | roWrite
  | codeMismatch
  | startLocked
  | startBusy
  | sideEffectDropped
  | reservedEvent
  deriving DecidableEq, Repr

/-- The 3-bit `diag_code` of a diagnostic (R212). -/
def Diag.code : Diag → BitVec 3
  | .noDiag => 0
  | .roWrite => 1
  | .codeMismatch => 2
  | .startLocked => 3
  | .startBusy => 4
  | .sideEffectDropped => 5
  | .reservedEvent => 6

/-- One write of a background operation: in torn mode a step of its own (20_memory.md R67 item 3), in atomic mode one
line of the operation's pseudocode. -/
inductive SubStep where
  | setLockState (l : LockState)
  | setStatusBit (i : Fin 2)
  | clrStatusBit (i : Fin 2)
  | intWrite (a : Reg) (v : Byte)
  | setMeasState (m : MeasState)
  deriving DecidableEq, Repr

/-- The background operation in progress; always empty in atomic mode (R39, 20_memory.md R67). -/
structure Background where
  mutex : Mutex
  /-- The sub-steps still to perform. -/
  work : List SubStep
  /-- A completion check is owed once the operation has released the mutex (44_ticker.md R191). -/
  mcDue : Bool
  deriving DecidableEq, Repr

/-- The outputs of the last event (30_encoding.md R80, R84). Nothing in the block reads them back (R42; log entry 9). -/
structure Outputs where
  rspValid : Bool
  rspData : Byte
  diag : Diag
  deriving DecidableEq, Repr

/-- What the agents present at one event boundary (R80; log entry 6). -/
structure Boundary where
  /-- ENV asserts `rst`. -/
  rst : Bool
  /-- On a reset: does the registration with the transport succeed (70_reset_and_hazards.md R243)? -/
  regOk : Bool
  /-- The words on offer on the bus channel now, in wire order; BUS sends those its duties allow (R245). -/
  bus : List EventWord
  /-- The words on offer on the timer channel now, in order; TICKER sends those its duties allow (R245). -/
  tmr : List EventWord
  /-- Torn mode, a background operation in progress: does BUS move next, if it has an event to deliver? -/
  busMoves : Bool
  /-- Torn mode: which of the remaining sub-steps the Ticker performs (modulo their number). -/
  pick : Nat
  deriving DecidableEq, Repr

/-- The channels into the block: the words waiting on each, and the boundaries to come (log entry 6). -/
structure Ports where
  busQ : List EventWord
  tmrQ : List EventWord
  env : List Boundary
  deriving DecidableEq, Repr

/-- The state of the block. Fields `regs` to `now` are the state record of R55. -/
structure State where
  /-- The register file `R` (R20). -/
  regs : Vector Byte 12
  /-- The address pointer `AP` (R32). -/
  ap : Reg
  phase : Phase
  lockst : LockState
  /-- `T_UNLOCK` (R36). -/
  tUnlock : Time
  measst : MeasState
  /-- `T_START` (R38). -/
  tStart : Time
  /-- The millisecond counter (R40). -/
  now : Time
  /-- `LAST_TO`, free ticker mode (R41). -/
  lastTo : Time
  /-- `LAST_MC`, free ticker mode (R41). -/
  lastMc : Time
  bg : Background
  out : Outputs
  /-- `none` is `init_err = 0`; `some c` is `init_err = 1` with `c` reported to the initialiser
  (70_reset_and_hazards.md R243). -/
  initError : Option Nat
  /-- The mode switches; no step changes them (log entry 2). -/
  cfg : Config
  ports : Ports
  /-- The model's own counter of free values taken (log entry 3). -/
  freeIx : Nat
  deriving DecidableEq, Repr

/-- Where the spec gives the block no step. Neither can be reached in this hardware's configuration (log entry 8). -/
inductive Fault where
  /-- Raised by TICK in free ticker mode outside the fairness bound: "A `TICK` is enabled only if ..." (44_ticker.md R196).
  Stuck; safe. -/
  | tickNotEnabled
  /-- Raised in torn mode by an event that must wait while the Ticker holds the mutex: it "has no enabled step"
  (20_memory.md R67 item 5). `step` lets the Ticker move instead and keeps the event waiting. Stuck; safe. -/
  | mutexHeld
  deriving DecidableEq, Repr

/-- Why the model gives an instruction no meaning. -/
inductive Refusal where
  /-- Raised by an arm of `exec` whose instruction has no meaning yet; safe. No arm raises it now. -/
  | notModelled (mnemonic : String)
  deriving DecidableEq, Repr

/-- The state after a reset that drew session code `code` (R54, 70_reset_and_hazards.md R240), in this hardware's
configuration, registered with the transport, and with nothing on its channels. -/
def State.resetWith (code : Byte) : State where
  regs := Config.resetRegs code
  ap := 0
  phase := .idle
  lockst := .locked
  tUnlock := 0
  measst := .idle
  tStart := 0
  now := 0
  lastTo := 0
  lastMc := 0
  bg := { mutex := .free, work := [], mcDue := false }
  out := { rspValid := false, rspData := Config.undefinedRspData 0, diag := .noDiag }
  initError := none
  cfg := Config.hardware
  ports := { busQ := [], tmrQ := [], env := [] }
  freeIx := 1

/-- The machine right after reset: the session code is the first free draw (R29, R240). -/
def State.reset : State := State.resetWith (Config.sessionDraw 0)

end Sys2Proof.Machine
end

