-- ==== Sys2Proof/Machine/Agents.lean ====
section
/-! DEFINITION. The liberties and duties of BUS and TICKER (70_reset_and_hazards.md R245, R246): which event each may send,
and the words it sends of those on offer. -/

namespace Sys2Proof.Machine

/-- The PHASE after an event, by the table of 41_protocol_engine.md R133. -/
def phaseAfter (i : Instr) (p : Phase) : Phase :=
  match i with
  | .wstart => .awaitingAddress
  | .wbyte _ => .addressed
  | .stop => .idle
  | .rreq => p
  | .rcont => p
  | .nop => p
  | .reserved _ => p
  | .tick => p
  | .chkto => p
  | .chkmc => p

/-- May BUS send this event where the block is in PHASE `p`? Never a timer kind, a reserved word, or a write-byte in Idle
(R245, R246). -/
def busMay (p : Phase) (i : Instr) : Bool :=
  match i with
  | .nop => true
  | .wstart => true
  | .wbyte _ => p != .idle
  | .rreq => true
  | .rcont => true
  | .stop => true
  | .tick => false
  | .chkto => false
  | .chkmc => false
  | .reserved _ => false

/-- May TICKER send this event in this ticker mode? Never a bus kind or a reserved word, and in periodic mode no separate
check (R245); NOP is the idle encoding of its channel (30_encoding.md R82). -/
def tickerMay (m : TickerMode) (i : Instr) : Bool :=
  match i with
  | .nop => true
  | .tick => true
  | .chkto => m == .free
  | .chkmc => m == .free
  | .wstart => false
  | .wbyte _ => false
  | .rreq => false
  | .rcont => false
  | .stop => false
  | .reserved _ => false

/-- The PHASE after these words, in order. -/
def phaseAfterWords (p : Phase) (ws : List EventWord) : Phase :=
  ws.foldl (fun q w => phaseAfter (decode w) q) p

/-- Of the words on offer, in order, those BUS sends to a block in PHASE `p`. -/
def busSends : Phase → List EventWord → List EventWord
  | _, [] => []
  | p, w :: ws => if busMay p (decode w) then w :: busSends (phaseAfter (decode w) p) ws else busSends p ws

/-- Of the words on offer, in order, those TICKER sends. -/
def tickerSends (m : TickerMode) (ws : List EventWord) : List EventWord :=
  ws.filter (fun w => tickerMay m (decode w))

end Sys2Proof.Machine
end

