-- ==== Sys2Proof/Machine/Operands.lean ====
section
/-! DEFINITION. The operand forms: the DATA byte of WBYTE as an address, as a start trigger, as data (30_encoding.md R83),
and the split of a 16-bit measurement over two registers (20_memory.md R60). -/

namespace Sys2Proof.Machine

/-- An address byte selects register `b mod 12` (20_memory.md R64). -/
def addressOf (b : Byte) : Reg := Fin.ofNat 12 b.toNat

/-- Bit 0 of a byte written to CTRL1 asks for a measurement (41_protocol_engine.md R126). -/
def startBit (d : Byte) : Bool := d[0]

/-- `lo8(v) = v[7:0]` (00_scope.md R10). -/
def lo8 (v : BitVec 16) : Byte := v.extractLsb' 0 8

/-- `hi8(v) = v[15:8]` (R10). -/
def hi8 (v : BitVec 16) : Byte := v.extractLsb' 8 8

/-- The n-th temperature draw, in `TEMP_MIN`..`TEMP_MAX` (43_measurement.md R172). -/
def drawTemp (n : Nat) : BitVec 16 := BitVec.ofNat 16 (Config.tempMin + (Config.tempDraw n).val)

/-- The n-th humidity draw, in `HUMID_MIN`..`HUMID_MAX` (R172). -/
def drawHumid (n : Nat) : BitVec 16 := BitVec.ofNat 16 (Config.humidMin + (Config.humidDraw n).val)

end Sys2Proof.Machine
end

