-- ==== Sys2Proof/Machine/Ops.lean ====
section
/-! DEFINITION. The named operations on the register file and its address pointer (40_register_file.md R100 to R105), on the
outputs (30_encoding.md R84, 60_exceptions.md R212), the mutex test of torn mode (20_memory.md R67), and reset
(70_reset_and_hazards.md R240). The block has no exception to take and none to return from (60_exceptions.md R210,
R215, R216), so no operation here enters a handler. -/

namespace Sys2Proof.Machine

/-- `read(a)` (R100). -/
def getReg (s : State) (a : Reg) : Byte := s.regs[a]

/-- `R[a] <- v`; as the internal write `IntWrite(a, v)` of R102 it ignores the read-only mask. -/
def setReg (a : Reg) (v : Byte) (s : State) : State := { s with regs := s.regs.set a v }

/-- The read-only mask (10_state.md R22). -/
def isReadOnly (a : Reg) : Bool := Config.roMask.getLsbD a

/-- `diag(code)` (60_exceptions.md R212). -/
def emitDiag (c : Diag) (s : State) : State := { s with out := { s.out with diag := c } }

/-- What `BusWrite` returns (R101). -/
inductive WriteResult where
  | stored
  | rejected
  deriving DecidableEq, Repr

/-- `BusWrite(a, v)` (R101): a write to a read-only register is rejected with diagnostic 1. -/
def busWrite (a : Reg) (v : Byte) (s : State) : WriteResult × State :=
  if isReadOnly a then (.rejected, emitDiag .roWrite s) else (.stored, setReg a v s)

/-- `advance()`: 11 wraps to 0 (R104). -/
def advance (s : State) : State := { s with ap := s.ap + 1 }

/-- `setAddress(b)` (R105). -/
def setAddress (b : Byte) (s : State) : State := { s with ap := addressOf b }

/-- `PHASE <- p` (10_state.md R34). -/
def setPhase (p : Phase) (s : State) : State := { s with phase := p }

/-- `respond(b)` (30_encoding.md R84). -/
def respond (b : Byte) (s : State) : State :=
  { s with out := { s.out with rspValid := true, rspData := b } }

/-- The outputs at the start of a step, before its rule drives any: no response, so `rsp_data` is a free value, and no
diagnostic (30_encoding.md R84, 60_exceptions.md R212; log entries 3, 9). -/
def beginEvent (s : State) : State :=
  { s with
    out := { rspValid := false, rspData := Config.undefinedRspData s.freeIx, diag := .noDiag }
    freeIx := s.freeIx + 1 }

/-- Torn mode: is a background operation holding the mutex (20_memory.md R67)? Never in atomic mode (10_state.md R39). -/
def held (s : State) : Bool := !s.cfg.bgAtomic && s.bg.mutex == .heldByTicker

/-- ENV asserts `rst` at an event boundary (70_reset_and_hazards.md R240, D35): every state element takes its reset value
with a fresh session code, and the registration of R243 succeeds or fails. The configuration, the agents' channels and
the count of free values are not the block's and stay (log entries 2, 3, 6). -/
def resetBlock (regOk : Bool) (s : State) : State :=
  { State.resetWith (Config.sessionDraw s.freeIx) with
    out := { rspValid := false, rspData := Config.undefinedRspData s.freeIx, diag := .noDiag }
    initError := if regOk then none else some Config.initErrorCode
    cfg := s.cfg
    ports := s.ports
    freeIx := s.freeIx + 1 }

end Sys2Proof.Machine
end

