-- ==== Sys2Proof/Machine/Flags.lean ====
section
/-! DEFINITION. The two status flags in STATUS (10_state.md R25, R52) and the one-bit read-modify-writes that change them
(40_register_file.md R103). -/

namespace Sys2Proof.Machine

/-- `R[STATUS][0]`, data-ready (10_state.md R25). -/
def dataReady (s : State) : Bool := (getReg s Reg.status)[0]

/-- `R[STATUS][1]`, locked (R25). -/
def lockedFlag (s : State) : Bool := (getReg s Reg.status)[1]

/-- `SetBit(STATUS, i)`: `R[STATUS] OR (1 << i)` (40_register_file.md R103). -/
def setStatusBit (i : Fin 2) (s : State) : State :=
  setReg Reg.status (getReg s Reg.status ||| (1#8 <<< i.val)) s

/-- `ClrBit(STATUS, i)`: `R[STATUS] AND NOT (1 << i)` (R103). -/
def clrStatusBit (i : Fin 2) (s : State) : State :=
  setReg Reg.status (getReg s Reg.status &&& ~~~(1#8 <<< i.val)) s

end Sys2Proof.Machine
end

