-- ==== Sys2Proof/Machine/Background.lean ====
section
/-! DEFINITION. The writes of a background operation, one sub-step each, and how an operation runs: all at once in atomic
mode (20_memory.md R66), or by taking the mutex and leaving its sub-steps to be performed one by one in torn mode
(R67). -/

namespace Sys2Proof.Machine

/-- One write of lock() or complete(). -/
def applySubStep (u : SubStep) (s : State) : State :=
  match u with
  | .setLockState l => { s with lockst := l }
  | .setStatusBit i => setStatusBit i s
  | .clrStatusBit i => clrStatusBit i s
  | .intWrite a v => setReg a v s
  | .setMeasState m => { s with measst := m }

/-- The writes of an operation in the order of its pseudocode. -/
def runSubSteps (ops : List SubStep) (s : State) : State :=
  ops.foldl (fun t u => applySubStep u t) s

/-- A background operation begins: in atomic mode it also ends (R66), in torn mode it takes the mutex (R67 items 2, 3). -/
def startBackground (ops : List SubStep) (s : State) : State :=
  if s.cfg.bgAtomic then runSubSteps ops s
  else { s with bg := { s.bg with mutex := .heldByTicker, work := ops } }

end Sys2Proof.Machine
end

