-- ==== Sys2Proof/Machine/Lock.lean ====
section
/-! DEFINITION. The LockController: lock, unlock, checkTimeout (42_lock_controller.md R150 to R152). -/

namespace Sys2Proof.Machine

/-- The nine writes of lock() (R150), in the order of its pseudocode. -/
def lockSubSteps : List SubStep :=
  [ .setLockState .locked,
    .setStatusBit 1,
    .clrStatusBit 0,
    .intWrite Reg.tempL 0xFF#8,
    .intWrite Reg.tempH 0xFF#8,
    .intWrite Reg.humidH 0xFF#8,
    .intWrite Reg.humidL 0xFF#8,
    .intWrite Reg.lockStatus 0x01#8,
    .setMeasState .idle ]

/-- `lock()`, all of it (R150). -/
def lock (s : State) : State := runSubSteps lockSubSteps s

/-- `unlock(now)` (R151): every call sets T_UNLOCK (conflict C5). -/
def unlock (s : State) : State :=
  let t := setReg Reg.lockStatus 0x00#8 (clrStatusBit 1 { s with lockst := .unlocked })
  { t with tUnlock := s.now }

/-- The guard of checkTimeout (R152): `>`, on the elapsed time modulo 2^64 (00_scope.md R13; log entry 4). -/
def timeoutFires (s : State) : Bool :=
  s.lockst == .unlocked && decide (Config.tRelock < (s.now - s.tUnlock).toNat)

/-- `checkTimeout(now)` (R152). -/
def checkTimeout (s : State) : State :=
  if timeoutFires s then startBackground lockSubSteps s else s

end Sys2Proof.Machine
end

