-- ==== Sys2Proof/Machine/Measure.lean ====
section
/-! DEFINITION. The MeasurementController: start, checkComplete, complete (43_measurement.md R170 to R172). -/

namespace Sys2Proof.Machine

/-- `start(now)` (R170): Locked is tested before InProgress (D30). -/
def startMeasurement (s : State) : State :=
  match s.lockst with
  | .locked => emitDiag .startLocked s
  | .unlocked =>
    match s.measst with
    | .inProgress => emitDiag .startBusy s
    | .idle => clrStatusBit 0 { s with measst := .inProgress, tStart := s.now }

/-- The six writes of complete() for the two drawn values (R172), in the order of its pseudocode. -/
def completeSubSteps (temp humid : BitVec 16) : List SubStep :=
  [ .intWrite Reg.tempL (lo8 temp),
    .intWrite Reg.tempH (hi8 temp),
    .intWrite Reg.humidL (lo8 humid),
    .intWrite Reg.humidH (hi8 humid),
    .setStatusBit 0,
    .setMeasState .idle ]

/-- `complete()` with the two values drawn, all of it (R172). -/
def completeWith (temp humid : BitVec 16) (s : State) : State :=
  runSubSteps (completeSubSteps temp humid) s

/-- The guard of checkComplete (R171): `>=`, on the elapsed time modulo 2^64 (log entry 4). -/
def completeFires (s : State) : Bool :=
  s.measst == .inProgress && decide (Config.tMeas ≤ (s.now - s.tStart).toNat)

/-- `checkComplete(now)` (R171); the two draws are taken when the completion begins. -/
def checkComplete (s : State) : State :=
  if completeFires s then
    startBackground (completeSubSteps (drawTemp s.freeIx) (drawHumid s.freeIx)) { s with freeIx := s.freeIx + 1 }
  else s

end Sys2Proof.Machine
end

