-- ==== Sys2Proof/Machine/Protocol.lean ====
section
/-! DEFINITION. The ProtocolEngine: the bus events (41_protocol_engine.md R120 to R132). -/

namespace Sys2Proof.Machine

/-- NOP (R130). -/
def execNop (s : State) : Host.Outcome State Fault Refusal := .next (beginEvent s)

/-- WSTART (R120). -/
def execWstart (s : State) : Host.Outcome State Fault Refusal :=
  .next (setPhase .awaitingAddress (beginEvent s))

/-- Does this byte invoke start() (R126) or unlock() (R127)? Such a call needs the mutex in torn mode (20_memory.md R67
item 5). -/
def wbyteCalls (d : Byte) (s : State) : Bool :=
  s.phase == .addressed &&
    ((s.ap == Reg.ctrl1 && startBit d) || (s.ap == Reg.unlock && d == getReg s Reg.sessionCode))

/-- WBYTE as an address byte (R122, R124): no register is written. -/
def wbyteAddress (d : Byte) (s : State) : State := setPhase .addressed (setAddress d s)

/-- The side effect of a stored data byte: start() through CTRL1 (R126), unlock() or a mismatch through UNLOCK (R127). With
`drop` the call is dropped with diagnostic 5 (20_memory.md R75). -/
def wbyteSideEffect (drop : Bool) (a : Reg) (d : Byte) (s : State) : State :=
  if a = Reg.ctrl1 then
    if startBit d then (if drop then emitDiag .sideEffectDropped s else startMeasurement s) else s
  else if a = Reg.unlock then
    if d = getReg s Reg.sessionCode then (if drop then emitDiag .sideEffectDropped s else unlock s)
    else emitDiag .codeMismatch s
  else s

/-- WBYTE as a data byte (R123): store, then side effect (D19), then advance, after a rejection too (R125, conflict C1). -/
def wbyteData (drop : Bool) (d : Byte) (s : State) : State :=
  match busWrite s.ap d s with
  | (.stored, t) => advance (wbyteSideEffect drop s.ap d t)
  | (.rejected, t) => advance t

/-- WBYTE by phase (R121). -/
def wbyte (drop : Bool) (d : Byte) (s : State) : State :=
  match s.phase with
  | .awaitingAddress => wbyteAddress d s
  | .idle => wbyteAddress d s
  | .addressed => wbyteData drop d s

/-- WBYTE (R121). In torn mode a byte that calls start() or unlock() while the mutex is held is held too (20_memory.md R67
item 5), or with `BUS_DROP` may drop the call instead, by a free choice (R75). DESIGN CHOICE: the choice is drawn anew at each
attempt, so a call once held may be dropped at a later attempt of the same wait (log entry 14). -/
def execWbyte (d : Byte) (s : State) : Host.Outcome State Fault Refusal :=
  if held s && wbyteCalls d s then
    if s.cfg.busDrop && Config.dropDraw s.freeIx then .next (wbyte true d (beginEvent s))
    else .fault .mutexHeld
  else .next (wbyte false d (beginEvent s))

/-- RREQ (R128). -/
def execRreq (s : State) : Host.Outcome State Fault Refusal :=
  let t := beginEvent s
  .next (respond (getReg t t.ap) t)

/-- RCONT (R129): advance, then respond. -/
def execRcont (s : State) : Host.Outcome State Fault Refusal :=
  let t := advance (beginEvent s)
  .next (respond (getReg t t.ap) t)

/-- STOP (R131): AP is kept (D33). -/
def execStop (s : State) : Host.Outcome State Fault Refusal :=
  .next (setPhase .idle (beginEvent s))

/-- RESERVED (R132): diagnostic 6 and nothing else, whatever the word. -/
def execReserved (_w : EventWord) (s : State) : Host.Outcome State Fault Refusal :=
  .next (emitDiag .reservedEvent (beginEvent s))

end Sys2Proof.Machine
end

