-- ==== Sys2Proof/Machine/Ticker.lean ====
section
/-! DEFINITION. The Ticker: TICK, CHKTO, CHKMC (44_ticker.md R190 to R196), and one sub-step of a background operation in
torn mode (20_memory.md R67). -/

namespace Sys2Proof.Machine

/-- Is the timeout check due at this instant (R191)? -/
def timeoutDue (t : Time) : Bool := t.toNat % Config.pTimeout == 0

/-- Is the completion check due at this instant (R191)? -/
def completeDue (t : Time) : Bool := t.toNat % Config.pComplete == 0

/-- `scheduled_checks(now)` (R191), the timeout check first (R194, D14). In torn mode, where the timeout check has just taken
the mutex, the completion check waits until the mutex is released (R199; log entry 7). -/
def scheduledChecks (s : State) : State :=
  let t := if timeoutDue s.now then checkTimeout s else s
  if completeDue t.now then
    if held t then { t with bg := { t.bg with mcDue := true } } else checkComplete t
  else t

/-- The fairness bound of free mode (R196): may time advance? (Log entry 4.) -/
def tickEnabled (s : State) : Bool :=
  decide ((s.now + 1 - s.lastTo).toNat ≤ Config.pTimeout) && decide ((s.now + 1 - s.lastMc).toNat ≤ Config.pComplete)

/-- `now <- now + 1`, modulo 2^64 (R190). -/
def advanceTime (s : State) : State := { s with now := s.now + 1 }

/-- In free mode, `LAST_TO <- now` (R192; when, in torn mode: log entry 7). -/
def stampTimeoutCheck (s : State) : State :=
  match s.cfg.tickerMode with
  | .free => { s with lastTo := s.now }
  | .periodic => s

/-- In free mode, `LAST_MC <- now` (R193; when, in torn mode: log entry 7). -/
def stampCompleteCheck (s : State) : State :=
  match s.cfg.tickerMode with
  | .free => { s with lastMc := s.now }
  | .periodic => s

/-- TICK (R190, R195, R196). While the mutex is held every timer event waits (R199; log entry 8). -/
def execTick (s : State) : Host.Outcome State Fault Refusal :=
  if held s then .fault .mutexHeld
  else
    match s.cfg.tickerMode with
    | .periodic => .next (scheduledChecks (advanceTime (beginEvent s)))
    | .free => if tickEnabled s then .next (advanceTime (beginEvent s)) else .fault .tickNotEnabled

/-- CHKTO (R192), in either ticker mode (D15). DEDUCED: in torn and free mode LAST_TO is stamped in the step that makes the
check and, where it fires, takes the mutex, not after the last sub-step of the lock() (log entry 7). -/
def execChkto (s : State) : Host.Outcome State Fault Refusal :=
  if held s then .fault .mutexHeld
  else .next (stampTimeoutCheck (checkTimeout (beginEvent s)))

/-- CHKMC (R193), in either ticker mode (D15). DEDUCED: in torn and free mode LAST_MC is stamped in the step that makes the
check and, where it fires, takes the mutex, not after the last sub-step of the complete() (log entry 7). -/
def execChkmc (s : State) : Host.Outcome State Fault Refusal :=
  if held s then .fault .mutexHeld
  else .next (stampCompleteCheck (checkComplete (beginEvent s)))

/-- The background operation is over: the mutex is released (20_memory.md R67 item 3), and a completion check still owed by
the same TICK is made (R191; log entry 7). -/
def releaseMutex (s : State) : State :=
  let t := { s with bg := { mutex := .free, work := [], mcDue := false } }
  if s.bg.mcDue then checkComplete t else t

/-- The Ticker performs one of the remaining sub-steps, whichever `pick` names (R67 item 3: "in any order"); the last one
ends the operation (log entry 7). -/
def tickerSubStep (pick : Nat) (s : State) : State :=
  let t := beginEvent s
  let k := pick % t.bg.work.length
  match t.bg.work[k]? with
  | none => releaseMutex t
  | some u =>
    let rest := t.bg.work.eraseIdx k
    let t' := applySubStep u { t with bg := { t.bg with work := rest } }
    if rest.isEmpty then releaseMutex t' else t'

end Sys2Proof.Machine
end

