-- ==== Sys2Proof/Machine/Dispatch.lean ====
section
/-! DEFINITION. One arm per event (30_encoding.md R82): each calls that event's meaning. -/

namespace Sys2Proof.Machine

def exec (i : Instr) (s : State) : Host.Outcome State Fault Refusal :=
  match i with
  | .nop => Sys2Proof.Machine.execNop s
  | .wstart => Sys2Proof.Machine.execWstart s
  | .wbyte d => Sys2Proof.Machine.execWbyte d s
  | .rreq => Sys2Proof.Machine.execRreq s
  | .rcont => Sys2Proof.Machine.execRcont s
  | .stop => Sys2Proof.Machine.execStop s
  | .tick => Sys2Proof.Machine.execTick s
  | .chkto => Sys2Proof.Machine.execChkto s
  | .chkmc => Sys2Proof.Machine.execChkmc s
  | .reserved w => Sys2Proof.Machine.execReserved w s

end Sys2Proof.Machine
end

