-- ==== Sys2Proof/Machine/Arbiter.lean ====
section
/-! DEFINITION. Between the agents and the block: what arrives at an event boundary, the arbiter that takes the next event
word (30_encoding.md R80, 20_memory.md R69, R77), and who moves while a background operation holds the mutex
(20_memory.md R67). -/

namespace Sys2Proof.Machine

/-- What the agents present at the coming boundary. Where none is named, nothing arrives and torn mode's choices are free
values (log entry 6). -/
def nextBoundary (s : State) : Boundary :=
  match s.ports.env with
  | b :: _ => b
  | [] =>
    { rst := false, regOk := true, bus := [], tmr := [],
      busMoves := Config.turnDraw s.freeIx, pick := Config.pickDraw s.freeIx }

/-- The words presented at a boundary join their channel behind those that wait (R69). No agent breaks a duty: of the words
on offer each sends what it may, BUS in view of the PHASE in which the block will take them (70_reset_and_hazards.md R245,
R246; log entry 6). -/
def arrive (b : Boundary) (s : State) : State :=
  { s with
    ports :=
      { busQ := s.ports.busQ ++ busSends (phaseAfterWords s.phase s.ports.busQ) b.bus
        tmrQ := s.ports.tmrQ ++ tickerSends s.cfg.tickerMode b.tmr
        env := s.ports.env.tail } }

/-- After a reset BUS withdraws the write-bytes of the transaction that the reset cut off: the block is in Idle now
(R245, R246; log entry 6). -/
def withdrawCutOff (s : State) : State :=
  { s with ports := { s.ports with busQ := busSends s.phase s.ports.busQ } }

/-- The first word waiting on the bus channel. A block whose registration failed receives no bus events
(70_reset_and_hazards.md R243). -/
def takeBus (s : State) : Option (EventWord × State) :=
  if s.initError.isSome then none
  else
    match s.ports.busQ with
    | w :: rest => some (w, { s with ports := { s.ports with busQ := rest } })
    | [] => none

/-- The first word waiting on the timer channel. -/
def takeTimer (s : State) : Option (EventWord × State) :=
  match s.ports.tmrQ with
  | w :: rest => some (w, { s with ports := { s.ports with tmrQ := rest } })
  | [] => none

/-- The arbiter: the bus event first on a tie (R77). -/
def fetchEvent (s : State) : Option (EventWord × State) :=
  match takeBus s with
  | some r => some r
  | none => takeTimer s

/-- One event of the serialized stream; with no word waiting the channels carry the idle encoding, NOP (30_encoding.md R82;
log entry 5). -/
def runEvent (s : State) : Host.Outcome State Fault Refusal :=
  match fetchEvent s with
  | some (w, t) => exec (decode w) t
  | none => exec .nop s

/-- One step while a background operation holds the mutex (20_memory.md R67 items 3 to 5): a bus event if it is BUS's turn and
the event has a step, else one sub-step of the Ticker. An event that must wait stays where it is. -/
def runTorn (b : Boundary) (s : State) : Host.Outcome State Fault Refusal :=
  if b.busMoves then
    match takeBus s with
    | some (w, t) =>
      match exec (decode w) t with
      | .fault .mutexHeld => .next (tickerSubStep b.pick s)
      | r => r
    | none => .next (tickerSubStep b.pick s)
  else .next (tickerSubStep b.pick s)

end Sys2Proof.Machine
end

