-- ==== Sys2Proof/Machine/Step.lean ====
section
/-! DEFINITION. One step of the block: what the agents present arrives, then a reset, or a move of torn mode, or the next
event of the stream (70_reset_and_hazards.md R240, 20_memory.md R66, R67, R77; log entry 13). -/

namespace Sys2Proof.Machine

/-- One step. -/
def step (s : State) : Host.Outcome State Fault Refusal :=
  let b := nextBoundary s
  let t := arrive b s
  if b.rst then .next (withdrawCutOff (resetBlock b.regOk t))
  else if held t then runTorn b t
  else runEvent t

/-- A boundary at which no reset is asserted and no word arrives, and BUS moves. -/
def State.quietBoundary : Boundary :=
  { rst := false, regOk := true, bus := [], tmr := [], busMoves := true, pick := 0 }

/-- `s` with the word `w` first on a channel and nothing else at the next boundary, so that the next step takes it: on the
bus channel, or on the timer channel where the registration with the transport failed and no bus word is taken. Every event
is one 16-bit word, whatever `nbits` the table gives it (30_encoding.md R88). Any word may be placed, also one that a
conforming agent never sends: the block's response to it is defined (30_encoding.md R86). Log entry 12. -/
def State.withFetchWord (s : State) (_nbits w : Nat) : State :=
  { s with
    ports :=
      if s.initError.isSome then
        { s.ports with env := State.quietBoundary :: s.ports.env, tmrQ := BitVec.ofNat 16 w :: s.ports.tmrQ }
      else
        { s.ports with env := State.quietBoundary :: s.ports.env, busQ := BitVec.ofNat 16 w :: s.ports.busQ } }

end Sys2Proof.Machine
end

