-- ==== Sys2Proof/Safety.lean ====
section
/-! DEFINITION. The terms claims are stated in: the invariants of 10_state.md R43 to R48, the conforming traffic of
70_reset_and_hazards.md R245, runs of events (R261), and the instants of 42_lock_controller.md R154 and
43_measurement.md R173. -/

namespace Sys2Proof.Safety

open Sys2Proof.Machine

/-- `T = {TEMP_H, TEMP_L}` (10_state.md R26). -/
def temperature (s : State) : BitVec 16 := getReg s Reg.tempH ++ getReg s Reg.tempL

/-- `H = {HUMID_H, HUMID_L}` (R27). -/
def humidity (s : State) : BitVec 16 := getReg s Reg.humidH ++ getReg s Reg.humidL

/-- R43. -/
abbrev WhoAmIFixed (s : State) : Prop := getReg s Reg.whoAmI = 0x42#8

/-- R44: the lock mirror. -/
abbrev LockMirrored (s : State) : Prop :=
  lockedFlag s = (s.lockst == .locked) ∧
    getReg s Reg.lockStatus = if s.lockst = .locked then 0x01#8 else 0x00#8

/-- R45: what holds while Locked. -/
abbrev LockedForced (s : State) : Prop :=
  s.lockst = .locked →
    getReg s Reg.tempL = 0xFF#8 ∧ getReg s Reg.tempH = 0xFF#8 ∧ getReg s Reg.humidH = 0xFF#8 ∧
      getReg s Reg.humidL = 0xFF#8 ∧ dataReady s = false ∧ s.measst = .idle

/-- R46: what holds while a measurement is in progress. -/
abbrev BusyUnlocked (s : State) : Prop :=
  s.measst = .inProgress → s.lockst = .unlocked ∧ dataReady s = false

abbrev TempInRange (v : BitVec 16) : Prop := Config.tempMin ≤ v.toNat ∧ v.toNat ≤ Config.tempMax
abbrev HumidInRange (v : BitVec 16) : Prop := Config.humidMin ≤ v.toNat ∧ v.toNat ≤ Config.humidMax

/-- R47. -/
abbrev ValuesInRange (s : State) : Prop :=
  (dataReady s = true → TempInRange (temperature s) ∧ HumidInRange (humidity s)) ∧
    (temperature s = 0xFFFF#16 ∨ TempInRange (temperature s)) ∧
      (humidity s = 0xFFFF#16 ∨ HumidInRange (humidity s))

/-- R48. -/
abbrev StatusLegal (s : State) : Prop :=
  getReg s Reg.status = 0x00#8 ∨ getReg s Reg.status = 0x01#8 ∨ getReg s Reg.status = 0x02#8

/-- The invariants R43 to R48 together; R51 (`AP ∈ 0..11`) holds by the type of `ap`. -/
abbrev BlockInv (s : State) : Prop :=
  WhoAmIFixed s ∧ LockMirrored s ∧ LockedForced s ∧ BusyUnlocked s ∧ ValuesInRange s ∧ StatusLegal s

/-- A background operation is under way (20_memory.md R67): its remaining writes are part of one lock() or of one complete()
with draws in range, and with them done the invariants hold. -/
def OperationUnderWay (s : State) : Prop :=
  s.bg.work ≠ [] ∧
    (s.bg.work.Sublist lockSubSteps ∨
      ∃ temp humid, TempInRange temp ∧ HumidInRange humid ∧ s.bg.work.Sublist (completeSubSteps temp humid)) ∧
    BlockInv (runSubSteps s.bg.work s)

/-- The invariants in every mode: "When `BG_ATOMIC = false`, they hold whenever `MUTEX = Free`" (10_state.md section 8). -/
def BoundaryInv (s : State) : Prop :=
  (held s = false → BlockInv s) ∧ (held s = true → OperationUnderWay s)

/-- Is this event a data byte, and so a BusWrite (R121)? -/
abbrev IsDataByte (i : Instr) (s : State) (d : Byte) : Prop := i = .wbyte d ∧ s.phase = .addressed

/-- Does this event invoke unlock() (41_protocol_engine.md R127)? -/
abbrev InvokesUnlock (i : Instr) (s : State) : Prop :=
  IsDataByte i s (getReg s Reg.sessionCode) ∧ s.ap = Reg.unlock

/-- Does this event invoke start() (R126)? -/
abbrev InvokesStart (i : Instr) (s : State) : Prop :=
  ∃ d : Byte, IsDataByte i s d ∧ s.ap = Reg.ctrl1 ∧ d[0] = true

/-- The one duty that the instants of R154 and R173 rest on: in periodic mode the Ticker sends no CHKTO and no CHKMC
(70_reset_and_hazards.md R245). -/
def noSeparateCheck (c : Config) (i : Instr) : Bool :=
  match c.tickerMode with
  | .periodic => i != .chkto && i != .chkmc
  | .free => true

/-- Conforming traffic (R245, R246): every word waiting on a channel is one that its agent may send, on the bus channel in the
PHASE in which the block will take it. -/
abbrev Conforming (s : State) : Prop :=
  busSends s.phase s.ports.busQ = s.ports.busQ ∧ tickerSends s.cfg.tickerMode s.ports.tmrQ = s.ports.tmrQ

/-- A run: the left fold of the event rules over a list of events (20_memory.md R66, 70_reset_and_hazards.md R261). -/
def runEvents : List Instr → State → Host.Outcome State Fault Refusal
  | [], s => .next s
  | i :: rest, s =>
    match exec i s with
    | .next t => runEvents rest t
    | .fault f => .fault f
    | .refused r => .refused r

/-- A run with the responses of its read events, oldest first (R261). -/
def runResponses : List Instr → State → Option (List Byte × State)
  | [], s => some ([], s)
  | i :: rest, s =>
    match exec i s with
    | .next t =>
      match runResponses rest t with
      | some (bs, u) => some (if t.out.rspValid then t.out.rspData :: bs else bs, u)
      | none => none
    | .fault _ => none
    | .refused _ => none

/-- The controller calls neither start() nor unlock() along this run. -/
def CallFree : List Instr → State → Prop
  | [], _ => True
  | i :: rest, s => ¬InvokesStart i s ∧ ¬InvokesUnlock i s ∧ ∀ t, exec i s = .next t → CallFree rest t

/-- The Ticker's sub-steps, one for each pick (20_memory.md R67 item 3). -/
def runTickerSubSteps : List Nat → State → State
  | [], s => s
  | k :: rest, s => runTickerSubSteps rest (tickerSubStep k s)

/-- The relock instant of an unlock at `t` in periodic mode (42_lock_controller.md R154). -/
def relockTime (t : Nat) : Nat := ((t + Config.tRelock) / Config.pTimeout + 1) * Config.pTimeout

/-- The completion instant of a start at `t` in periodic mode (43_measurement.md R173), the quotient rounded up. -/
def completionTime (t : Nat) : Nat := ((t + Config.tMeas + (Config.pComplete - 1)) / Config.pComplete) * Config.pComplete

/-- What lock() leaves, written out register by register (42_lock_controller.md R150). -/
def lockedState (s : State) : State :=
  { s with
    lockst := .locked
    measst := .idle
    regs :=
      ((((((s.regs.set Reg.status ((getReg s Reg.status ||| 0x02#8) &&& 0xFE#8)).set Reg.tempL 0xFF#8).set
        Reg.tempH 0xFF#8).set Reg.humidH 0xFF#8).set Reg.humidL 0xFF#8).set Reg.lockStatus 0x01#8) }

/-- What complete() leaves for the draws `temp` and `humid`, written out (43_measurement.md R172). -/
def completedState (temp humid : BitVec 16) (s : State) : State :=
  { s with
    measst := .idle
    regs :=
      ((((s.regs.set Reg.tempL (temp.extractLsb' 0 8)).set Reg.tempH (temp.extractLsb' 8 8)).set
        Reg.humidL (humid.extractLsb' 0 8)).set Reg.humidH (humid.extractLsb' 8 8)).set
        Reg.status (getReg s Reg.status ||| 0x01#8) }

/-- The relock condition of checkTimeout at the instant `t` (42_lock_controller.md R152). -/
abbrev RelockDueAt (t : Time) (s : State) : Prop := s.lockst = .unlocked ∧ 5000 < (t - s.tUnlock).toNat

/-- The completion condition of checkComplete at the instant `t` (43_measurement.md R171). -/
abbrev CompletionDueAt (t : Time) (s : State) : Prop := s.measst = .inProgress ∧ 500 ≤ (t - s.tStart).toNat

/-- The timer events that lock an Unlocked block in atomic mode (42_lock_controller.md R152, 44_ticker.md R191, R192). -/
abbrev TimerLocks (i : Instr) (s : State) : Prop :=
  (i = .chkto ∧ RelockDueAt s.now s) ∨
    (i = .tick ∧ s.cfg.tickerMode = .periodic ∧ (s.now + 1).toNat % 1000 = 0 ∧ RelockDueAt (s.now + 1) s)

/-- The timer events that find a completion due (43_measurement.md R171, 44_ticker.md R191, R193). -/
abbrev TimerCompletes (i : Instr) (s : State) : Prop :=
  (i = .chkmc ∧ CompletionDueAt s.now s) ∨
    (i = .tick ∧ s.cfg.tickerMode = .periodic ∧ (s.now + 1).toNat % 50 = 0 ∧ CompletionDueAt (s.now + 1) s)

/-- The value registers (10_state.md R26, R27), each with its byte of this measurement (20_memory.md R60). -/
def valueBytes (temp humid : BitVec 16) : List (Reg × Byte) :=
  [(Reg.tempL, lo8 temp), (Reg.tempH, hi8 temp), (Reg.humidH, hi8 humid), (Reg.humidL, lo8 humid)]

/-- The two states agree in everything but the outputs and the model's count of free values: in what 10_state.md R42, R55
call the block's state, the switches and the channels. -/
def SameState (t u : State) : Prop := { t with out := u.out, freeIx := u.freeIx } = u

/-- The outcome is a next state that agrees with `u`, with this response (none: `rsp_valid = 0`, and nothing is said of
`rsp_data`; 30_encoding.md R84) and this diagnostic (60_exceptions.md R212). -/
def Yields (o : Host.Outcome State Fault Refusal) (u : State) (rsp : Option Byte) (d : Diag) : Prop :=
  ∃ t, o = .next t ∧ SameState t u ∧ t.out.rspValid = rsp.isSome ∧ (∀ b, rsp = some b → t.out.rspData = b) ∧
    t.out.diag = d

/-- The cause of each diagnostic (60_exceptions.md R212), for an event that answers a next state. -/
def diagCause (i : Instr) (s : State) : Diag :=
  match i with
  | .reserved _ => .reservedEvent
  | .wbyte d =>
    if s.phase ≠ .addressed then .noDiag
    else if s.ap ∈ ([0, 2, 3, 4, 5, 6, 9, 11] : List Reg) then .roWrite
    else if s.ap = 10 ∧ d ≠ getReg s 9 then .codeMismatch
    else if held s = true ∧ (s.ap = 10 ∨ s.ap = 1 ∧ d[0] = true) then .sideEffectDropped
    else if s.ap = 1 ∧ d[0] = true ∧ s.lockst = .locked then .startLocked
    else if s.ap = 1 ∧ d[0] = true ∧ s.measst = .inProgress then .startBusy
    else .noDiag
  | .nop => .noDiag
  | .wstart => .noDiag
  | .rreq => .noDiag
  | .rcont => .noDiag
  | .stop => .noDiag
  | .tick => .noDiag
  | .chkto => .noDiag
  | .chkmc => .noDiag

/-- A state that differs from `s` at most in stamps the block does not read: T_UNLOCK while Locked, T_START while Idle
(10_state.md R36, R38). -/
def withStaleStamps (x y : Time) (s : State) : State :=
  { s with
    tUnlock := if s.lockst = .locked then x else s.tUnlock
    tStart := if s.measst = .idle then y else s.tStart }

end Sys2Proof.Safety
end

