-- ==== Sys2Proof/Certificates/Slice0/Obligations.lean ====
section
/-! DEFINITION. The statements for the provers. `Yields o u rsp d` says that the outcome `o` IS a next state, that it agrees
with `u` in every field but the outputs and the model's own count of free values, and which response and diagnostic it
drives; so a statement of that form says the result, the whole frame and the completion of an event at once. -/

open Sys2Proof Sys2Proof.Machine Sys2Proof.Safety

/-! ## Encoding -/

/-- 95_test_vectors.md section 2.1: the words of the decode table decode as it lists. -/
def Obligations.ListedWordsDecodeAsTheTableSays : Prop :=
  decode 0x0000#16 = .nop ∧ decode 0x00FF#16 = .nop ∧ decode 0x1000#16 = .wstart ∧ decode 0x10A5#16 = .wstart ∧
    decode 0x2000#16 = .wbyte 0x00#8 ∧ decode 0x20AB#16 = .wbyte 0xAB#8 ∧ decode 0x20FF#16 = .wbyte 0xFF#8 ∧
    decode 0x2100#16 = .reserved 0x2100#16 ∧ decode 0x2F0A#16 = .reserved 0x2F0A#16 ∧ decode 0x3000#16 = .rreq ∧
    decode 0x40FF#16 = .rcont ∧ decode 0x5000#16 = .stop ∧ decode 0x6000#16 = .tick ∧ decode 0x7000#16 = .chkto ∧
    decode 0x8000#16 = .chkmc ∧ decode 0x8F00#16 = .reserved 0x8F00#16 ∧ decode 0x9000#16 = .reserved 0x9000#16 ∧
    decode 0xF0FF#16 = .reserved 0xF0FF#16

/-- R85 (the spec's decision D3): the decode function, for every word. -/
def Obligations.DecodeFollowsKindAndRsvdOnEveryWord : Prop :=
  ∀ w : EventWord,
    (w.extractLsb' 8 4 ≠ 0#4 → decode w = .reserved w) ∧
      (w.extractLsb' 8 4 = 0#4 →
        (w.extractLsb' 12 4 = 0x0#4 → decode w = .nop) ∧ (w.extractLsb' 12 4 = 0x1#4 → decode w = .wstart) ∧
        (w.extractLsb' 12 4 = 0x2#4 → decode w = .wbyte (w.extractLsb' 0 8)) ∧
        (w.extractLsb' 12 4 = 0x3#4 → decode w = .rreq) ∧ (w.extractLsb' 12 4 = 0x4#4 → decode w = .rcont) ∧
        (w.extractLsb' 12 4 = 0x5#4 → decode w = .stop) ∧ (w.extractLsb' 12 4 = 0x6#4 → decode w = .tick) ∧
        (w.extractLsb' 12 4 = 0x7#4 → decode w = .chkto) ∧ (w.extractLsb' 12 4 = 0x8#4 → decode w = .chkmc) ∧
        (9 ≤ (w.extractLsb' 12 4).toNat → decode w = .reserved w))

/-- The canonical word of every well-formed event decodes to that event, for every byte and every reserved word. -/
def Obligations.DecodeOfEncodeIsTheEvent : Prop :=
  ∀ i : Instr, i.wf = true → decode (encode i) = i

/-- The other direction: what is decoded is well formed, and encoding it again gives the word back with its ignored bits
cleared (all bits of WBYTE and of reserved words are kept). -/
def Obligations.EncodeOfDecodeClearsOnlyIgnoredBits : Prop :=
  ∀ w : EventWord,
    (decode w).wf = true ∧
      (w.extractLsb' 8 4 = 0#4 ∧ w.extractLsb' 12 4 ≠ 2#4 ∧ (w.extractLsb' 12 4).toNat < 9 →
        encode (decode w) = w &&& 0xFF00#16) ∧
      (¬(w.extractLsb' 8 4 = 0#4 ∧ w.extractLsb' 12 4 ≠ 2#4 ∧ (w.extractLsb' 12 4).toNat < 9) → encode (decode w) = w)

/-- R89 (an inference the spec marks as derived from R85): a word matches a row of exactly one mnemonic of the opcode map,
the mnemonic of the event it decodes to, so no priority between rows is needed. -/
def Obligations.OpcodeRowsOfOneMnemonicMatchEachWord : Prop :=
  ∀ (w : EventWord) (m : Mnemonic),
    (∃ r ∈ opcodeRows, r.mnemonic = m ∧ w &&& r.mask = r.bits) ↔ (decode w).mnemonic = m

/-- R83: DATA is the operand of WBYTE, unextended and unscaled, and no other event reads it. -/
def Obligations.DataIsReadByWbyteOnly : Prop :=
  (∀ (w w' : EventWord) (s : State), w.extractLsb' 8 8 = w'.extractLsb' 8 8 → w.extractLsb' 8 8 ≠ 0x20#8 →
      exec (decode w) s = exec (decode w') s) ∧
    (∀ (w : EventWord) (s : State), w.extractLsb' 8 8 = 0x20#8 →
      decode w = .wbyte (w.extractLsb' 0 8) ∧
        (s.phase ≠ .addressed → ∃ t, exec (decode w) s = .next t ∧ t.ap.val = (w.extractLsb' 0 8).toNat % 12) ∧
        (s.phase = .addressed → s.ap = 1 ∨ s.ap = 7 ∨ s.ap = 8 ∨ s.ap = 10 → ∀ t, exec (decode w) s = .next t →
          getReg t s.ap = w.extractLsb' 0 8))

/-! ## Bus events -/

/-- R120. -/
def Obligations.WstartEntersTheAddressPhase : Prop :=
  encode .wstart = 0x1000#16 ∧
    ∀ s : State, Yields (exec .wstart s) { s with phase := .awaitingAddress } none .noDiag

/-- R122, R124 (decision D8), R105: a WBYTE outside the data phase only sets the address pointer, whatever register the byte
names. -/
def Obligations.WbyteOutsideTheDataPhaseSetsTheAddress : Prop :=
  ∀ (s : State) (d : Byte), s.phase = .awaitingAddress ∨ s.phase = .idle →
    Yields (exec (.wbyte d) s) { s with ap := ⟨d.toNat % 12, Nat.mod_lt _ (by decide)⟩, phase := .addressed } none .noDiag

/-- R101, R125: a data byte for a read-only register changes no register, advances AP and raises diagnostic 1. -/
def Obligations.DataByteToAReadOnlyRegisterIsRejected : Prop :=
  ∀ (s : State) (d : Byte), s.phase = .addressed → s.ap ∈ ([0, 2, 3, 4, 5, 6, 9, 11] : List Reg) →
    Yields (exec (.wbyte d) s) { s with ap := s.ap + 1 } none .roWrite

/-- R28, R101: a data byte for CONFIG or PADDING is stored and has no other effect. -/
def Obligations.DataByteToAPassthroughRegisterIsStored : Prop :=
  ∀ (s : State) (d : Byte), s.phase = .addressed → s.ap = 7 ∨ s.ap = 8 →
    Yields (exec (.wbyte d) s) { s with regs := s.regs.set s.ap d, ap := s.ap + 1 } none .noDiag

/-- R126, R170: a data byte for CTRL1 is stored; with bit 0 clear that is all, and with bit 0 set it calls start(), which is
refused while Locked, refused while InProgress, and otherwise starts a measurement. Of the call: `held s = false` always holds
in atomic mode. -/
def Obligations.Ctrl1StartBitCallsStart : Prop :=
  ∀ (s : State) (d : Byte), s.phase = .addressed → s.ap = 1 →
    (d[0] = false → Yields (exec (.wbyte d) s) { s with regs := s.regs.set 1 d, ap := 2 } none .noDiag) ∧
    (d[0] = true → held s = false → s.lockst = .locked →
      Yields (exec (.wbyte d) s) { s with regs := s.regs.set 1 d, ap := 2 } none .startLocked) ∧
    (d[0] = true → held s = false → s.lockst = .unlocked → s.measst = .inProgress →
      Yields (exec (.wbyte d) s) { s with regs := s.regs.set 1 d, ap := 2 } none .startBusy) ∧
    (d[0] = true → held s = false → s.lockst = .unlocked → s.measst = .idle →
      Yields (exec (.wbyte d) s)
        { s with
          regs := (s.regs.set 1 d).set 2 (s.regs[2] &&& 0xFE#8)
          ap := 2
          measst := .inProgress
          tStart := s.now } none .noDiag)

/-- R127, R151: a data byte for UNLOCK is stored; it unlocks exactly when it equals the session code. -/
def Obligations.UnlockWriteComparesWithTheSessionCode : Prop :=
  ∀ (s : State) (d : Byte), s.phase = .addressed → s.ap = 10 →
    (d ≠ s.regs[9] →
      Yields (exec (.wbyte d) s) { s with regs := s.regs.set 10 d, ap := 11 } none .codeMismatch) ∧
    (d = s.regs[9] → held s = false →
      Yields (exec (.wbyte d) s)
        { s with
          regs := ((s.regs.set 10 d).set 2 (s.regs[2] &&& 0xFD#8)).set 11 0x00#8
          ap := 11
          lockst := .unlocked
          tUnlock := s.now } none .noDiag)

/-- R125, R104: every data byte that has a step advances AP by one modulo 12, rejected or not; an address byte does not. -/
def Obligations.EveryDataByteAdvancesThePointer : Prop :=
  ∀ (s t : State) (d : Byte), exec (.wbyte d) s = .next t →
    (s.phase = .addressed → t.ap.val = (s.ap.val + 1) % 12) ∧
      (s.phase ≠ .addressed → t.ap.val = d.toNat % 12)

/-- R128, R129: RREQ responds the register at AP and changes no state; RCONT advances AP first and responds the register at
the new address. -/
def Obligations.ReadEventsRespondAtThePointer : Prop :=
  (encode .rreq = 0x3000#16 ∧ ∀ s : State, Yields (exec .rreq s) s (some s.regs[s.ap]) .noDiag) ∧
    (encode .rcont = 0x4000#16 ∧
      ∀ s : State, Yields (exec .rcont s) { s with ap := s.ap + 1 } (some s.regs[s.ap + 1]) .noDiag)

/-- R130, R132: NOP changes no state; nor does a reserved word, every one of which emits diagnostic 6. -/
def Obligations.NopAndReservedWordsChangeNothing : Prop :=
  (encode .nop = 0x0000#16 ∧ ∀ s : State, Yields (exec .nop s) s none .noDiag) ∧
    (∀ (w : EventWord) (s : State), Yields (exec (.reserved w) s) s none .reservedEvent) ∧ Diag.reservedEvent.code = 6

/-- R131. -/
def Obligations.StopEndsTheTransactionAndKeepsThePointer : Prop :=
  encode .stop = 0x5000#16 ∧ ∀ s : State, Yields (exec .stop s) { s with phase := .idle } none .noDiag

/-- R133: the PHASE transition table, over all events, with what its WBYTE row says of AP. -/
def Obligations.PhaseFollowsTheTransitionTable : Prop :=
  ∀ (i : Instr) (s t : State), exec i s = .next t →
    t.phase = phaseAfter i s.phase ∧
      (∀ d, i = .wbyte d → s.phase ≠ .addressed → t.ap.val = d.toNat % 12)

/-- R84: exactly the two read events respond, with the register at AP after their own advance; and every write-byte is accepted
(while the mutex is free, as it always is in atomic mode). -/
def Obligations.OnlyReadEventsRespond : Prop :=
  (∀ (i : Instr) (s t : State), exec i s = .next t →
    (t.out.rspValid = true ↔ i = .rreq ∨ i = .rcont) ∧ (i = .rreq ∨ i = .rcont → t.out.rspData = getReg s t.ap)) ∧
  ∀ (d : Byte) (s : State), held s = false → ∃ t, exec (.wbyte d) s = .next t

/-- R212: each diagnostic code has exactly the causes of the table, its number is the table's, and code 7 is never emitted. -/
def Obligations.DiagnosticsHaveTheListedCauses : Prop :=
  (∀ (i : Instr) (s t : State), exec i s = .next t → t.out.diag = diagCause i s ∧ t.out.diag.code ≠ 7) ∧
    Diag.noDiag.code = 0 ∧ Diag.roWrite.code = 1 ∧ Diag.codeMismatch.code = 2 ∧ Diag.startLocked.code = 3 ∧
    Diag.startBusy.code = 4 ∧ Diag.sideEffectDropped.code = 5 ∧ Diag.reservedEvent.code = 6

/-- R106: after a write transaction's N data bytes AP is (A + N) mod 12, whichever were rejected. -/
def Obligations.WriteTransactionPointerLaw : Prop :=
  ∀ (a : Byte) (vs : List Byte) (s : State), held s = false →
    ∃ u, runEvents (.wstart :: .wbyte a :: vs.map Instr.wbyte) s = .next u ∧ u.ap.val = (a.toNat + vs.length) % 12 ∧
      u.phase = .addressed

/-- R107, R135 (inferences the spec marks as derived from R128, R129): a read-request and n read-continues respond the
registers from AP on, wrapping, and change no register. -/
def Obligations.ReadBurstRespondsConsecutiveRegisters : Prop :=
  ∀ (n : Nat) (s : State), ∃ u, runResponses (.rreq :: List.replicate n .rcont) s =
      some ((List.range (n + 1)).map (fun k => getReg s (s.ap + Fin.ofNat 12 k)), u) ∧
    u.ap.val = (s.ap.val + n) % 12 ∧ u.regs = s.regs ∧ u.phase = s.phase

/-- R254 (an inference the spec marks as derived): one burst over addresses 10, 11, 0, 1 unlocks, is rejected twice, and starts
a measurement. -/
def Obligations.BurstUnlocksThenStarts : Prop :=
  ∀ (s : State) (x y v : Byte), s.phase = .addressed → s.ap = 10 → s.measst = .idle → v[0] = true →
    held s = false →
    ∃ u, runEvents [.wbyte s.regs[9], .wbyte x, .wbyte y, .wbyte v] s = .next u ∧
      u.lockst = .unlocked ∧ u.tUnlock = s.now ∧ u.measst = .inProgress ∧ u.tStart = s.now ∧ u.ap = 2 ∧
      getReg u 10 = s.regs[9] ∧ getReg u 11 = 0x00#8 ∧ getReg u 0 = s.regs[0] ∧ getReg u 1 = v

/-! ## The timer events -/

/-- R152, R192, R150: CHKTO in atomic mode, in either ticker mode, also where the condition does not hold. -/
def Obligations.ChktoLocksExactlyAfterTheTimeout : Prop :=
  ∀ s : State, s.cfg.bgAtomic = true →
    (RelockDueAt s.now s →
      Yields (exec .chkto s)
        { lockedState s with lastTo := if s.cfg.tickerMode = .free then s.now else s.lastTo } none .noDiag) ∧
    (¬RelockDueAt s.now s →
      Yields (exec .chkto s) { s with lastTo := if s.cfg.tickerMode = .free then s.now else s.lastTo } none .noDiag)

/-- R171, R172, R193: CHKMC in atomic mode; the two drawn values are any two in range, and nothing more is said of them. -/
def Obligations.ChkmcCompletesExactlyAfterTheDelay : Prop :=
  ∀ s : State, s.cfg.bgAtomic = true →
    (CompletionDueAt s.now s →
      ∃ temp humid, TempInRange temp ∧ HumidInRange humid ∧
        Yields (exec .chkmc s)
          { completedState temp humid s with lastMc := if s.cfg.tickerMode = .free then s.now else s.lastMc }
          none .noDiag) ∧
    (¬CompletionDueAt s.now s →
      Yields (exec .chkmc s) { s with lastMc := if s.cfg.tickerMode = .free then s.now else s.lastMc } none .noDiag)

/-- R190, R191 (decisions D11, D13, D14): TICK in periodic, atomic mode: time advances by one, and in the same step the due
checks run, the timeout check first. -/
def Obligations.PeriodicTickAdvancesTimeAndRunsTheDueChecks : Prop :=
  ∀ s : State, s.cfg.bgAtomic = true → s.cfg.tickerMode = .periodic →
    ((s.now + 1).toNat % 1000 = 0 ∧ RelockDueAt (s.now + 1) s →
      Yields (exec .tick s) { lockedState s with now := s.now + 1 } none .noDiag) ∧
    (¬((s.now + 1).toNat % 1000 = 0 ∧ RelockDueAt (s.now + 1) s) →
      (s.now + 1).toNat % 50 = 0 ∧ CompletionDueAt (s.now + 1) s →
      ∃ temp humid, TempInRange temp ∧ HumidInRange humid ∧
        Yields (exec .tick s) { completedState temp humid s with now := s.now + 1 } none .noDiag) ∧
    (¬((s.now + 1).toNat % 1000 = 0 ∧ RelockDueAt (s.now + 1) s) →
      ¬((s.now + 1).toNat % 50 = 0 ∧ CompletionDueAt (s.now + 1) s) →
      Yields (exec .tick s) { s with now := s.now + 1 } none .noDiag)

/-- R196 (and R195): TICK in free mode only advances time, and only inside the fairness bound; outside it has no step (log entry 8).
That the two differences of the bound are taken modulo 2^64, in states that no run reaches, is the model's reading of R196
(DEDUCED, log entry 4). -/
def Obligations.FreeModeTickKeepsTheFairnessBound : Prop :=
  ∀ s : State, s.cfg.tickerMode = .free → held s = false →
    ((s.now + 1 - s.lastTo).toNat ≤ 1000 ∧ (s.now + 1 - s.lastMc).toNat ≤ 50 →
      Yields (exec .tick s) { s with now := s.now + 1 } none .noDiag) ∧
    (¬((s.now + 1 - s.lastTo).toNat ≤ 1000 ∧ (s.now + 1 - s.lastMc).toNat ≤ 50) →
      ∀ t, exec .tick s ≠ .next t)

/-- R150: the nine writes of lock(), and that it changes nothing in a Locked state that meets the invariants R43 to R48. -/
def Obligations.LockWritesItsNineElementsAndIsIdempotent : Prop :=
  lockSubSteps.length = 9 ∧ (∀ s : State, lock s = lockedState s) ∧
    (∀ s : State, BlockInv s → s.lockst = .locked → lock s = s)

/-- R60: after a completion {TEMP_H, TEMP_L} and {HUMID_H, HUMID_L} are the two values, bytes by register name. -/
def Obligations.CompletionSplitsTheValuesByName : Prop :=
  ∀ (temp humid : BitVec 16) (s : State),
    temperature (completeWith temp humid s) = temp ∧ humidity (completeWith temp humid s) = humid ∧
      getReg (completeWith temp humid s) 3 = lo8 temp ∧ getReg (completeWith temp humid s) 4 = hi8 temp ∧
      getReg (completeWith temp humid s) 5 = hi8 humid ∧ getReg (completeWith temp humid s) 6 = lo8 humid

/-- R194 (an inference the spec marks as derived): in atomic mode the order of the two checks leaves no trace, in any state. -/
def Obligations.OrderOfTheTwoChecksIsUnobservable : Prop :=
  ∀ s : State, s.cfg.bgAtomic = true →
    SameState (checkComplete (checkTimeout s)) (checkTimeout (checkComplete s))

/-- R40: only TICK changes `now`, by one; it starts at 0 and never decreases short of the wrap at 2^64. -/
def Obligations.OnlyTickAdvancesTime : Prop :=
  State.reset.now = 0 ∧
    ∀ (i : Instr) (s t : State), exec i s = .next t →
      (i = .tick → t.now = s.now + 1) ∧ (i ≠ .tick → t.now = s.now) ∧
        (s.now.toNat + 1 < 2 ^ 64 → s.now.toNat ≤ t.now.toNat)

/-! ## State machines and invariants over all events -/

/-- R50 with the writers R25, R26, R27, R31 name, and R24, R28, R30 of the writable registers: which event, or which sub-step of
torn mode, may change a register, and to what. WHO_AM_I and SESSION_CODE have no writer. (A reset writes them all:
`AssertedResetPutsEveryElementInItsResetValue`. That no event of torn mode but the sub-steps makes a background write is R67
as log entry 7 reads it.) -/
def Obligations.RegistersChangeOnlyThroughTheirWriters : Prop :=
  (∀ (i : Instr) (s t : State) (a : Reg), exec i s = .next t → getReg t a ≠ getReg s a →
    (a ∈ ([1, 7, 8, 10] : List Reg) ∧ IsDataByte i s (getReg t a) ∧ s.ap = a) ∨
    (a ∈ ([3, 4, 5, 6] : List Reg) ∧ s.cfg.bgAtomic = true ∧
      (TimerLocks i s ∧ getReg t a = 0xFF#8 ∨
        TimerCompletes i s ∧ ∃ temp humid, TempInRange temp ∧ HumidInRange humid ∧
          (a, getReg t a) ∈ valueBytes temp humid)) ∨
    (a = 2 ∧
      (s.cfg.bgAtomic = true ∧ TimerLocks i s ∧ getReg t 2 = (getReg s 2 ||| 0x02#8) &&& 0xFE#8 ∨
        s.cfg.bgAtomic = true ∧ TimerCompletes i s ∧ getReg t 2 = getReg s 2 ||| 0x01#8 ∨
        InvokesUnlock i s ∧ t.lockst = .unlocked ∧ getReg t 2 = getReg s 2 &&& 0xFD#8 ∨
        InvokesStart i s ∧ s.lockst = .unlocked ∧ s.measst = .idle ∧ getReg t 2 = getReg s 2 &&& 0xFE#8)) ∨
    (a = 11 ∧
      (s.cfg.bgAtomic = true ∧ TimerLocks i s ∧ getReg t 11 = 0x01#8 ∨
        InvokesUnlock i s ∧ t.lockst = .unlocked ∧ getReg t 11 = 0x00#8))) ∧
  ∀ (k : Nat) (s : State) (a : Reg), held s = true → getReg (tickerSubStep k s) a ≠ getReg s a →
    (s.bg.work.Sublist lockSubSteps →
      a ∈ ([3, 4, 5, 6] : List Reg) ∧ getReg (tickerSubStep k s) a = 0xFF#8 ∨
      a = 2 ∧ (getReg (tickerSubStep k s) 2 = getReg s 2 ||| 0x02#8 ∨
        getReg (tickerSubStep k s) 2 = getReg s 2 &&& 0xFE#8) ∨
      a = 11 ∧ getReg (tickerSubStep k s) 11 = 0x01#8) ∧
    (∀ temp humid, s.bg.work.Sublist (completeSubSteps temp humid) →
      (a, getReg (tickerSubStep k s) a) ∈ valueBytes temp humid ∨
      a = 2 ∧ getReg (tickerSubStep k s) 2 = getReg s 2 ||| 0x01#8)

/-- R153 (decision D23), R155: in atomic mode a Locked block unlocks by a correct UNLOCK write alone, an Unlocked block locks by
the timeout alone, and T_UNLOCK is set by every correct UNLOCK write and by nothing else. -/
def Obligations.OnlyTheTimeoutLocksAndOnlyTheCodeUnlocks : Prop :=
  ∀ (i : Instr) (s t : State), s.cfg.bgAtomic = true → exec i s = .next t →
    (s.lockst = .locked → (t.lockst = .unlocked ↔ InvokesUnlock i s)) ∧
    (s.lockst = .unlocked →
      (t.lockst = .locked ↔
        (i = .chkto ∧ RelockDueAt s.now s) ∨
        (i = .tick ∧ s.cfg.tickerMode = .periodic ∧ (s.now + 1).toNat % 1000 = 0 ∧ RelockDueAt (s.now + 1) s))) ∧
    (InvokesUnlock i s → t.tUnlock = s.now) ∧ (¬InvokesUnlock i s → t.tUnlock = s.tUnlock)

/-- R174: the measurement state machine in atomic mode, over all events. -/
def Obligations.MeasurementStateMachine : Prop :=
  ∀ (i : Instr) (s t : State), s.cfg.bgAtomic = true → exec i s = .next t →
    (s.measst = .idle →
      (t.measst = .inProgress ↔ InvokesStart i s ∧ s.lockst = .unlocked) ∧
      (t.measst = .inProgress → t.tStart = s.now ∧ dataReady t = false) ∧
      (t.measst = .idle → t.tStart = s.tStart)) ∧
    (s.measst = .inProgress →
      (t.measst = .idle ↔
        (i = .chkmc ∧ CompletionDueAt s.now s) ∨ (i = .chkto ∧ RelockDueAt s.now s) ∨
        (i = .tick ∧ s.cfg.tickerMode = .periodic ∧
          ((s.now + 1).toNat % 1000 = 0 ∧ RelockDueAt (s.now + 1) s ∨
            (s.now + 1).toNat % 50 = 0 ∧ CompletionDueAt (s.now + 1) s))) ∧
      (t.measst = .idle → (dataReady t = true ↔ ¬(s.lockst = .unlocked ∧ t.lockst = .locked))) ∧
      t.tStart = s.tStart)

/-- R44: every step in atomic mode keeps the lock mirror. -/
def Obligations.StepKeepsTheLockMirror : Prop :=
  ∀ s t : State, s.cfg.bgAtomic = true → LockMirrored s → step s = .next t → LockMirrored t

/-- R43 to R48 in atomic mode, event by event (the spec marks R43, R46, R47, R48 and part of R45 as its own inferences). -/
def Obligations.EveryEventKeepsTheInvariantsInAtomicMode : Prop :=
  ∀ (i : Instr) (s t : State), s.cfg.bgAtomic = true → BlockInv s → exec i s = .next t → BlockInv t

/-- The invariants of 10_state.md section 8 in every mode, over every step, a reset and a sub-step of torn mode included: they
hold whenever MUTEX is Free, and while it is held the rest of the operation leads back to them (log entries 7, 13). -/
def Obligations.EveryStepKeepsTheInvariantsInEveryMode : Prop :=
  ∀ s t : State, BoundaryInv s → step s = .next t → BoundaryInv t

/-- R241: the reset state, whatever session code is drawn, meets the invariants, agrees with what lock() leaves, and is
Locked.Idle. -/
def Obligations.ResetMeetsTheInvariants : Prop :=
  (∀ c : Byte, BlockInv (State.resetWith c) ∧ getReg (State.resetWith c) 9 = c ∧
    lock (State.resetWith c) = State.resetWith c) ∧ BoundaryInv State.reset ∧ State.reset.lockst = .locked ∧
    State.reset.measst = .idle ∧ lockedFlag State.reset = true ∧ dataReady State.reset = false ∧
    getReg State.reset 11 = 0x01#8 ∧
    (∀ a ∈ ([3, 4, 5, 6] : List Reg), getReg State.reset a = 0xFF#8)

/-- R36, R38 (the stale stamps of 93_implementation_defined.md item 21): two states that differ only in T_UNLOCK while Locked, or
T_START while Idle, answer every event alike, and again differ at most so. -/
def Obligations.StaleStampsAreUnobservable : Prop :=
  ∀ (i : Instr) (s : State) (x y : Time),
    (∀ t, exec i s = .next t → ∃ x' y', exec i (withStaleStamps x y s) = .next (withStaleStamps x' y' t)) ∧
    (∀ f, exec i s = .fault f → exec i (withStaleStamps x y s) = .fault f)

/-- R251, atomic mode (an inference the spec marks as derived): between a state with DR = 1 and a later one with
LOCK_STATUS = 0x00, along any run in which the controller calls neither start() nor unlock() (address bytes, reads and other
writes are no such call, so the read idiom of R136 is in it), the measured values do not change and stay valid. -/
def Obligations.BurstReadSeesOneCompletion : Prop :=
  ∀ (es : List Instr) (s u : State), s.cfg.bgAtomic = true → BlockInv s → dataReady s = true → CallFree es s →
    runEvents es s = .next u → getReg u Reg.lockStatus = 0x00#8 →
    dataReady u = true ∧ temperature u = temperature s ∧ humidity u = humidity s

/-! ## Time -/

/-- R154 (an inference the spec marks as derived): in periodic, atomic mode, with no separate check of the Ticker (R245), an Unlocked block is before
its relock instant, every event keeps it so, and a relock happens at that instant exactly. -/
def Obligations.PeriodicRelockInstant : Prop :=
  ∀ (i : Instr) (s t : State), s.cfg.bgAtomic = true → s.cfg.tickerMode = .periodic →
    noSeparateCheck s.cfg i = true → s.now.toNat + 1 < 2 ^ 64 → exec i s = .next t →
    (s.lockst = .unlocked → s.tUnlock.toNat ≤ s.now.toNat ∧ s.now.toNat < relockTime s.tUnlock.toNat) →
    (t.lockst = .unlocked → t.tUnlock.toNat ≤ t.now.toNat ∧ t.now.toNat < relockTime t.tUnlock.toNat) ∧
      (s.lockst = .unlocked → t.lockst = .locked → t.now.toNat = relockTime s.tUnlock.toNat)

/-- R173 (an inference the spec marks as derived): the same for the completion of a measurement that no lock() aborts. -/
def Obligations.PeriodicCompletionInstant : Prop :=
  ∀ (i : Instr) (s t : State), s.cfg.bgAtomic = true → s.cfg.tickerMode = .periodic →
    noSeparateCheck s.cfg i = true → s.now.toNat + 1 < 2 ^ 64 → exec i s = .next t →
    (s.measst = .inProgress → s.tStart.toNat ≤ s.now.toNat ∧ s.now.toNat < completionTime s.tStart.toNat) →
    (t.measst = .inProgress → t.tStart.toNat ≤ t.now.toNat ∧ t.now.toNat < completionTime t.tStart.toNat) ∧
      (s.measst = .inProgress → t.measst = .idle → t.lockst = .unlocked →
        t.now.toNat = completionTime s.tStart.toNat ∧ dataReady t = true)

/-- R154: from an unlock at t, k TICKs and nothing else, in periodic, atomic mode, leave the block Locked exactly when
t + k has reached the relock instant. -/
def Obligations.TicksAloneRelockAtTheInstant : Prop :=
  ∀ (k : Nat) (s : State), s.cfg.bgAtomic = true → s.cfg.tickerMode = .periodic → s.lockst = .unlocked →
    s.tUnlock = s.now → s.now.toNat + k < 2 ^ 64 →
    ∃ u, runEvents (List.replicate k .tick) s = .next u ∧ u.now.toNat = s.now.toNat + k ∧
      (u.lockst = .locked ↔ relockTime s.now.toNat ≤ s.now.toNat + k)

/-- R173: from a start at t, k TICKs and nothing else, while the relock instant is not reached, leave the measurement done exactly
when t + k has reached the completion instant, with DR = 1 and values in range. -/
def Obligations.TicksAloneCompleteAtTheInstant : Prop :=
  ∀ (k : Nat) (s : State), s.cfg.bgAtomic = true → s.cfg.tickerMode = .periodic → s.lockst = .unlocked →
    s.measst = .inProgress → s.tStart = s.now → s.tUnlock.toNat ≤ s.now.toNat →
    s.now.toNat + k < relockTime s.tUnlock.toNat → s.now.toNat + k < 2 ^ 64 →
    ∃ u, runEvents (List.replicate k .tick) s = .next u ∧ u.now.toNat = s.now.toNat + k ∧
      (u.measst = .idle ↔ completionTime s.now.toNat ≤ s.now.toNat + k) ∧
      (u.measst = .idle → dataReady u = true ∧ TempInRange (temperature u) ∧ HumidInRange (humidity u))

/-- R197 (an inference the spec marks as derived from R195, R196): the deadlines of free, atomic mode, as an invariant of every
event: the last checks are recent enough that a relock comes within `P_TIMEOUT` of its threshold and a completion within
`P_COMPLETE - 1`. -/
def Obligations.FreeModeDeadlines : Prop :=
  ∀ (i : Instr) (s t : State), s.cfg.bgAtomic = true → s.cfg.tickerMode = .free → s.now.toNat + 1 < 2 ^ 64 →
    exec i s = .next t →
    (s.lastTo.toNat ≤ s.now.toNat ∧ s.now.toNat ≤ s.lastTo.toNat + 1000 ∧
      s.lastMc.toNat ≤ s.now.toNat ∧ s.now.toNat ≤ s.lastMc.toNat + 50 ∧
      (s.lockst = .unlocked → s.tUnlock.toNat ≤ s.now.toNat ∧ s.lastTo.toNat ≤ s.tUnlock.toNat + 5000) ∧
      (s.measst = .inProgress → s.tStart.toNat ≤ s.now.toNat ∧ s.lastMc.toNat ≤ s.tStart.toNat + 499)) →
    (t.lastTo.toNat ≤ t.now.toNat ∧ t.now.toNat ≤ t.lastTo.toNat + 1000 ∧
      t.lastMc.toNat ≤ t.now.toNat ∧ t.now.toNat ≤ t.lastMc.toNat + 50 ∧
      (t.lockst = .unlocked → t.tUnlock.toNat ≤ t.now.toNat ∧ t.lastTo.toNat ≤ t.tUnlock.toNat + 5000) ∧
      (t.measst = .inProgress → t.tStart.toNat ≤ t.now.toNat ∧ t.lastMc.toNat ≤ t.tStart.toNat + 499)) ∧
    (s.lockst = .unlocked → t.lockst = .locked →
      s.tUnlock.toNat + 5000 < t.now.toNat ∧ t.now.toNat ≤ s.tUnlock.toNat + 5000 + 1000) ∧
    (s.measst = .inProgress → t.measst = .idle → t.lockst = .unlocked →
      s.tStart.toNat + 500 ≤ t.now.toNat ∧ t.now.toNat ≤ s.tStart.toNat + 500 + 49)

/-! ## Torn mode -/

/-- R67 items 2, 3: in torn mode a check that fires takes the mutex and leaves its writes to be made; a check that does not fire
changes nothing but the free-mode stamp. That the check, its stamp (R192, R193), the draws of complete() and the taking of the
mutex are one step is the model's reading (DEDUCED, log entry 7). While the mutex is held, no timer event has a step
(DESIGN CHOICE, log entry 8). -/
def Obligations.TornChecksTakeTheMutex : Prop :=
  (∀ (i : Instr) (s : State), held s = true → i = .tick ∨ i = .chkto ∨ i = .chkmc → exec i s = .fault .mutexHeld) ∧
  ∀ s : State, s.cfg.bgAtomic = false → s.bg.mutex = .free →
    (RelockDueAt s.now s →
      Yields (exec .chkto s)
        { s with
          lastTo := if s.cfg.tickerMode = .free then s.now else s.lastTo
          bg := { s.bg with mutex := .heldByTicker, work := lockSubSteps } } none .noDiag) ∧
    (CompletionDueAt s.now s →
      ∃ temp humid, TempInRange temp ∧ HumidInRange humid ∧
        Yields (exec .chkmc s)
          { s with
            lastMc := if s.cfg.tickerMode = .free then s.now else s.lastMc
            bg := { s.bg with mutex := .heldByTicker, work := completeSubSteps temp humid } } none .noDiag) ∧
    (¬RelockDueAt s.now s →
      Yields (exec .chkto s) { s with lastTo := if s.cfg.tickerMode = .free then s.now else s.lastTo } none .noDiag) ∧
    (¬CompletionDueAt s.now s →
      Yields (exec .chkmc s) { s with lastMc := if s.cfg.tickerMode = .free then s.now else s.lastMc } none .noDiag)

/-- R190, R191, R67, R199: TICK in periodic, torn mode. Where the timeout check locks, the completion check due at the same
instant is owed until the mutex is free (log entry 7); else a completion check that fires takes the mutex. -/
def Obligations.TornTickRunsTheDueChecks : Prop :=
  ∀ s : State, s.cfg.bgAtomic = false → s.bg.mutex = .free → s.cfg.tickerMode = .periodic →
    ((s.now + 1).toNat % 1000 = 0 ∧ RelockDueAt (s.now + 1) s →
      Yields (exec .tick s)
        { s with now := s.now + 1, bg := { mutex := .heldByTicker, work := lockSubSteps, mcDue := true } } none .noDiag) ∧
    (¬((s.now + 1).toNat % 1000 = 0 ∧ RelockDueAt (s.now + 1) s) →
      (s.now + 1).toNat % 50 = 0 ∧ CompletionDueAt (s.now + 1) s →
      ∃ temp humid, TempInRange temp ∧ HumidInRange humid ∧
        Yields (exec .tick s)
          { s with
            now := s.now + 1
            bg := { s.bg with mutex := .heldByTicker, work := completeSubSteps temp humid } } none .noDiag) ∧
    (¬((s.now + 1).toNat % 1000 = 0 ∧ RelockDueAt (s.now + 1) s) →
      ¬((s.now + 1).toNat % 50 = 0 ∧ CompletionDueAt (s.now + 1) s) →
      Yields (exec .tick s) { s with now := s.now + 1 } none .noDiag)

/-- R67 item 3, R68, and what R251 guarantees in torn mode: one sub-step of the Ticker makes exactly one of the remaining
writes, the one picked, and nothing else changes; the mutex stays held, until with the last one it is released (log entry 7)
and a check that the same TICK still owes is made. A step in which it is the Ticker's turn is such a sub-step; and in torn
mode no step but a reset gives a value register any byte but one that waits to be written. -/
def Obligations.ASubStepMakesOneWriteAndNothingElse : Prop :=
  (∀ (k : Nat) (s : State), held s = true → s.bg.work ≠ [] →
    ∃ (j : Nat) (v : SubStep), s.bg.work[j]? = some v ∧ (k < s.bg.work.length → j = k) ∧
      (tickerSubStep k s).out.rspValid = false ∧ (tickerSubStep k s).out.diag = .noDiag ∧
      (1 < s.bg.work.length →
        SameState (tickerSubStep k s) { applySubStep v s with bg := { s.bg with work := s.bg.work.eraseIdx j } }) ∧
      (s.bg.work.length = 1 →
        (¬(s.bg.mcDue = true ∧ CompletionDueAt s.now (applySubStep v s)) →
          SameState (tickerSubStep k s) { applySubStep v s with bg := { mutex := .free, work := [], mcDue := false } }) ∧
        (s.bg.mcDue = true ∧ CompletionDueAt s.now (applySubStep v s) →
          ∃ temp humid, TempInRange temp ∧ HumidInRange humid ∧
            SameState (tickerSubStep k s)
              { applySubStep v s with
                bg := { mutex := .heldByTicker, work := completeSubSteps temp humid, mcDue := false } }))) ∧
  (∀ s : State,
    (∀ l, applySubStep (.setLockState l) s = { s with lockst := l }) ∧
    (∀ m, applySubStep (.setMeasState m) s = { s with measst := m }) ∧
    (∀ a b, applySubStep (.intWrite a b) s = { s with regs := s.regs.set a b }) ∧
    applySubStep (.setStatusBit 0) s = { s with regs := s.regs.set 2 (s.regs[2] ||| 0x01#8) } ∧
    applySubStep (.setStatusBit 1) s = { s with regs := s.regs.set 2 (s.regs[2] ||| 0x02#8) } ∧
    applySubStep (.clrStatusBit 0) s = { s with regs := s.regs.set 2 (s.regs[2] &&& 0xFE#8) } ∧
    applySubStep (.clrStatusBit 1) s = { s with regs := s.regs.set 2 (s.regs[2] &&& 0xFD#8) }) ∧
  (∀ s : State, (nextBoundary s).rst = false → held s = true →
    ((nextBoundary s).busMoves = false ∨ takeBus (arrive (nextBoundary s) s) = none) →
    step s = .next (tickerSubStep (nextBoundary s).pick (arrive (nextBoundary s) s))) ∧
  ∀ (s t : State) (a : Reg), s.cfg.bgAtomic = false → (nextBoundary s).rst = false → step s = .next t →
    a ∈ ([3, 4, 5, 6] : List Reg) → getReg t a ≠ getReg s a →
    held s = true ∧ .intWrite a (getReg t a) ∈ s.bg.work

/-- R67 item 3: the sub-steps of lock() and of complete(), performed in any order with no bus event between them, end in the state
the atomic operation ends in, with the mutex free (released with the last one: log entry 7), whether or not the TICK that began
the operation still owes a completion check: MEASST is Idle then, so that check has nothing to do. -/
def Obligations.SubStepsInAnyOrderEqualTheAtomicOperation : Prop :=
  ∀ (s : State) (ops : List SubStep) (picks : List Nat),
    (ops = lockSubSteps ∨ ∃ temp humid, ops = completeSubSteps temp humid) → s.bg.work = ops →
    picks.length = ops.length →
    SameState (runTickerSubSteps picks s)
      { runSubSteps ops s with bg := { mutex := .free, work := [], mcDue := false } }

/-- R199: the mutex stays held until the last of the operation's sub-steps and is free after it, so every wait is bounded by
their number (release with the last sub-step: log entry 7). Where the TICK that began the operation still owes a completion
check, the operation is one that leaves MEASST Idle in any order, as lock() and complete() do and any rest of them. -/
def Obligations.TheMutexIsReleasedAfterTheLastSubStep : Prop :=
  ∀ (s : State) (picks : List Nat), held s = true → s.bg.work ≠ [] →
    (picks.length < s.bg.work.length → held (runTickerSubSteps picks s) = true) ∧
      (picks.length = s.bg.work.length →
        (s.bg.mcDue = true → .setMeasState .inProgress ∉ s.bg.work ∧
          (s.measst = .idle ∨ .setMeasState .idle ∈ s.bg.work)) →
        held (runTickerSubSteps picks s) = false)

/-- R67 item 5: with `BUS_DROP = false`, a data byte that calls start() or unlock() has no step while the mutex is held, and a
step in which it is BUS's turn performs the Ticker's sub-step and keeps the word waiting (log entries 6, 8). -/
def Obligations.BusCallsAreHeldWhileTheMutexIsHeld : Prop :=
  ∀ (s : State) (d : Byte), held s = true → s.cfg.busDrop = false →
    InvokesUnlock (.wbyte d) s ∨ InvokesStart (.wbyte d) s →
    exec (.wbyte d) s = .fault .mutexHeld ∧
      ∀ (w : EventWord) (rest : List EventWord) (b : Boundary) (bs : List Boundary), decode w = .wbyte d →
        s.initError = none → s.ports.busQ = w :: rest → s.ports.env = b :: bs → b.rst = false → b.busMoves = true →
        step s = .next (tickerSubStep b.pick (arrive b s)) ∧
          (tickerSubStep b.pick (arrive b s)).ports.busQ =
            w :: rest ++ busSends (phaseAfterWords s.phase (w :: rest)) b.bus

/-- R75: this hardware drops nothing, and with `BUS_DROP = false` a call that finds the mutex held is held (it has no step); with
`BUS_DROP = true` it either is held, or the byte is stored and AP advances but the call is dropped with diagnostic 5; which, is a free choice. -/
def Obligations.BusDropHoldsOrDropsTheCall : Prop :=
  Config.hardware.busDrop = false ∧
  ∀ (s : State) (d : Byte), held s = true → InvokesUnlock (.wbyte d) s ∨ InvokesStart (.wbyte d) s →
    (s.cfg.busDrop = false → ∀ t, exec (.wbyte d) s ≠ .next t) ∧
    (s.cfg.busDrop = true →
      (∀ t, exec (.wbyte d) s ≠ .next t) ∨
        Yields (exec (.wbyte d) s) { s with regs := s.regs.set s.ap d, ap := s.ap + 1 } none .sideEffectDropped)

/-- R67 items 4, 6: a bus event that calls neither start() nor unlock() takes its step between two sub-steps (what arrives
meanwhile: log entry 6). -/
def Obligations.PlainBusEventsRunBetweenSubSteps : Prop :=
  ∀ (s : State) (w : EventWord) (rest : List EventWord) (b : Boundary) (bs : List Boundary),
    held s = true → s.initError = none → s.ports.busQ = w :: rest → s.ports.env = b :: bs → b.rst = false →
    b.busMoves = true → decode w ≠ .tick → decode w ≠ .chkto → decode w ≠ .chkmc →
    ¬InvokesUnlock (decode w) s → ¬InvokesStart (decode w) s →
    ∃ t,
      exec (decode w)
          { s with
            ports :=
              { busQ := rest ++ busSends (phaseAfterWords s.phase (w :: rest)) b.bus
                tmrQ := s.ports.tmrQ ++ tickerSends s.cfg.tickerMode b.tmr
                env := bs } } = .next t ∧
        step s = .next t ∧ t.bg = s.bg

/-! ## Steps, channels, reset -/

/-- A step runs the decoded event: with no reset asserted and no background operation under way, the word the arbiter takes is
decoded and executed; with no word waiting, the idle encoding NOP is (log entry 5). -/
def Obligations.StepRunsTheDecodedEvent : Prop :=
  ∀ s : State, (nextBoundary s).rst = false → held s = false →
    (∀ (w : EventWord) (u : State) (i : Instr), fetchEvent (arrive (nextBoundary s) s) = some (w, u) → decode w = i →
      step s = exec i u) ∧
    (fetchEvent (arrive (nextBoundary s) s) = none → step s = exec .nop (arrive (nextBoundary s) s))

/-- A word placed by `withFetchWord` is the event the next step runs, in the very state it was placed in, also while a background
operation is under way if the event has a step then and the block is registered (log entry 12). -/
def Obligations.APlacedWordRunsNext : Prop :=
  ∀ (s : State) (n w : Nat),
    (held s = false → step (s.withFetchWord n w) = exec (decode (BitVec.ofNat 16 w)) s) ∧
    (held s = true → s.initError = none → exec (decode (BitVec.ofNat 16 w)) s ≠ .fault .mutexHeld →
      step (s.withFetchWord n w) = exec (decode (BitVec.ofNat 16 w)) s)

/-- R77 (decision D16), R69: of two waiting words the arbiter takes the bus channel's, and of each channel the first. What arrives
joins its channel behind the words that wait. That this is those of the words on offer that their agent may send (R245, R246),
the others being passed over, is the model's choice (DESIGN CHOICE, log entry 6). -/
def Obligations.TheArbiterTakesTheBusFirst : Prop :=
  ∀ (s : State) (w : EventWord) (rest : List EventWord),
    (s.initError = none → s.ports.busQ = w :: rest →
      fetchEvent s = some (w, { s with ports := { s.ports with busQ := rest } })) ∧
    (s.initError = none → s.ports.busQ = [] → s.ports.tmrQ = w :: rest →
      fetchEvent s = some (w, { s with ports := { s.ports with tmrQ := rest } })) ∧
    (∀ b : Boundary,
      (arrive b s).ports.busQ = s.ports.busQ ++ busSends (phaseAfterWords s.phase s.ports.busQ) b.bus ∧
        (arrive b s).ports.tmrQ = s.ports.tmrQ ++ tickerSends s.cfg.tickerMode b.tmr)

/-- R245, R246: no move of an agent breaks a duty. Every step, a reset included, keeps the traffic conforming; and in conforming
traffic the event that a step takes is one its agent may send then: from BUS no timer kind, no reserved word and no write-byte
in Idle, from TICKER no bus kind and, in periodic mode, no separate check. -/
def Obligations.EveryStepKeepsTheTrafficConforming : Prop :=
  Conforming State.reset ∧ (∀ s t : State, Conforming s → step s = .next t → Conforming t) ∧
    ∀ (s u : State) (w : EventWord) (i : Instr), Conforming s →
      fetchEvent (arrive (nextBoundary s) s) = some (w, u) → decode w = i →
      (busMay s.phase i = true ∧ u.ports.tmrQ = (arrive (nextBoundary s) s).ports.tmrQ) ∨
        (tickerMay s.cfg.tickerMode i = true ∧ u.ports.busQ = (arrive (nextBoundary s) s).ports.busQ)

/-- R243: a reset whose registration fails reports a nonzero code; a block whose registration failed takes no bus event; and it
keeps its registers: it is Locked and Idle with the mutex free, in which no event of its Ticker, and no step, changes a register,
LOCKST, MEASST or the mutex (that it goes on to perform timer words: log entry 10). -/
def Obligations.AFailedBlockReceivesNoBusEvents : Prop :=
  (∀ s : State, (∃ c, c ≠ 0 ∧ (resetBlock false s).initError = some c) ∧ (resetBlock true s).initError = none) ∧
  (∀ s t : State, s.initError.isSome = true → (nextBoundary s).rst = false → step s = .next t →
    t.ports.busQ = (arrive (nextBoundary s) s).ports.busQ ∧ t.initError = s.initError) ∧
  (∀ (i : Instr) (s t : State), i = .tick ∨ i = .chkto ∨ i = .chkmc → s.lockst = .locked → s.measst = .idle →
    exec i s = .next t → t.regs = s.regs ∧ t.lockst = .locked ∧ t.measst = .idle) ∧
  (∀ s t : State, s.initError.isSome = true → s.lockst = .locked → s.measst = .idle → held s = false →
    tickerSends s.cfg.tickerMode s.ports.tmrQ = s.ports.tmrQ → (nextBoundary s).rst = false → step s = .next t →
    t.regs = s.regs ∧ t.lockst = .locked ∧ t.measst = .idle ∧ held t = false)

/-- R54: the reset value of every state element; the session code is a draw, of which nothing is said. -/
def Obligations.ResetValues : Prop :=
  ∃ c : Byte,
    State.reset.regs = #v[0x42#8, 0x00#8, 0x02#8, 0xFF#8, 0xFF#8, 0xFF#8, 0xFF#8, 0x00#8, 0x00#8, c, 0x00#8, 0x01#8] ∧
      State.reset.ap = 0 ∧ State.reset.phase = .idle ∧ State.reset.lockst = .locked ∧ State.reset.tUnlock = 0 ∧
      State.reset.measst = .idle ∧ State.reset.tStart = 0 ∧ State.reset.bg.mutex = .free ∧ State.reset.now = 0 ∧
      State.reset.lastTo = 0 ∧ State.reset.lastMc = 0

/-- R240 (decision D35): a reset asserted at an event boundary puts every state element in its reset value, in every mode. -/
def Obligations.AssertedResetPutsEveryElementInItsResetValue : Prop :=
  ∀ s : State, (nextBoundary s).rst = true → held s = false →
    ∃ (c : Byte) (t : State), step s = .next t ∧
      t.regs = #v[0x42#8, 0x00#8, 0x02#8, 0xFF#8, 0xFF#8, 0xFF#8, 0xFF#8, 0x00#8, 0x00#8, c, 0x00#8, 0x01#8] ∧
      t.ap = 0 ∧ t.phase = .idle ∧ t.lockst = .locked ∧ t.tUnlock = 0 ∧ t.measst = .idle ∧ t.tStart = 0 ∧ t.now = 0 ∧
      t.bg.mutex = .free ∧ t.lastTo = 0 ∧ t.lastMc = 0

/-- No step changes the mode switches (log entry 2), and in this hardware's setting every event and every step answers a next
state: the block "raises no exception, trap or fault" (60_exceptions.md section 1). Outside it, the stops are the two named
ones, each under its own condition (log entry 8). -/
def Obligations.ThisHardwareNeverStops : Prop :=
  (∀ s t : State, step s = .next t → t.cfg = s.cfg) ∧
  (∀ s : State, s.cfg = Config.hardware → (∀ i, ∃ t, exec i s = .next t) ∧ ∃ t, step s = .next t) ∧
  (∀ (i : Instr) (s : State),
    (∃ t, exec i s = .next t) ∨ (exec i s = .fault .mutexHeld ∧ held s = true) ∨
      (exec i s = .fault .tickNotEnabled ∧ i = .tick ∧ s.cfg.tickerMode = .free ∧ tickEnabled s = false))
end

