-- ==== Sys2Proof/Laws/State.lean ====
section
/-! SUPPORT. What each named update does to each field of State, by definition, and what it leaves to a register read. -/

namespace Sys2Proof.Machine

variable (s : State)

@[simp] theorem setReg_regs (a : Reg) (v : Byte) : (setReg a v s).regs = s.regs.set a v := rfl
@[simp] theorem setReg_ap (a : Reg) (v : Byte) : (setReg a v s).ap = s.ap := rfl
@[simp] theorem setReg_phase (a : Reg) (v : Byte) : (setReg a v s).phase = s.phase := rfl
@[simp] theorem setReg_lockst (a : Reg) (v : Byte) : (setReg a v s).lockst = s.lockst := rfl
@[simp] theorem setReg_tUnlock (a : Reg) (v : Byte) : (setReg a v s).tUnlock = s.tUnlock := rfl
@[simp] theorem setReg_measst (a : Reg) (v : Byte) : (setReg a v s).measst = s.measst := rfl
@[simp] theorem setReg_tStart (a : Reg) (v : Byte) : (setReg a v s).tStart = s.tStart := rfl
@[simp] theorem setReg_now (a : Reg) (v : Byte) : (setReg a v s).now = s.now := rfl
@[simp] theorem setReg_lastTo (a : Reg) (v : Byte) : (setReg a v s).lastTo = s.lastTo := rfl
@[simp] theorem setReg_lastMc (a : Reg) (v : Byte) : (setReg a v s).lastMc = s.lastMc := rfl
@[simp] theorem setReg_bg (a : Reg) (v : Byte) : (setReg a v s).bg = s.bg := rfl
@[simp] theorem setReg_out (a : Reg) (v : Byte) : (setReg a v s).out = s.out := rfl
@[simp] theorem setReg_initError (a : Reg) (v : Byte) : (setReg a v s).initError = s.initError := rfl
@[simp] theorem setReg_cfg (a : Reg) (v : Byte) : (setReg a v s).cfg = s.cfg := rfl
@[simp] theorem setReg_ports (a : Reg) (v : Byte) : (setReg a v s).ports = s.ports := rfl
@[simp] theorem setReg_freeIx (a : Reg) (v : Byte) : (setReg a v s).freeIx = s.freeIx := rfl

@[simp] theorem emitDiag_regs (c : Diag) : (emitDiag c s).regs = s.regs := rfl
@[simp] theorem emitDiag_ap (c : Diag) : (emitDiag c s).ap = s.ap := rfl
@[simp] theorem emitDiag_phase (c : Diag) : (emitDiag c s).phase = s.phase := rfl
@[simp] theorem emitDiag_lockst (c : Diag) : (emitDiag c s).lockst = s.lockst := rfl
@[simp] theorem emitDiag_tUnlock (c : Diag) : (emitDiag c s).tUnlock = s.tUnlock := rfl
@[simp] theorem emitDiag_measst (c : Diag) : (emitDiag c s).measst = s.measst := rfl
@[simp] theorem emitDiag_tStart (c : Diag) : (emitDiag c s).tStart = s.tStart := rfl
@[simp] theorem emitDiag_now (c : Diag) : (emitDiag c s).now = s.now := rfl
@[simp] theorem emitDiag_lastTo (c : Diag) : (emitDiag c s).lastTo = s.lastTo := rfl
@[simp] theorem emitDiag_lastMc (c : Diag) : (emitDiag c s).lastMc = s.lastMc := rfl
@[simp] theorem emitDiag_bg (c : Diag) : (emitDiag c s).bg = s.bg := rfl
@[simp] theorem emitDiag_out (c : Diag) : (emitDiag c s).out = { s.out with diag := c } := rfl
@[simp] theorem emitDiag_initError (c : Diag) : (emitDiag c s).initError = s.initError := rfl
@[simp] theorem emitDiag_cfg (c : Diag) : (emitDiag c s).cfg = s.cfg := rfl
@[simp] theorem emitDiag_ports (c : Diag) : (emitDiag c s).ports = s.ports := rfl
@[simp] theorem emitDiag_freeIx (c : Diag) : (emitDiag c s).freeIx = s.freeIx := rfl

@[simp] theorem advance_regs : (advance s).regs = s.regs := rfl
@[simp] theorem advance_ap : (advance s).ap = s.ap + 1 := rfl
@[simp] theorem advance_phase : (advance s).phase = s.phase := rfl
@[simp] theorem advance_lockst : (advance s).lockst = s.lockst := rfl
@[simp] theorem advance_tUnlock : (advance s).tUnlock = s.tUnlock := rfl
@[simp] theorem advance_measst : (advance s).measst = s.measst := rfl
@[simp] theorem advance_tStart : (advance s).tStart = s.tStart := rfl
@[simp] theorem advance_now : (advance s).now = s.now := rfl
@[simp] theorem advance_lastTo : (advance s).lastTo = s.lastTo := rfl
@[simp] theorem advance_lastMc : (advance s).lastMc = s.lastMc := rfl
@[simp] theorem advance_bg : (advance s).bg = s.bg := rfl
@[simp] theorem advance_out : (advance s).out = s.out := rfl
@[simp] theorem advance_initError : (advance s).initError = s.initError := rfl
@[simp] theorem advance_cfg : (advance s).cfg = s.cfg := rfl
@[simp] theorem advance_ports : (advance s).ports = s.ports := rfl
@[simp] theorem advance_freeIx : (advance s).freeIx = s.freeIx := rfl

@[simp] theorem setAddress_regs (b : Byte) : (setAddress b s).regs = s.regs := rfl
@[simp] theorem setAddress_ap (b : Byte) : (setAddress b s).ap = addressOf b := rfl
@[simp] theorem setAddress_phase (b : Byte) : (setAddress b s).phase = s.phase := rfl
@[simp] theorem setAddress_lockst (b : Byte) : (setAddress b s).lockst = s.lockst := rfl
@[simp] theorem setAddress_tUnlock (b : Byte) : (setAddress b s).tUnlock = s.tUnlock := rfl
@[simp] theorem setAddress_measst (b : Byte) : (setAddress b s).measst = s.measst := rfl
@[simp] theorem setAddress_tStart (b : Byte) : (setAddress b s).tStart = s.tStart := rfl
@[simp] theorem setAddress_now (b : Byte) : (setAddress b s).now = s.now := rfl
@[simp] theorem setAddress_lastTo (b : Byte) : (setAddress b s).lastTo = s.lastTo := rfl
@[simp] theorem setAddress_lastMc (b : Byte) : (setAddress b s).lastMc = s.lastMc := rfl
@[simp] theorem setAddress_bg (b : Byte) : (setAddress b s).bg = s.bg := rfl
@[simp] theorem setAddress_out (b : Byte) : (setAddress b s).out = s.out := rfl
@[simp] theorem setAddress_initError (b : Byte) : (setAddress b s).initError = s.initError := rfl
@[simp] theorem setAddress_cfg (b : Byte) : (setAddress b s).cfg = s.cfg := rfl
@[simp] theorem setAddress_ports (b : Byte) : (setAddress b s).ports = s.ports := rfl
@[simp] theorem setAddress_freeIx (b : Byte) : (setAddress b s).freeIx = s.freeIx := rfl

@[simp] theorem setPhase_regs (p : Phase) : (setPhase p s).regs = s.regs := rfl
@[simp] theorem setPhase_ap (p : Phase) : (setPhase p s).ap = s.ap := rfl
@[simp] theorem setPhase_phase (p : Phase) : (setPhase p s).phase = p := rfl
@[simp] theorem setPhase_lockst (p : Phase) : (setPhase p s).lockst = s.lockst := rfl
@[simp] theorem setPhase_tUnlock (p : Phase) : (setPhase p s).tUnlock = s.tUnlock := rfl
@[simp] theorem setPhase_measst (p : Phase) : (setPhase p s).measst = s.measst := rfl
@[simp] theorem setPhase_tStart (p : Phase) : (setPhase p s).tStart = s.tStart := rfl
@[simp] theorem setPhase_now (p : Phase) : (setPhase p s).now = s.now := rfl
@[simp] theorem setPhase_lastTo (p : Phase) : (setPhase p s).lastTo = s.lastTo := rfl
@[simp] theorem setPhase_lastMc (p : Phase) : (setPhase p s).lastMc = s.lastMc := rfl
@[simp] theorem setPhase_bg (p : Phase) : (setPhase p s).bg = s.bg := rfl
@[simp] theorem setPhase_out (p : Phase) : (setPhase p s).out = s.out := rfl
@[simp] theorem setPhase_initError (p : Phase) : (setPhase p s).initError = s.initError := rfl
@[simp] theorem setPhase_cfg (p : Phase) : (setPhase p s).cfg = s.cfg := rfl
@[simp] theorem setPhase_ports (p : Phase) : (setPhase p s).ports = s.ports := rfl
@[simp] theorem setPhase_freeIx (p : Phase) : (setPhase p s).freeIx = s.freeIx := rfl

@[simp] theorem respond_regs (b : Byte) : (respond b s).regs = s.regs := rfl
@[simp] theorem respond_ap (b : Byte) : (respond b s).ap = s.ap := rfl
@[simp] theorem respond_phase (b : Byte) : (respond b s).phase = s.phase := rfl
@[simp] theorem respond_lockst (b : Byte) : (respond b s).lockst = s.lockst := rfl
@[simp] theorem respond_tUnlock (b : Byte) : (respond b s).tUnlock = s.tUnlock := rfl
@[simp] theorem respond_measst (b : Byte) : (respond b s).measst = s.measst := rfl
@[simp] theorem respond_tStart (b : Byte) : (respond b s).tStart = s.tStart := rfl
@[simp] theorem respond_now (b : Byte) : (respond b s).now = s.now := rfl
@[simp] theorem respond_lastTo (b : Byte) : (respond b s).lastTo = s.lastTo := rfl
@[simp] theorem respond_lastMc (b : Byte) : (respond b s).lastMc = s.lastMc := rfl
@[simp] theorem respond_bg (b : Byte) : (respond b s).bg = s.bg := rfl
@[simp] theorem respond_out (b : Byte) : (respond b s).out = { s.out with rspValid := true, rspData := b } := rfl
@[simp] theorem respond_initError (b : Byte) : (respond b s).initError = s.initError := rfl
@[simp] theorem respond_cfg (b : Byte) : (respond b s).cfg = s.cfg := rfl
@[simp] theorem respond_ports (b : Byte) : (respond b s).ports = s.ports := rfl
@[simp] theorem respond_freeIx (b : Byte) : (respond b s).freeIx = s.freeIx := rfl

@[simp] theorem beginEvent_regs : (beginEvent s).regs = s.regs := rfl
@[simp] theorem beginEvent_ap : (beginEvent s).ap = s.ap := rfl
@[simp] theorem beginEvent_phase : (beginEvent s).phase = s.phase := rfl
@[simp] theorem beginEvent_lockst : (beginEvent s).lockst = s.lockst := rfl
@[simp] theorem beginEvent_tUnlock : (beginEvent s).tUnlock = s.tUnlock := rfl
@[simp] theorem beginEvent_measst : (beginEvent s).measst = s.measst := rfl
@[simp] theorem beginEvent_tStart : (beginEvent s).tStart = s.tStart := rfl
@[simp] theorem beginEvent_now : (beginEvent s).now = s.now := rfl
@[simp] theorem beginEvent_lastTo : (beginEvent s).lastTo = s.lastTo := rfl
@[simp] theorem beginEvent_lastMc : (beginEvent s).lastMc = s.lastMc := rfl
@[simp] theorem beginEvent_bg : (beginEvent s).bg = s.bg := rfl
@[simp] theorem beginEvent_out : (beginEvent s).out = { rspValid := false, rspData := Config.undefinedRspData s.freeIx, diag := .noDiag } := rfl
@[simp] theorem beginEvent_initError : (beginEvent s).initError = s.initError := rfl
@[simp] theorem beginEvent_cfg : (beginEvent s).cfg = s.cfg := rfl
@[simp] theorem beginEvent_ports : (beginEvent s).ports = s.ports := rfl
@[simp] theorem beginEvent_freeIx : (beginEvent s).freeIx = s.freeIx + 1 := rfl

@[simp] theorem advanceTime_regs : (advanceTime s).regs = s.regs := rfl
@[simp] theorem advanceTime_ap : (advanceTime s).ap = s.ap := rfl
@[simp] theorem advanceTime_phase : (advanceTime s).phase = s.phase := rfl
@[simp] theorem advanceTime_lockst : (advanceTime s).lockst = s.lockst := rfl
@[simp] theorem advanceTime_tUnlock : (advanceTime s).tUnlock = s.tUnlock := rfl
@[simp] theorem advanceTime_measst : (advanceTime s).measst = s.measst := rfl
@[simp] theorem advanceTime_tStart : (advanceTime s).tStart = s.tStart := rfl
@[simp] theorem advanceTime_now : (advanceTime s).now = s.now + 1 := rfl
@[simp] theorem advanceTime_lastTo : (advanceTime s).lastTo = s.lastTo := rfl
@[simp] theorem advanceTime_lastMc : (advanceTime s).lastMc = s.lastMc := rfl
@[simp] theorem advanceTime_bg : (advanceTime s).bg = s.bg := rfl
@[simp] theorem advanceTime_out : (advanceTime s).out = s.out := rfl
@[simp] theorem advanceTime_initError : (advanceTime s).initError = s.initError := rfl
@[simp] theorem advanceTime_cfg : (advanceTime s).cfg = s.cfg := rfl
@[simp] theorem advanceTime_ports : (advanceTime s).ports = s.ports := rfl
@[simp] theorem advanceTime_freeIx : (advanceTime s).freeIx = s.freeIx := rfl

@[simp] theorem setStatusBit_regs (i : Fin 2) : (setStatusBit i s).regs = s.regs.set Reg.status (getReg s Reg.status ||| (1#8 <<< i.val)) := rfl
@[simp] theorem setStatusBit_ap (i : Fin 2) : (setStatusBit i s).ap = s.ap := rfl
@[simp] theorem setStatusBit_phase (i : Fin 2) : (setStatusBit i s).phase = s.phase := rfl
@[simp] theorem setStatusBit_lockst (i : Fin 2) : (setStatusBit i s).lockst = s.lockst := rfl
@[simp] theorem setStatusBit_tUnlock (i : Fin 2) : (setStatusBit i s).tUnlock = s.tUnlock := rfl
@[simp] theorem setStatusBit_measst (i : Fin 2) : (setStatusBit i s).measst = s.measst := rfl
@[simp] theorem setStatusBit_tStart (i : Fin 2) : (setStatusBit i s).tStart = s.tStart := rfl
@[simp] theorem setStatusBit_now (i : Fin 2) : (setStatusBit i s).now = s.now := rfl
@[simp] theorem setStatusBit_lastTo (i : Fin 2) : (setStatusBit i s).lastTo = s.lastTo := rfl
@[simp] theorem setStatusBit_lastMc (i : Fin 2) : (setStatusBit i s).lastMc = s.lastMc := rfl
@[simp] theorem setStatusBit_bg (i : Fin 2) : (setStatusBit i s).bg = s.bg := rfl
@[simp] theorem setStatusBit_out (i : Fin 2) : (setStatusBit i s).out = s.out := rfl
@[simp] theorem setStatusBit_initError (i : Fin 2) : (setStatusBit i s).initError = s.initError := rfl
@[simp] theorem setStatusBit_cfg (i : Fin 2) : (setStatusBit i s).cfg = s.cfg := rfl
@[simp] theorem setStatusBit_ports (i : Fin 2) : (setStatusBit i s).ports = s.ports := rfl
@[simp] theorem setStatusBit_freeIx (i : Fin 2) : (setStatusBit i s).freeIx = s.freeIx := rfl

@[simp] theorem clrStatusBit_regs (i : Fin 2) : (clrStatusBit i s).regs = s.regs.set Reg.status (getReg s Reg.status &&& ~~~(1#8 <<< i.val)) := rfl
@[simp] theorem clrStatusBit_ap (i : Fin 2) : (clrStatusBit i s).ap = s.ap := rfl
@[simp] theorem clrStatusBit_phase (i : Fin 2) : (clrStatusBit i s).phase = s.phase := rfl
@[simp] theorem clrStatusBit_lockst (i : Fin 2) : (clrStatusBit i s).lockst = s.lockst := rfl
@[simp] theorem clrStatusBit_tUnlock (i : Fin 2) : (clrStatusBit i s).tUnlock = s.tUnlock := rfl
@[simp] theorem clrStatusBit_measst (i : Fin 2) : (clrStatusBit i s).measst = s.measst := rfl
@[simp] theorem clrStatusBit_tStart (i : Fin 2) : (clrStatusBit i s).tStart = s.tStart := rfl
@[simp] theorem clrStatusBit_now (i : Fin 2) : (clrStatusBit i s).now = s.now := rfl
@[simp] theorem clrStatusBit_lastTo (i : Fin 2) : (clrStatusBit i s).lastTo = s.lastTo := rfl
@[simp] theorem clrStatusBit_lastMc (i : Fin 2) : (clrStatusBit i s).lastMc = s.lastMc := rfl
@[simp] theorem clrStatusBit_bg (i : Fin 2) : (clrStatusBit i s).bg = s.bg := rfl
@[simp] theorem clrStatusBit_out (i : Fin 2) : (clrStatusBit i s).out = s.out := rfl
@[simp] theorem clrStatusBit_initError (i : Fin 2) : (clrStatusBit i s).initError = s.initError := rfl
@[simp] theorem clrStatusBit_cfg (i : Fin 2) : (clrStatusBit i s).cfg = s.cfg := rfl
@[simp] theorem clrStatusBit_ports (i : Fin 2) : (clrStatusBit i s).ports = s.ports := rfl
@[simp] theorem clrStatusBit_freeIx (i : Fin 2) : (clrStatusBit i s).freeIx = s.freeIx := rfl

@[simp] theorem unlock_regs : (unlock s).regs = (s.regs.set Reg.status (getReg s Reg.status &&& ~~~(1#8 <<< (1 : Fin 2).val))).set Reg.lockStatus 0x00#8 := rfl
@[simp] theorem unlock_ap : (unlock s).ap = s.ap := rfl
@[simp] theorem unlock_phase : (unlock s).phase = s.phase := rfl
@[simp] theorem unlock_lockst : (unlock s).lockst = .unlocked := rfl
@[simp] theorem unlock_tUnlock : (unlock s).tUnlock = s.now := rfl
@[simp] theorem unlock_measst : (unlock s).measst = s.measst := rfl
@[simp] theorem unlock_tStart : (unlock s).tStart = s.tStart := rfl
@[simp] theorem unlock_now : (unlock s).now = s.now := rfl
@[simp] theorem unlock_lastTo : (unlock s).lastTo = s.lastTo := rfl
@[simp] theorem unlock_lastMc : (unlock s).lastMc = s.lastMc := rfl
@[simp] theorem unlock_bg : (unlock s).bg = s.bg := rfl
@[simp] theorem unlock_out : (unlock s).out = s.out := rfl
@[simp] theorem unlock_initError : (unlock s).initError = s.initError := rfl
@[simp] theorem unlock_cfg : (unlock s).cfg = s.cfg := rfl
@[simp] theorem unlock_ports : (unlock s).ports = s.ports := rfl
@[simp] theorem unlock_freeIx : (unlock s).freeIx = s.freeIx := rfl

theorem getReg_eq (a : Reg) : getReg s a = s.regs[a] := rfl

@[simp] theorem getReg_setReg (a b : Reg) (v : Byte) :
    getReg (setReg a v s) b = if a = b then v else getReg s b := by
  unfold getReg setReg
  by_cases h : a = b
  · subst h; simp
  · simp [h, Fin.val_ne_of_ne h]

/-- A register read depends on the register file alone. -/
theorem getReg_congr {s t : State} (h : t.regs = s.regs) (a : Reg) : getReg t a = getReg s a := by
  unfold getReg; rw [h]

@[simp] theorem getReg_emitDiag (c : Diag) (r : Reg) : getReg (emitDiag c s) r = getReg s r := rfl
@[simp] theorem getReg_advance (r : Reg) : getReg (advance s) r = getReg s r := rfl
@[simp] theorem getReg_setAddress (b : Byte) (r : Reg) : getReg (setAddress b s) r = getReg s r := rfl
@[simp] theorem getReg_setPhase (p : Phase) (r : Reg) : getReg (setPhase p s) r = getReg s r := rfl
@[simp] theorem getReg_respond (b : Byte) (r : Reg) : getReg (respond b s) r = getReg s r := rfl
@[simp] theorem getReg_beginEvent (r : Reg) : getReg (beginEvent s) r = getReg s r := rfl
@[simp] theorem getReg_advanceTime (r : Reg) : getReg (advanceTime s) r = getReg s r := rfl

@[simp] theorem getReg_setStatusBit (i : Fin 2) (r : Reg) :
    getReg (setStatusBit i s) r = if Reg.status = r then getReg s Reg.status ||| (1#8 <<< i.val) else getReg s r :=
  getReg_setReg s Reg.status r _

@[simp] theorem getReg_clrStatusBit (i : Fin 2) (r : Reg) :
    getReg (clrStatusBit i s) r = if Reg.status = r then getReg s Reg.status &&& ~~~(1#8 <<< i.val) else getReg s r :=
  getReg_setReg s Reg.status r _

@[simp] theorem held_beginEvent : held (beginEvent s) = held s := rfl
@[simp] theorem held_advanceTime : held (advanceTime s) = held s := rfl

/-- Atomic mode never sees the mutex held. -/
theorem held_of_atomic {s : State} (h : s.cfg.bgAtomic = true) : held s = false := by
  simp [held, h]

end Sys2Proof.Machine
end

