-- ==== Sys2Proof/Laws/Ops.lean ====
section
/-! SUPPORT. For each shared operation, once, everything it can do. -/

namespace Sys2Proof.Machine

open Sys2Proof.Safety

variable {s t : State}

/-! ### Registers and pointer -/

/-- The mask of R22 lists the eight read-only addresses. -/
theorem isReadOnly_iff (a : Reg) : isReadOnly a = true ↔ a ∈ ([0, 2, 3, 4, 5, 6, 9, 11] : List Reg) := by
  revert a; decide

theorem busWrite_readOnly {a : Reg} (v : Byte) (h : isReadOnly a = true) :
    busWrite a v s = (.rejected, emitDiag .roWrite s) := by simp [busWrite, h]

theorem busWrite_writable {a : Reg} (v : Byte) (h : isReadOnly a = false) :
    busWrite a v s = (.stored, setReg a v s) := by simp [busWrite, h]

theorem advance_ap_val : (advance s).ap.val = (s.ap.val + 1) % 12 := by
  simp [Fin.val_add]

theorem addressOf_val (b : Byte) : (addressOf b).val = b.toNat % 12 := rfl

/-! ### Draws -/

theorem drawTemp_inRange (n : Nat) : TempInRange (drawTemp n) := by
  have h := (Config.tempDraw n).isLt
  simp only [drawTemp, TempInRange, BitVec.toNat_ofNat, Config.tempMin, Config.tempMax] at *
  omega

theorem drawHumid_inRange (n : Nat) : HumidInRange (drawHumid n) := by
  have h := (Config.humidDraw n).isLt
  simp only [drawHumid, HumidInRange, BitVec.toNat_ofNat, Config.humidMin, Config.humidMax] at *
  omega

/-! ### Sub-steps and background operations -/

/-- A sub-step touches the register file, LOCKST and MEASST only. -/
theorem applySubStep_keeps (u : SubStep) (s : State) :
    applySubStep u s =
      { s with
        regs := (applySubStep u s).regs
        lockst := (applySubStep u s).lockst
        measst := (applySubStep u s).measst } := by
  cases u <;> rfl

theorem runSubSteps_nil : runSubSteps [] s = s := rfl

theorem runSubSteps_cons (u : SubStep) (ops : List SubStep) :
    runSubSteps (u :: ops) s = runSubSteps ops (applySubStep u s) := rfl

/-- A run of sub-steps touches the register file, LOCKST and MEASST only. -/
theorem runSubSteps_keeps (ops : List SubStep) (s : State) :
    runSubSteps ops s =
      { s with
        regs := (runSubSteps ops s).regs
        lockst := (runSubSteps ops s).lockst
        measst := (runSubSteps ops s).measst } := by
  induction ops generalizing s with
  | nil => rfl
  | cons u ops ih =>
    rw [runSubSteps_cons, ih, applySubStep_keeps]

theorem startBackground_atomic (ops : List SubStep) (h : s.cfg.bgAtomic = true) :
    startBackground ops s = runSubSteps ops s := by simp [startBackground, h]

theorem startBackground_torn (ops : List SubStep) (h : s.cfg.bgAtomic = false) :
    startBackground ops s = { s with bg := { s.bg with mutex := .heldByTicker, work := ops } } := by
  simp [startBackground, h]

/-! ### The controllers -/

theorem lock_lockst : (lock s).lockst = .locked := rfl
theorem lock_measst : (lock s).measst = .idle := rfl

theorem timeoutFires_iff : timeoutFires s = true ↔ RelockDueAt s.now s := by
  simp [timeoutFires, RelockDueAt]

theorem completeFires_iff : completeFires s = true ↔ CompletionDueAt s.now s := by
  simp [completeFires, CompletionDueAt]

/-- checkTimeout begins lock() or does nothing (R152). -/
theorem checkTimeout_cases (s : State) :
    (RelockDueAt s.now s ∧ checkTimeout s = startBackground lockSubSteps s) ∨
      (¬RelockDueAt s.now s ∧ checkTimeout s = s) := by
  by_cases h : timeoutFires s = true
  · exact .inl ⟨timeoutFires_iff.1 h, by simp [checkTimeout, h]⟩
  · exact .inr ⟨fun k => h (timeoutFires_iff.2 k), by simp [checkTimeout, h]⟩

/-- checkComplete begins complete() with two draws in range or does nothing (R171, R172). -/
theorem checkComplete_cases (s : State) :
    (CompletionDueAt s.now s ∧ ∃ temp humid, TempInRange temp ∧ HumidInRange humid ∧
        checkComplete s = startBackground (completeSubSteps temp humid) { s with freeIx := s.freeIx + 1 }) ∨
      (¬CompletionDueAt s.now s ∧ checkComplete s = s) := by
  by_cases h : completeFires s = true
  · exact .inl ⟨completeFires_iff.1 h, drawTemp s.freeIx, drawHumid s.freeIx, drawTemp_inRange _,
      drawHumid_inRange _, by simp [checkComplete, h]⟩
  · exact .inr ⟨fun k => h (completeFires_iff.2 k), by simp [checkComplete, h]⟩

/-- start() is refused while Locked, refused while InProgress, or starts (R170). -/
theorem startMeasurement_cases (s : State) :
    (s.lockst = .locked ∧ startMeasurement s = emitDiag .startLocked s) ∨
      (s.lockst = .unlocked ∧ s.measst = .inProgress ∧ startMeasurement s = emitDiag .startBusy s) ∨
      (s.lockst = .unlocked ∧ s.measst = .idle ∧
        startMeasurement s = clrStatusBit 0 { s with measst := .inProgress, tStart := s.now }) := by
  unfold startMeasurement
  cases s.lockst <;> cases s.measst <;> simp

/-! ### Events -/

/-- A data byte: rejected, or stored with its side effect; it advances AP either way (R123, R125). -/
theorem wbyteData_cases (drop : Bool) (d : Byte) (s : State) :
    (isReadOnly s.ap = true ∧ wbyteData drop d s = advance (emitDiag .roWrite s)) ∨
      (isReadOnly s.ap = false ∧ wbyteData drop d s = advance (wbyteSideEffect drop s.ap d (setReg s.ap d s))) := by
  cases h : isReadOnly s.ap
  · exact .inr ⟨rfl, by simp [wbyteData, busWrite, h]⟩
  · exact .inl ⟨rfl, by simp [wbyteData, busWrite, h]⟩

/-- WBYTE answers a next state, unless it is a held call (20_memory.md R67 item 5). -/
theorem execWbyte_cases (d : Byte) (s : State) :
    (held s = true ∧ wbyteCalls d s = true ∧ execWbyte d s = .fault .mutexHeld) ∨
      (held s = true ∧ wbyteCalls d s = true ∧ s.cfg.busDrop = true ∧
        execWbyte d s = .next (wbyte true d (beginEvent s))) ∨
      ((held s && wbyteCalls d s) = false ∧ execWbyte d s = .next (wbyte false d (beginEvent s))) := by
  cases hb : (held s && wbyteCalls d s)
  · exact .inr (.inr ⟨rfl, by simp [execWbyte, hb]⟩)
  · have ⟨h, c⟩ : held s = true ∧ wbyteCalls d s = true := by simpa using hb
    cases k : (s.cfg.busDrop && Config.dropDraw s.freeIx)
    · exact .inl ⟨h, c, by simp only [execWbyte, hb, k]; rfl⟩
    · refine .inr (.inl ⟨h, c, ?_, by simp only [execWbyte, hb, k]; rfl⟩)
      simp at k; exact k.1

/-- TICK: outside torn mode's wait, periodic mode runs the due checks after advancing time, free mode only advances it
(44_ticker.md R190, R195, R196). -/
theorem execTick_cases (s : State) :
    (held s = true ∧ execTick s = .fault .mutexHeld) ∨
      (held s = false ∧ s.cfg.tickerMode = .periodic ∧
        execTick s = .next (scheduledChecks (advanceTime (beginEvent s)))) ∨
      (held s = false ∧ s.cfg.tickerMode = .free ∧ tickEnabled s = true ∧
        execTick s = .next (advanceTime (beginEvent s))) ∨
      (held s = false ∧ s.cfg.tickerMode = .free ∧ tickEnabled s = false ∧ execTick s = .fault .tickNotEnabled) := by
  unfold execTick
  cases held s <;> cases s.cfg.tickerMode <;> cases tickEnabled s <;> simp

theorem execChkto_cases (s : State) :
    (held s = true ∧ execChkto s = .fault .mutexHeld) ∨
      (held s = false ∧ execChkto s = .next (stampTimeoutCheck (checkTimeout (beginEvent s)))) := by
  unfold execChkto
  cases held s <;> simp

theorem execChkmc_cases (s : State) :
    (held s = true ∧ execChkmc s = .fault .mutexHeld) ∨
      (held s = false ∧ execChkmc s = .next (stampCompleteCheck (checkComplete (beginEvent s)))) := by
  unfold execChkmc
  cases held s <;> simp

/-! ### Channels -/

theorem phaseAfterWords_append (p : Phase) (xs ys : List EventWord) :
    phaseAfterWords p (xs ++ ys) = phaseAfterWords (phaseAfterWords p xs) ys := List.foldl_append

/-- What BUS sends of two offers is what it sends of the first, and then of the second. -/
theorem busSends_append (p : Phase) (xs ys : List EventWord) :
    busSends p (xs ++ ys) = busSends p xs ++ busSends (phaseAfterWords p (busSends p xs)) ys := by
  induction xs generalizing p with
  | nil => rfl
  | cons w xs ih =>
    rw [List.cons_append, busSends, busSends]
    split
    · rw [ih]; rfl
    · exact ih p

/-- All that BUS sends it may send. -/
theorem busSends_idem (p : Phase) (ws : List EventWord) : busSends p (busSends p ws) = busSends p ws := by
  induction ws generalizing p with
  | nil => rfl
  | cons w ws ih =>
    rw [busSends]
    split
    · rename_i h; rw [busSends, if_pos h, ih]
    · exact ih p

theorem busSends_length (p : Phase) (ws : List EventWord) : (busSends p ws).length ≤ ws.length := by
  induction ws generalizing p with
  | nil => exact Nat.le_refl _
  | cons w ws ih =>
    rw [busSends]
    split
    · exact Nat.succ_le_succ (ih _)
    · exact Nat.le_succ_of_le (ih p)

/-- The first of the words that BUS may send, and the rest, sent after it. -/
theorem busSends_cons {p : Phase} {w : EventWord} {ws : List EventWord} (h : busSends p (w :: ws) = w :: ws) :
    busMay p (decode w) = true ∧ busSends (phaseAfter (decode w) p) ws = ws := by
  rw [busSends] at h
  split at h
  · rename_i k; exact ⟨k, (List.cons.inj h).2⟩
  · have := busSends_length p ws
    rw [h] at this; exact absurd this (Nat.not_succ_le_self _)

theorem tickerSends_append (m : TickerMode) (xs ys : List EventWord) :
    tickerSends m (xs ++ ys) = tickerSends m xs ++ tickerSends m ys := List.filter_append ..

theorem tickerSends_idem (m : TickerMode) (ws : List EventWord) :
    tickerSends m (tickerSends m ws) = tickerSends m ws := by simp [tickerSends]

/-- Arrivals touch the channels only. -/
theorem arrive_keeps (b : Boundary) (s : State) : arrive b s = { s with ports := (arrive b s).ports } := rfl

/-- What arrives in conforming traffic is conforming (70_reset_and_hazards.md R245). -/
theorem arrive_conforming (b : Boundary) (h : Conforming s) : Conforming (arrive b s) := by
  constructor
  · show busSends s.phase (s.ports.busQ ++ _) = s.ports.busQ ++ _
    rw [busSends_append, h.1, busSends_idem]
  · show tickerSends s.cfg.tickerMode (s.ports.tmrQ ++ _) = s.ports.tmrQ ++ _
    rw [tickerSends_append, h.2, tickerSends_idem]

/-- After a reset and BUS's withdrawal the channels are conforming. -/
theorem withdrawCutOff_conforming (h : tickerSends s.cfg.tickerMode s.ports.tmrQ = s.ports.tmrQ) :
    Conforming (withdrawCutOff s) := ⟨busSends_idem _ _, h⟩

/-- What the arbiter takes is the head of a channel, the bus channel first (20_memory.md R69, R77). -/
theorem fetchEvent_cases (s : State) :
    (∃ w q, s.initError = none ∧ s.ports.busQ = w :: q ∧
        fetchEvent s = some (w, { s with ports := { s.ports with busQ := q } })) ∨
      ((s.initError.isSome = true ∨ s.ports.busQ = []) ∧ ∃ w q, s.ports.tmrQ = w :: q ∧
        fetchEvent s = some (w, { s with ports := { s.ports with tmrQ := q } })) ∨
      ((s.initError.isSome = true ∨ s.ports.busQ = []) ∧ s.ports.tmrQ = [] ∧ fetchEvent s = none) := by
  unfold fetchEvent takeBus takeTimer
  cases hi : s.initError <;> cases hb : s.ports.busQ <;> cases ht : s.ports.tmrQ <;> simp

end Sys2Proof.Machine
end

