-- ==== Sys2Proof/Laws/Events.lean ====
section
/-! SUPPORT. For each event, and for the operations it is built of, what a next state can be: which fields are kept, and
the few shapes the register file, LOCKST, MEASST and the stamps can take. -/

namespace Sys2Proof.Machine

open Sys2Proof.Safety

/-- Which data bytes call start() or unlock() (41_protocol_engine.md R126, R127). -/
theorem wbyteCalls_iff (d : Byte) (s : State) (hp : s.phase = .addressed) : wbyteCalls d s = true ↔ ((s.ap = 1 ∧
    d[0] = true) ∨ (s.ap = 10 ∧ d = getReg s 9)) := by
  simp [wbyteCalls, hp, startBit]

/-- An address byte (R122, R124). -/
theorem execWbyte_address (s : State) (d : Byte) (h : s.phase = .awaitingAddress ∨ s.phase = .idle) :
   execWbyte d s = .next (wbyteAddress d (beginEvent s)) := by
  have c : wbyteCalls d s = false := by rcases h with h | h <;> simp [wbyteCalls, h]
  rcases execWbyte_cases d s with ⟨_, c', _⟩ | ⟨_, c', _⟩ | ⟨_, e⟩
  · simp [c] at c'
  · simp [c] at c'
  · rw [e]; unfold wbyte; rcases h with h | h <;> simp [h]

/-- A data byte for a read-only register (R101, R125). -/
theorem execWbyte_readOnly (s : State) (d : Byte) (hp : s.phase = .addressed) (h : isReadOnly s.ap = true) :
   execWbyte d s = .next (advance (emitDiag .roWrite (beginEvent s))) := by
  have c : wbyteCalls d s = false := by
    have : ∀ a : Reg, isReadOnly a = true → a ≠ 1 ∧ a ≠ 10 := by decide
    simp [wbyteCalls, (this _ h).1, (this _ h).2]
  rcases execWbyte_cases d s with ⟨_, c', _⟩ | ⟨_, c', _⟩ | ⟨_, e⟩
  · simp [c] at c'
  · simp [c] at c'
  · rw [e]
    have : wbyte false d (beginEvent s) = wbyteData false d (beginEvent s) := by simp [wbyte, hp]
    rw [this]
    rcases wbyteData_cases false d (beginEvent s) with ⟨_, e⟩ | ⟨k, _⟩
    · rw [e]
    · simp [h] at k

/-- A data byte for a writable register whose call, if it makes one, is not held. -/
theorem execWbyte_writable (s : State) (d : Byte) (hp : s.phase = .addressed) (h : isReadOnly s.ap = false) (hc : (held s && wbyteCalls d s) = false) :
   execWbyte d s = .next (advance (wbyteSideEffect false s.ap d (setReg s.ap d (beginEvent s)))) := by
  rcases execWbyte_cases d s with ⟨a, c', _⟩ | ⟨a, c', _⟩ | ⟨_, e⟩
  · simp [a, c'] at hc
  · simp [a, c'] at hc
  · rw [e]
    have : wbyte false d (beginEvent s) = wbyteData false d (beginEvent s) := by simp [wbyte, hp]
    rw [this]
    rcases wbyteData_cases false d (beginEvent s) with ⟨k, _⟩ | ⟨k, e⟩
    · simp [h] at k
    · rw [e]; rfl

/-- The three shapes of a WBYTE that has a step; `drop` says that a call is dropped (20_memory.md R75). -/
theorem execWbyte_next (s t : State) (d : Byte) (ht : execWbyte d s = .next t) :
   (s.phase ≠ .addressed ∧ t = wbyteAddress d (beginEvent s)) ∨
   (s.phase = .addressed ∧ isReadOnly s.ap = true ∧ t = advance (emitDiag .roWrite (beginEvent s))) ∨
   (s.phase = .addressed ∧ isReadOnly s.ap = false ∧ ∃ drop, (drop = true ↔ (held s = true ∧
       wbyteCalls d s = true)) ∧ (held s = true → wbyteCalls d s = true → drop = true ∧ s.cfg.busDrop = true) ∧
      t = advance (wbyteSideEffect drop s.ap d (setReg s.ap d (beginEvent s)))) := by
  cases hp : s.phase
  · rw [execWbyte_address s d (.inr hp)] at ht; injection ht with ht; exact .inl ⟨by simp, ht.symm⟩
  · rw [execWbyte_address s d (.inl hp)] at ht; injection ht with ht; exact .inl ⟨by simp, ht.symm⟩
  · cases hr : isReadOnly s.ap
    · refine .inr (.inr ⟨rfl, rfl, ?_⟩)
      have w : ∀ drop, wbyte drop d (beginEvent s) = advance (wbyteSideEffect drop s.ap d (setReg s.ap d (beginEvent s))) := by
        intro drop
        have : wbyte drop d (beginEvent s) = wbyteData drop d (beginEvent s) := by simp [wbyte, hp]
        rw [this]
        rcases wbyteData_cases drop d (beginEvent s) with ⟨k, _⟩ | ⟨k, e⟩
        · simp [hr] at k
        · rw [e]; rfl
      rcases execWbyte_cases d s with ⟨_, _, e⟩ | ⟨a, b, c, e⟩ | ⟨a, e⟩
      · rw [e] at ht; simp at ht
      · rw [e] at ht; injection ht with ht
        exact ⟨true, by simp [a, b], fun _ _ => ⟨rfl, c⟩, by rw [← ht, w]⟩
      · rw [e] at ht; injection ht with ht
        refine ⟨false, ?_, ?_, by rw [← ht, w]⟩
        · simp; intro h; simpa [h] using a
        · intro h1 h2; simp [h1, h2] at a
    · rw [execWbyte_readOnly s d hp hr] at ht; injection ht with ht; exact .inr (.inl ⟨rfl, rfl, ht.symm⟩)

/-- The eight cases of a data byte's side effect (R126, R127, 43_measurement.md R170, 20_memory.md R75). -/
theorem sideEffect_cases (drop : Bool) (a : Reg) (d : Byte) (s : State) :
   (a = 1 ∧ d[0] = true ∧ drop = true ∧ wbyteSideEffect drop a d s = emitDiag .sideEffectDropped s) ∨
   (a = 1 ∧ d[0] = true ∧ drop = false ∧ s.lockst = .locked ∧ wbyteSideEffect drop a d s = emitDiag .startLocked s) ∨
   (a = 1 ∧ d[0] = true ∧ drop = false ∧ s.lockst = .unlocked ∧ s.measst = .inProgress ∧
       wbyteSideEffect drop a d s = emitDiag .startBusy s) ∨
   (a = 1 ∧ d[0] = true ∧ drop = false ∧ s.lockst = .unlocked ∧ s.measst = .idle ∧
       wbyteSideEffect drop a d s = clrStatusBit 0 { s with measst := .inProgress, tStart := s.now }) ∨
   (a = 10 ∧ d = getReg s 9 ∧ drop = true ∧ wbyteSideEffect drop a d s = emitDiag .sideEffectDropped s) ∨
   (a = 10 ∧ d = getReg s 9 ∧ drop = false ∧ wbyteSideEffect drop a d s = unlock s) ∨
   (a = 10 ∧ d ≠ getReg s 9 ∧ wbyteSideEffect drop a d s = emitDiag .codeMismatch s) ∨
   (((a = 1 ∧ d[0] = false) ∨ (a ≠ 1 ∧ a ≠ 10)) ∧ wbyteSideEffect drop a d s = s) := by
  unfold wbyteSideEffect
  by_cases h1 : a = 1
  · by_cases h2 : d[0] = true
    · cases drop
      · rcases startMeasurement_cases s with ⟨b, e⟩|⟨b,c,e⟩|⟨b,c,e⟩ <;> simp [h1, h2, startBit, b, e]
        · simp [c]
        · simp [c]
      · simp [h1, h2, startBit]
    · simp [h1, h2, startBit]
  · by_cases h3 : a = 10
    · by_cases h4 : d = getReg s 9
      · cases drop <;> simp [h3, h4]
      · simp [h3, h4]
    · simp [h1, h3]

/-- The fields no side effect touches. -/
theorem sideEffect_keeps (drop : Bool) (a : Reg) (d : Byte) (s : State) :
  let u := wbyteSideEffect drop a d s
  u.ap = s.ap ∧ u.phase = s.phase ∧ u.now = s.now ∧ u.lastTo = s.lastTo ∧ u.lastMc = s.lastMc ∧ u.bg = s.bg ∧
  u.out.rspValid = s.out.rspValid ∧ u.initError = s.initError ∧ u.cfg = s.cfg ∧ u.ports = s.ports ∧
      u.freeIx = s.freeIx := by
      rcases sideEffect_cases drop a d s with ⟨_,_,_,e⟩|⟨_,_,_,_,e⟩|⟨_,_,_,_,_,e⟩|⟨_,_,_,_,_,e⟩|⟨_,_,_,e⟩|⟨_,_,_,e⟩|⟨_,_,e⟩|⟨_,e⟩ <;> rw [e] <;> exact ⟨rfl,rfl,rfl,rfl,rfl,rfl,rfl,rfl,rfl,rfl,rfl⟩

/-- A stored data byte starts a measurement, unlocks, or does no more than emit a diagnostic. -/
theorem sideEffect_shape (s : State) (drop : Bool) (d : Byte) (_hr : isReadOnly s.ap = false) :
   let u := wbyteSideEffect drop s.ap d (setReg s.ap d (beginEvent s))
   (drop = false ∧ s.ap = 1 ∧ d[0] = true ∧ s.lockst = .unlocked ∧ s.measst = .idle ∧
       u = clrStatusBit 0 { setReg 1 d (beginEvent s) with measst := .inProgress, tStart := s.now }) ∨
   (drop = false ∧ s.ap = 10 ∧ d = getReg s 9 ∧ u = unlock (setReg 10 d (beginEvent s))) ∨
   (∃ c, u = emitDiag c (setReg s.ap d (beginEvent s)) ∧ (drop = false → ¬ (s.ap = 10 ∧ d = getReg s 9) ∧
       ¬ (s.ap = 1 ∧ d[0] = true ∧ s.lockst = .unlocked ∧ s.measst = .idle))) := by
  intro u
  have g9 : s.ap = 10 → getReg (setReg s.ap d (beginEvent s)) 9 = getReg s 9 := by
    intro h; rw [h]; simp
  rcases sideEffect_cases drop s.ap d (setReg s.ap d (beginEvent s)) with ⟨a1,a2,a3,e⟩|⟨a1,a2,a3,a4,e⟩|⟨a1,a2,a3,a4,a5,e⟩|⟨a1,a2,a3,a4,a5,e⟩|⟨a1,a2,a3,e⟩|⟨a1,a2,a3,e⟩|⟨a1,a2,e⟩|⟨a1,e⟩
  · exact .inr (.inr ⟨_, e, by simp [a3]⟩)
  · simp at a4; exact .inr (.inr ⟨_, e, by simp [a1, a4]⟩)
  · simp at a5; exact .inr (.inr ⟨_, e, by simp [a1, a5]⟩)
  · refine .inl ⟨a3, a1, a2, a4, a5, ?_⟩
    show wbyteSideEffect _ _ _ _ = _
    rw [e, a1]; rfl
  · exact .inr (.inr ⟨_, e, by simp [a3]⟩)
  · refine .inr (.inl ⟨a3, a1, by rw [a2, g9 a1], ?_⟩)
    show wbyteSideEffect _ _ _ _ = _
    rw [e, a1]
  · rw [g9 a1] at a2
    exact .inr (.inr ⟨_, e, fun _ => ⟨fun k => a2 k.2, by simp [a1]⟩⟩)
  · refine .inr (.inr ⟨.noDiag, e, fun _ => ?_⟩)
    rcases a1 with ⟨a, b⟩ | ⟨a, b⟩ <;> simp [a, b]

/-- The fields no background operation touches. -/
theorem startBackground_keeps (ops : List SubStep) (s : State) :
  startBackground ops s = { s with regs := (startBackground ops s).regs, lockst := (startBackground ops s).lockst, measst := (startBackground ops s).measst, bg := (startBackground ops s).bg } := by
  cases h : s.cfg.bgAtomic
  · rw [startBackground_torn ops h]
  · rw [startBackground_atomic ops h]
    have := runSubSteps_keeps ops s
    rw [this]

/-- The fields checkTimeout leaves alone (42_lock_controller.md R150, R152). -/
theorem checkTimeout_keeps (s : State) :
  checkTimeout s = { s with regs := (checkTimeout s).regs, lockst := (checkTimeout s).lockst, measst := (checkTimeout s).measst, bg := (checkTimeout s).bg } := by
  rcases checkTimeout_cases s with ⟨_, e⟩ | ⟨_, e⟩ <;> rw [e]
  exact startBackground_keeps _ _

/-- The fields checkComplete leaves alone (43_measurement.md R171, R172). -/
theorem checkComplete_keeps (s : State) :
  checkComplete s = { s with regs := (checkComplete s).regs, lockst := (checkComplete s).lockst, measst := (checkComplete s).measst, bg := (checkComplete s).bg, freeIx := (checkComplete s).freeIx } := by
  rcases checkComplete_cases s with ⟨_, t, h, _, _, e⟩ | ⟨_, e⟩ <;> rw [e]
  have := startBackground_keeps (completeSubSteps t h) { s with freeIx := s.freeIx + 1 }
  generalize startBackground (completeSubSteps t h) { s with freeIx := s.freeIx + 1 } = u at *
  rw [this]

/-- The fields the scheduled checks leave alone (44_ticker.md R191). -/
theorem scheduledChecks_keeps (s : State) :
  scheduledChecks s = { s with regs := (scheduledChecks s).regs, lockst := (scheduledChecks s).lockst, measst := (scheduledChecks s).measst, bg := (scheduledChecks s).bg, freeIx := (scheduledChecks s).freeIx } := by
  have key : ∀ u : State, (u = s ∨ u = checkTimeout s) → 
     u = { s with regs := u.regs, lockst := u.lockst, measst := u.measst, bg := u.bg, freeIx := u.freeIx } := by
    rintro u (rfl | rfl)
    · rfl
    · have := checkTimeout_keeps s; rw [this]
  unfold scheduledChecks
  generalize hu : (if timeoutDue s.now = true then checkTimeout s else s) = u
  have k := key u (by rw [← hu]; split <;> simp)
  simp only []
  split
  · split
    · rw [k]
    · have := checkComplete_keeps u
      rw [this]; rw [k]
  · exact k

/-- What the three timer events leave alone, in every mode. -/
theorem timer_keeps (i : Instr) (s t : State) (hi : i = .tick ∨ i = .chkto ∨ i = .chkmc) (h : exec i s = .next t) :
   t.ap = s.ap ∧ t.phase = s.phase ∧ t.tUnlock = s.tUnlock ∧ t.tStart = s.tStart ∧ t.initError = s.initError ∧
       t.cfg = s.cfg ∧ t.ports = s.ports
   ∧ t.out = (beginEvent s).out ∧ t.now = (if i = .tick then s.now + 1 else s.now) := by
  rcases hi with rfl | rfl | rfl
  · rcases execTick_cases s with ⟨_, e⟩ | ⟨_, _, e⟩ | ⟨_, _, _, e⟩ | ⟨_, _, _, e⟩
    · change execTick s = _ at h; rw [e] at h; simp at h
    · change execTick s = _ at h; rw [e] at h; injection h with h; rw [← h, scheduledChecks_keeps]
      exact ⟨rfl,rfl,rfl,rfl,rfl,rfl,rfl,rfl,rfl⟩
    · change execTick s = _ at h; rw [e] at h; injection h with h; rw [← h]
      exact ⟨rfl,rfl,rfl,rfl,rfl,rfl,rfl,rfl,rfl⟩
    · change execTick s = _ at h; rw [e] at h; simp at h
  · rcases execChkto_cases s with ⟨_, e⟩ | ⟨_, e⟩
    · change execChkto s = _ at h; rw [e] at h; simp at h
    · change execChkto s = _ at h; rw [e] at h; injection h with h
      have := checkTimeout_keeps (beginEvent s)
      rw [this] at h; unfold stampTimeoutCheck at h
      rw [← h]; dsimp only; split <;> exact ⟨rfl,rfl,rfl,rfl,rfl,rfl,rfl,rfl,rfl⟩
  · rcases execChkmc_cases s with ⟨_, e⟩ | ⟨_, e⟩
    · change execChkmc s = _ at h; rw [e] at h; simp at h
    · change execChkmc s = _ at h; rw [e] at h; injection h with h
      have := checkComplete_keeps (beginEvent s)
      rw [this] at h; unfold stampCompleteCheck at h
      rw [← h]; dsimp only; split <;> exact ⟨rfl,rfl,rfl,rfl,rfl,rfl,rfl,rfl,rfl⟩

/-- TICK in periodic mode, the mutex free (R190). -/
theorem execTick_periodic (s : State) (hh : held s = false) (hp : s.cfg.tickerMode = .periodic) :
   exec .tick s = .next (scheduledChecks (advanceTime (beginEvent s))) := by
  rcases execTick_cases s with ⟨k, _⟩ | ⟨_, _, e⟩ | ⟨_, k, _⟩ | ⟨_, k, _⟩
  · simp [hh] at k
  · exact e
  · simp [hp] at k
  · simp [hp] at k

theorem timeoutDue_iff (t : Time) : timeoutDue t = true ↔ t.toNat % 1000 = 0 := by simp [timeoutDue]

theorem completeDue_iff (t : Time) : completeDue t = true ↔ t.toNat % 50 = 0 := by simp [completeDue]

/-- All that lock() does (R150). -/
theorem runSubSteps_lock (s : State) : runSubSteps lockSubSteps s = lockedState s := by
  simp [runSubSteps, lockSubSteps, applySubStep, setStatusBit, clrStatusBit, setReg, lockedState, getReg]

/-- All that complete() does with the two values (43_measurement.md R172). -/
theorem runSubSteps_complete (x y : BitVec 16) (s : State) :
    runSubSteps (completeSubSteps x y) s = completedState x y s := by
  simp [runSubSteps, completeSubSteps, applySubStep, setStatusBit, setReg, completedState, getReg, lo8, hi8]

/-- A statement about every register is twelve statements. -/
theorem forall_reg {P : Reg → Prop} :
    (∀ a, P a) ↔ P 0 ∧ P 1 ∧ P 2 ∧ P 3 ∧ P 4 ∧ P 5 ∧ P 6 ∧ P 7 ∧ P 8 ∧ P 9 ∧ P 10 ∧ P 11 := by
  simp [Fin.forall_fin_succ]

/-- A register after lock() (R150). -/
theorem getReg_lockedState (s : State) (a : Reg) :
    getReg (lockedState s) a =
      if a = 2 then (getReg s 2 ||| 0x02#8) &&& 0xFE#8
      else if a = 3 ∨ a = 4 ∨ a = 5 ∨ a = 6 then 0xFF#8
      else if a = 11 then 0x01#8 else getReg s a := by
  revert a
  rw [forall_reg]
  refine ⟨?_, ?_, ?_, ?_, ?_, ?_, ?_, ?_, ?_, ?_, ?_, ?_⟩ <;>
    simp [lockedState, getReg]

/-- A register after complete() with the two values (R172). -/
theorem getReg_completedState (x y : BitVec 16) (s : State) (a : Reg) :
    getReg (completedState x y s) a =
      if a = 2 then getReg s 2 ||| 0x01#8
      else if a = 3 then lo8 x else if a = 4 then hi8 x
      else if a = 5 then hi8 y else if a = 6 then lo8 y else getReg s a := by
  revert a
  rw [forall_reg]
  refine ⟨?_, ?_, ?_, ?_, ?_, ?_, ?_, ?_, ?_, ?_, ?_, ?_⟩ <;>
    simp [completedState, getReg, lo8, hi8]

/-- A register after unlock() (R151). -/
theorem getReg_unlock (s : State) (a : Reg) : getReg (unlock s) a = if a = 2 then getReg s 2 &&& 0xFD#8 else if a = 11 then 0#8 else getReg s a := by
  have : unlock s = { setReg 11 0#8 (setReg 2 (getReg s 2 &&& 0xFD#8) s) with lockst := .unlocked, tUnlock := s.now } := by
    simp [unlock, setReg, clrStatusBit, getReg]
  rw [this]
  show getReg (setReg 11 0#8 (setReg 2 _ s)) a = _
  rw [getReg_setReg, getReg_setReg]
  by_cases h : a = 11
  · subst h; simp
  · by_cases h2 : a = 2
    · subst h2; simp
    · simp [h, h2, Ne.symm h, Ne.symm h2]

/-- The scheduled checks in atomic mode, the mutex being of no account (R191): lock(),
    or complete() with two values in range, or nothing. -/
theorem scheduledChecks_atomic (u : State) (hat : u.cfg.bgAtomic = true) :
   (u.now.toNat % 1000 = 0 ∧ RelockDueAt u.now u ∧ scheduledChecks u = lockedState u) ∨
   (¬ (u.now.toNat % 1000 = 0 ∧ RelockDueAt u.now u) ∧ u.now.toNat % 50 = 0 ∧ CompletionDueAt u.now u ∧ ∃ x y,
       TempInRange x ∧ HumidInRange y ∧ scheduledChecks u = completedState x y { u with freeIx := u.freeIx + 1 }) ∨
   (¬ (u.now.toNat % 1000 = 0 ∧ RelockDueAt u.now u) ∧ ¬ (u.now.toNat % 50 = 0 ∧ CompletionDueAt u.now u) ∧
       scheduledChecks u = u) := by
  have hh : ∀ v : State, v.cfg = u.cfg → held v = false := fun v e => held_of_atomic (by rw [e]; exact hat)
  by_cases h1 : u.now.toNat % 1000 = 0 ∧ RelockDueAt u.now u
  · refine .inl ⟨h1.1, h1.2, ?_⟩
    have c : checkTimeout u = lockedState u := by
      rcases checkTimeout_cases u with ⟨_, c⟩ | ⟨k, _⟩
      · rw [c, startBackground_atomic _ hat, runSubSteps_lock]
      · exact absurd h1.2 k
    unfold scheduledChecks
    rw [if_pos ((timeoutDue_iff _).2 h1.1), c]
    have c2 : checkComplete (lockedState u) = lockedState u := by
      rcases checkComplete_cases (lockedState u) with ⟨k, _⟩ | ⟨_, c⟩
      · exact absurd k.1 (by simp [lockedState])
      · exact c
    simp only [hh (lockedState u) rfl, c2]; simp
  · have c : (if timeoutDue u.now = true then checkTimeout u else u) = u := by
      split
      · rename_i k
        rcases checkTimeout_cases u with ⟨l, _⟩ | ⟨_, c⟩
        · exact absurd ⟨(timeoutDue_iff _).1 k, l⟩ h1
        · exact c
      · rfl
    refine .inr ?_
    by_cases h2 : u.now.toNat % 50 = 0 ∧ CompletionDueAt u.now u
    · refine .inl ⟨h1, h2.1, h2.2, ?_⟩
      rcases checkComplete_cases u with ⟨_, x, y, hx, hy, k⟩ | ⟨k, _⟩
      · refine ⟨x, y, hx, hy, ?_⟩
        unfold scheduledChecks
        rw [c]
        simp only [hh u rfl, (completeDue_iff _).2 h2.1, if_true, k, Bool.false_eq_true, if_false]
        rw [startBackground_atomic _ (by exact hat), runSubSteps_complete]
      · exact absurd h2.2 k
    · refine .inr ⟨h1, h2, ?_⟩
      unfold scheduledChecks
      rw [c]
      simp only [hh u rfl, Bool.false_eq_true, if_false]
      split
      · rename_i k
        rcases checkComplete_cases u with ⟨l, _⟩ | ⟨_, c⟩
        · exact absurd ⟨(completeDue_iff _).1 k, l⟩ h2
        · exact c
      · rfl

/-- A timer event in any mode leaves registers and device state alone (always, in torn mode),
    or in atomic mode is a whole lock() or a whole complete(). -/
theorem timer_shape (i : Instr) (s t : State) (hi : i = .tick ∨ i = .chkto ∨ i = .chkmc) (h : exec i s = .next t) :
   (t.regs = s.regs ∧ t.lockst = s.lockst ∧ t.measst = s.measst ∧ (s.cfg.bgAtomic = true → t.bg = s.bg ∧
       ¬ TimerLocks i s ∧ ¬ TimerCompletes i s)) ∨
   (s.cfg.bgAtomic = true ∧ TimerLocks i s ∧ t.regs = (lockedState s).regs ∧ t.lockst = .locked ∧
       t.measst = .idle ∧ t.bg = s.bg) ∨
   (s.cfg.bgAtomic = true ∧ ¬ TimerLocks i s ∧ TimerCompletes i s ∧ 
      ∃ x y, TempInRange x ∧ HumidInRange y ∧ t.regs = (completedState x y s).regs ∧ t.lockst = s.lockst ∧
          t.measst = .idle ∧ t.bg = s.bg) := by
  cases hat : s.cfg.bgAtomic
  · -- torn
    have bt : ∀ v : State, v.cfg.bgAtomic = false → (checkTimeout v).regs = v.regs ∧
        (checkTimeout v).lockst = v.lockst ∧ (checkTimeout v).measst = v.measst := by
      intro v hv; rcases checkTimeout_cases v with ⟨_, c⟩ | ⟨_, c⟩ <;> rw [c]
      · rw [startBackground_torn _ hv]; exact ⟨rfl,rfl,rfl⟩
      · exact ⟨rfl,rfl,rfl⟩
    have bc : ∀ v : State, v.cfg.bgAtomic = false → (checkComplete v).regs = v.regs ∧
        (checkComplete v).lockst = v.lockst ∧ (checkComplete v).measst = v.measst := by
      intro v hv; rcases checkComplete_cases v with ⟨_, x, y, _, _, c⟩ | ⟨_, c⟩ <;> rw [c]
      · rw [startBackground_torn _ (by exact hv)]; exact ⟨rfl,rfl,rfl⟩
      · exact ⟨rfl,rfl,rfl⟩
    refine .inl ?_
    rcases hi with rfl | rfl | rfl
    · rcases execTick_cases s with ⟨_, e⟩ | ⟨_, _, e⟩ | ⟨_, _, _, e⟩ | ⟨_, _, _, e⟩
      all_goals (change execTick s = _ at h; rw [e] at h; first | (injection h with h) | skip)
      · simp at h
      · rw [← h]; unfold scheduledChecks
        generalize hv : advanceTime (beginEvent s) = v
        have hva : v.cfg.bgAtomic = false := by rw [← hv]; exact hat
        have hs : v.regs = s.regs ∧ v.lockst = s.lockst ∧ v.measst = s.measst := by rw [← hv]; exact ⟨rfl,rfl,rfl⟩
        generalize hw : (if timeoutDue v.now = true then checkTimeout v else v) = w
        have hws : w.regs = s.regs ∧ w.lockst = s.lockst ∧ w.measst = s.measst ∧ w.cfg.bgAtomic = false := by
          rw [← hw]; split
          · have := bt v hva; have k := checkTimeout_keeps v
            refine ⟨this.1.trans hs.1, this.2.1.trans hs.2.1, this.2.2.trans hs.2.2, ?_⟩
            rw [k]; exact hva
          · exact ⟨hs.1, hs.2.1, hs.2.2, hva⟩
        dsimp only
        split
        · split
          · exact ⟨hws.1, hws.2.1, hws.2.2.1, by simp⟩
          · have := bc w hws.2.2.2
            exact ⟨this.1.trans hws.1, this.2.1.trans hws.2.1, this.2.2.trans hws.2.2.1, by simp⟩
        · exact ⟨hws.1, hws.2.1, hws.2.2.1, by simp⟩
      · rw [← h]; exact ⟨rfl, rfl, rfl, by simp⟩
      · simp at h
    · rcases execChkto_cases s with ⟨_, e⟩ | ⟨_, e⟩
      all_goals (change execChkto s = _ at h; rw [e] at h; first | (injection h with h) | skip)
      · simp at h
      · have := bt (beginEvent s) hat
        rw [← h]; unfold stampTimeoutCheck; split <;> exact ⟨this.1, this.2.1, this.2.2, by simp⟩
    · rcases execChkmc_cases s with ⟨_, e⟩ | ⟨_, e⟩
      all_goals (change execChkmc s = _ at h; rw [e] at h; first | (injection h with h) | skip)
      · simp at h
      · have := bc (beginEvent s) hat
        rw [← h]; unfold stampCompleteCheck; split <;> exact ⟨this.1, this.2.1, this.2.2, by simp⟩
  · have hh := held_of_atomic hat
    rcases hi with rfl | rfl | rfl
    · rcases execTick_cases s with ⟨k, e⟩ | ⟨_, hp, e⟩ | ⟨_, _, _, e⟩ | ⟨_, _, _, e⟩
      all_goals (change execTick s = _ at h; rw [e] at h; first | (injection h with h) | skip)
      · simp [hh] at k
      · rw [← h]
        rcases scheduledChecks_atomic (advanceTime (beginEvent s)) hat with ⟨a, b, k⟩ | ⟨a, b, c, x, y, hx, hy,
            k⟩ | ⟨a, b, k⟩
        · rw [k]; exact .inr (.inl ⟨rfl, .inr ⟨rfl, hp, a, b⟩, rfl, rfl, rfl, rfl⟩)
        · rw [k]; exact .inr (.inr ⟨rfl, by simp [TimerLocks]; intro _; simpa using a, .inr ⟨rfl, hp, b, c⟩, x, y,
            hx, hy, rfl, rfl, rfl, rfl⟩)
        · rw [k]; exact .inl ⟨rfl, rfl, rfl, fun _ => ⟨rfl, by rintro (⟨k, _⟩ | ⟨_, _, k⟩); cases k; exact a k,
            by rintro (⟨k, _⟩ | ⟨_, _, k⟩); cases k; exact b k⟩⟩
      · rw [← h]; exact .inl ⟨rfl, rfl, rfl, fun _ => ⟨rfl, by rintro (⟨k, _⟩ | ⟨_, k, _⟩); cases k; simp_all,
          by rintro (⟨k, _⟩ | ⟨_, k, _⟩); cases k; simp_all⟩⟩
      · simp at h
    · rcases execChkto_cases s with ⟨k, e⟩ | ⟨_, e⟩
      all_goals (change execChkto s = _ at h; rw [e] at h; first | (injection h with h) | skip)
      · simp [hh] at k
      · rw [← h]
        rcases checkTimeout_cases (beginEvent s) with ⟨a, c⟩ | ⟨a, c⟩
        · rw [c, startBackground_atomic _ (by exact hat), runSubSteps_lock]
          unfold stampTimeoutCheck
          split <;> exact .inr (.inl ⟨rfl, .inl ⟨rfl, a⟩, rfl, rfl, rfl, rfl⟩)
        · rw [c]; unfold stampTimeoutCheck; split <;> exact .inl ⟨rfl, rfl, rfl, fun _ =>
            ⟨rfl, (by rintro (⟨_, k⟩ | ⟨k, _⟩); exact a k; cases k), (by rintro (⟨k, _⟩ | ⟨k, _⟩) <;> cases k)⟩⟩
    · rcases execChkmc_cases s with ⟨k, e⟩ | ⟨_, e⟩
      all_goals (change execChkmc s = _ at h; rw [e] at h; first | (injection h with h) | skip)
      · simp [hh] at k
      · rw [← h]
        rcases checkComplete_cases (beginEvent s) with ⟨a, x, y, hx, hy, c⟩ | ⟨a, c⟩
        · rw [c, startBackground_atomic _ (by exact hat), runSubSteps_complete]
          unfold stampCompleteCheck
          split <;> exact .inr (.inr ⟨rfl, by simp [TimerLocks], .inl ⟨rfl, a⟩, x, y, hx, hy, rfl, rfl, rfl, rfl⟩)
        · rw [c]; unfold stampCompleteCheck; split <;> exact .inl ⟨rfl, rfl, rfl, fun _ => ⟨rfl, (by rintro (⟨k,
            _⟩ | ⟨k, _⟩) <;> cases k), (by rintro (⟨_, k⟩ | ⟨k, _⟩); exact a k; cases k)⟩⟩

/-- Any other event: no register changes; or a data byte is stored with no more effect; or it unlocks;
    or it starts a measurement. -/
theorem bus_shape (i : Instr) (s t : State) (hi : ¬ (i = .tick ∨ i = .chkto ∨ i = .chkmc)) (h : exec i s = .next t) :
  t.bg = s.bg ∧ t.cfg = s.cfg ∧ t.now = s.now ∧ t.lastTo = s.lastTo ∧ t.lastMc = s.lastMc ∧ t.ports = s.ports ∧
      t.initError = s.initError ∧
  ((t.regs = s.regs ∧ t.lockst = s.lockst ∧ t.measst = s.measst ∧ t.tUnlock = s.tUnlock ∧ t.tStart = s.tStart ∧
      ¬ InvokesUnlock i s ∧ ¬ InvokesStart i s) ∨
   (∃ d, IsDataByte i s d ∧ isReadOnly s.ap = false ∧ t.regs = s.regs.set s.ap d ∧ t.lockst = s.lockst ∧
       t.measst = s.measst ∧ t.tUnlock = s.tUnlock ∧ t.tStart = s.tStart ∧
      (held s = false → ¬ InvokesUnlock i s ∧ ¬ (InvokesStart i s ∧ s.lockst = .unlocked ∧ s.measst = .idle))) ∨
   (held s = false ∧ InvokesUnlock i s ∧
       t.regs = ((s.regs.set 10 (getReg s 9)).set 2 (getReg s 2 &&& 0xFD#8)).set 11 0#8 ∧ t.lockst = .unlocked ∧
       t.measst = s.measst ∧ t.tUnlock = s.now ∧ t.tStart = s.tStart) ∨
   (held s = false ∧ InvokesStart i s ∧ s.lockst = .unlocked ∧ s.measst = .idle ∧ (∃ d, IsDataByte i s d ∧
       t.regs = (s.regs.set 1 d).set 2 (getReg s 2 &&& 0xFE#8)) ∧ t.lockst = s.lockst ∧ t.measst = .inProgress ∧
       t.tUnlock = s.tUnlock ∧ t.tStart = s.now)) := by
  cases i with
  | tick => exact absurd (.inl rfl) hi
  | chkto => exact absurd (.inr (.inl rfl)) hi
  | chkmc => exact absurd (.inr (.inr rfl)) hi
  | wbyte d =>
    rcases execWbyte_next s t d h with ⟨p, rfl⟩ | ⟨p, r, rfl⟩ | ⟨p, r, drop, hd, hd', rfl⟩
    · exact ⟨rfl,rfl,rfl,rfl,rfl,rfl,rfl, .inl ⟨rfl,rfl,rfl,rfl,rfl, fun k => p k.1.2, fun ⟨_, k, _⟩ => p k.2⟩⟩
    · refine ⟨rfl,rfl,rfl,rfl,rfl,rfl,rfl, .inl ⟨rfl,rfl,rfl,rfl,rfl, fun k => ?_, fun ⟨_, k, k', _⟩ => ?_⟩⟩
      · rw [k.2] at r; exact absurd r (by decide)
      · rw [k'] at r; exact absurd r (by decide)
    · have K := sideEffect_keeps drop s.ap d (setReg s.ap d (beginEvent s))
      simp only at K
      obtain ⟨_, _, k3, k4, k5, k6, _, k8, k9, k10, _⟩ := K
      refine ⟨k6, k9, k3, k4, k5, k10, k8, ?_⟩
      rw [wbyteCalls_iff d s p] at hd
      rcases sideEffect_shape s drop d r with ⟨a1,a2,a3,a4,a5,e⟩ | ⟨a1,a2,a3,e⟩ | ⟨c, e, n⟩
      · have hh : held s = false := by
          cases hx : held s
          · rfl
          · exfalso; have := hd.2 ⟨hx, .inl ⟨a2, a3⟩⟩; rw [a1] at this; cases this
        refine .inr (.inr (.inr ⟨hh, ⟨d, ⟨rfl, p⟩, a2, a3⟩, a4, a5, ⟨d, ⟨rfl, p⟩, ?_⟩, ?_, ?_, ?_, ?_⟩))
        · rw [e]; simp [getReg]
        all_goals rw [e]; rfl
      · have hh : held s = false := by
          cases hx : held s
          · rfl
          · exfalso; have := hd.2 ⟨hx, .inr ⟨a2, a3⟩⟩; rw [a1] at this; cases this
        refine .inr (.inr (.inl ⟨hh, ⟨⟨by rw [a3], p⟩, a2⟩, ?_, ?_, ?_, ?_, ?_⟩))
        · rw [e, a3]; simp [getReg]
        all_goals rw [e]; rfl
      · refine .inr (.inl ⟨d, ⟨rfl, p⟩, r, by rw [e]; rfl, by rw [e]; rfl, by rw [e]; rfl, by rw [e]; rfl,
          by rw [e]; rfl, fun hh => ?_⟩)
        have hf : drop = false := by
          cases drop
          · rfl
          · exact absurd (hd.1 rfl).1 (by simp [hh])
        have n := n hf
        refine ⟨fun k => n.1 ⟨k.2, ?_⟩, fun ⟨⟨d', k, k2, k3⟩, k4, k5⟩ => n.2 ⟨k2, ?_, k4, k5⟩⟩
        · have := k.1.1; injection this
        · have := k.1; injection this with this; rw [this]; exact k3
  | _ => 
    injection h with h
    subst h
    refine ⟨rfl,rfl,rfl,rfl,rfl,rfl,rfl, .inl ⟨rfl,rfl,rfl,rfl,rfl, fun k => ?_, fun ⟨_, k, _⟩ => ?_⟩⟩
    · have := k.1.1; cases this
    · have := k.1; cases this

/-- No event touches the channels, the registration outcome or the mode switches. -/
theorem exec_keeps (i : Instr) (s t : State) (h : exec i s = .next t) : t.ports = s.ports ∧
    t.initError = s.initError ∧ t.cfg = s.cfg := by
  by_cases hi : i = .tick ∨ i = .chkto ∨ i = .chkmc
  · obtain ⟨a1, a2, a3, a4, a5, a6, a7, a8, a9⟩ := timer_keeps i s t hi h
    exact ⟨a7, a5, a6⟩
  · obtain ⟨a, b, c, d, e, f, g, _⟩ := bus_shape i s t hi h
    exact ⟨f, g, b⟩

/-- Nor does a sub-step of the Ticker. -/
theorem tickerSubStep_keeps (k : Nat) (s : State) : (tickerSubStep k s).ports = s.ports ∧
    (tickerSubStep k s).initError = s.initError ∧ (tickerSubStep k s).cfg = s.cfg := by
  have R : ∀ v : State, (releaseMutex v).ports = v.ports ∧ (releaseMutex v).initError = v.initError ∧
      (releaseMutex v).cfg = v.cfg := by
    intro v; unfold releaseMutex; dsimp only; split
    · rw [checkComplete_keeps]; exact ⟨rfl, rfl, rfl⟩
    · exact ⟨rfl, rfl, rfl⟩
  unfold tickerSubStep; dsimp only
  split
  · exact R _
  · rename_i u _
    split
    · refine ⟨(R _).1.trans ?_, (R _).2.1.trans ?_, (R _).2.2.trans ?_⟩ <;> (rw [applySubStep_keeps]; rfl)
    · refine ⟨?_, ?_, ?_⟩ <;> (rw [applySubStep_keeps]; rfl)

/-- Nor does it touch PHASE. -/
theorem tickerSubStep_phase (k : Nat) (s : State) : (tickerSubStep k s).phase = s.phase := by
  have R : ∀ v : State, (releaseMutex v).phase = v.phase := by
    intro v; unfold releaseMutex; dsimp only; split
    · rw [checkComplete_keeps]
    · rfl
  unfold tickerSubStep; dsimp only
  split
  · exact R _
  · split
    · rw [R, applySubStep_keeps]; rfl
    · rw [applySubStep_keeps]; rfl

end Sys2Proof.Machine
end

