-- ==== Sys2Proof/Laws/PerInstr.lean ====
section
/-! SUPPORT. Statements about each event as syntax, one lemma for each constructor. -/

/-- The family InOpcodeMap: the canonical word of a well-formed event matches a row of its mnemonic in the opcode map (30_encoding.md R89). -/
def Sys2Proof.Laws.InOpcodeMap.Statement (i : Sys2Proof.Instr) : Prop :=
  i.wf = true → ∃ r ∈ Sys2Proof.opcodeRows, r.mnemonic = i.mnemonic ∧ Sys2Proof.rowMatches r (Sys2Proof.encode i) = true

namespace Sys2Proof.Laws.InOpcodeMap

theorem nop : Statement .nop := by intro _; decide
theorem wstart : Statement .wstart := by intro _; decide
theorem rreq : Statement .rreq := by intro _; decide
theorem rcont : Statement .rcont := by intro _; decide
theorem stop : Statement .stop := by intro _; decide
theorem tick : Statement .tick := by intro _; decide
theorem chkto : Statement .chkto := by intro _; decide
theorem chkmc : Statement .chkmc := by intro _; decide

/-- A word is its KIND field followed by its other twelve bits. -/
theorem kind_append (w : EventWord) : w.extractLsb' 12 4 ++ w.extractLsb' 0 12 = w := by
  apply BitVec.eq_of_getElem_eq
  intro i hi
  simp only [BitVec.getElem_append, BitVec.getElem_extractLsb']
  split
  · rw [BitVec.getLsbD_eq_getElem (by omega)]; simp
  · rw [BitVec.getLsbD_eq_getElem (by omega)]; congr 1; omega

/-- Only KIND decides whether a word matches a row whose mask covers KIND bits alone. -/
theorem kindRow_matches (m : Mnemonic) (b k : BitVec 4) (w : EventWord) :
    rowMatches ⟨m, b ++ 0#12, k ++ 0#12⟩ w = (w.extractLsb' 12 4 &&& k == b) := by
  have h : (w.extractLsb' 12 4 ++ w.extractLsb' 0 12) &&& (k ++ 0#12) = (w.extractLsb' 12 4 &&& k) ++ 0#12 := by
    rw [BitVec.and_append, BitVec.and_zero]
  rw [kind_append w] at h
  have e : (w.extractLsb' 12 4 &&& k) ++ 0#12 = b ++ 0#12 ↔ (w.extractLsb' 12 4 &&& k) = b :=
    BitVec.append_left_inj 0#12
  have r : rowMatches ⟨m, b ++ 0#12, k ++ 0#12⟩ w = (w &&& (k ++ 0#12) == b ++ 0#12) := rfl
  rw [r, h, Bool.eq_iff_iff, beq_iff_eq, beq_iff_eq, e]

/-- A set RSVD bit matches the row of that bit. -/
theorem rsvdRow_matches (m : Mnemonic) (w : EventWord) (n : Nat) (h : w.getLsbD n = true) :
    rowMatches ⟨m, BitVec.twoPow 16 n, BitVec.twoPow 16 n⟩ w = true := by
  simp [rowMatches, BitVec.and_twoPow, h]

theorem wbyte (d : Byte) : Statement (.wbyte d) := by
  intro _
  refine ⟨⟨.WBYTE, 0x2000#16, 0xFF00#16⟩, by decide, rfl, ?_⟩
  have h : (0x20#8 ++ d) &&& (0xFF#8 ++ 0x00#8) = 0x20#8 ++ 0x00#8 := by
    rw [BitVec.and_append]; simp
  simpa [rowMatches, encode] using h

theorem reserved (w : EventWord) : Statement (.reserved w) := by
  intro h
  simp only [Instr.wf, isReservedWord, Bool.or_eq_true, decide_eq_true_eq] at h
  rcases h with (((h | h) | h) | h) | h
  · exact ⟨⟨.RESERVED, 0x0100#16, 0x0100#16⟩, by decide, rfl, rsvdRow_matches _ w 8 h⟩
  · exact ⟨⟨.RESERVED, 0x0200#16, 0x0200#16⟩, by decide, rfl, rsvdRow_matches _ w 9 h⟩
  · exact ⟨⟨.RESERVED, 0x0400#16, 0x0400#16⟩, by decide, rfl, rsvdRow_matches _ w 10 h⟩
  · exact ⟨⟨.RESERVED, 0x0800#16, 0x0800#16⟩, by decide, rfl, rsvdRow_matches _ w 11 h⟩
  · have hk : 9 ≤ (w.extractLsb' 12 4).toNat := by
      simp only [BitVec.extractLsb'_toNat, Nat.shiftRight_eq_div_pow]; omega
    have kinds : ∀ k : BitVec 4, 9 ≤ k.toNat →
        (k &&& 0xF#4 == 0x9#4) = true ∨ (k &&& 0xE#4 == 0xA#4) = true ∨ (k &&& 0xC#4 == 0xC#4) = true := by decide
    rcases kinds _ hk with e | e | e
    · exact ⟨⟨.RESERVED, 0x9000#16, 0xF000#16⟩, by decide, rfl, (kindRow_matches _ 0x9#4 0xF#4 w).trans e⟩
    · exact ⟨⟨.RESERVED, 0xA000#16, 0xE000#16⟩, by decide, rfl, (kindRow_matches _ 0xA#4 0xE#4 w).trans e⟩
    · exact ⟨⟨.RESERVED, 0xC000#16, 0xC000#16⟩, by decide, rfl, (kindRow_matches _ 0xC#4 0xC#4 w).trans e⟩

end Sys2Proof.Laws.InOpcodeMap
end

