-- ==== Sys2Proof/Laws/Step.lean ====
section
/-! SUPPORT. Everything a step can do, once. -/

namespace Sys2Proof.Machine

variable {s t : State}

/-- The bus word that is taken is the head of its channel (20_memory.md R69, 70_reset_and_hazards.md R243). -/
theorem takeBus_cases (s : State) :
    (∃ w q, s.initError = none ∧ s.ports.busQ = w :: q ∧
        takeBus s = some (w, { s with ports := { s.ports with busQ := q } })) ∨
      ((s.initError.isSome = true ∨ s.ports.busQ = []) ∧ takeBus s = none) := by
  unfold takeBus
  cases hi : s.initError <;> cases hb : s.ports.busQ <;> simp

/-- While a background operation holds the mutex a step is a sub-step of the Ticker, or a bus event that has a step. -/
theorem runTorn_cases (b : Boundary) (s : State) :
    runTorn b s = .next (tickerSubStep b.pick s) ∨
      ∃ w q, s.initError = none ∧ s.ports.busQ = w :: q ∧
        runTorn b s = exec (decode w) { s with ports := { s.ports with busQ := q } } := by
  unfold runTorn
  split
  · rcases takeBus_cases s with ⟨w, q, hi, hq, e⟩ | ⟨_, e⟩ <;> rw [e] <;> dsimp only
    · split
      · exact .inl rfl
      · exact .inr ⟨w, q, hi, hq, rfl⟩
    · exact .inl rfl
  · exact .inl rfl

/-- A step is a reset, a sub-step of the Ticker, or one event: the head of the bus channel, else the head of the timer
channel, else the idle NOP. -/
theorem step_cases (h : step s = .next t) :
    ((nextBoundary s).rst = true ∧
        t = withdrawCutOff (resetBlock (nextBoundary s).regOk (arrive (nextBoundary s) s))) ∨
      ((nextBoundary s).rst = false ∧ held s = true ∧
        t = tickerSubStep (nextBoundary s).pick (arrive (nextBoundary s) s)) ∨
      ((nextBoundary s).rst = false ∧ s.initError = none ∧
        ∃ w q, (arrive (nextBoundary s) s).ports.busQ = w :: q ∧
          exec (decode w)
            { arrive (nextBoundary s) s with ports := { (arrive (nextBoundary s) s).ports with busQ := q } } = .next t) ∨
      ((nextBoundary s).rst = false ∧ held s = false ∧
        ∃ w q, (arrive (nextBoundary s) s).ports.tmrQ = w :: q ∧
          exec (decode w)
            { arrive (nextBoundary s) s with ports := { (arrive (nextBoundary s) s).ports with tmrQ := q } } = .next t) ∨
      ((nextBoundary s).rst = false ∧ held s = false ∧ exec .nop (arrive (nextBoundary s) s) = .next t) := by
  have hh : held (arrive (nextBoundary s) s) = held s := rfl
  have hi : (arrive (nextBoundary s) s).initError = s.initError := rfl
  unfold step at h
  simp only [hh] at h
  cases hr : (nextBoundary s).rst
  · simp only [hr, Bool.false_eq_true, if_false] at h
    refine .inr ?_
    cases hd : held s
    · simp only [hd, Bool.false_eq_true, if_false, runEvent] at h
      rcases fetchEvent_cases (arrive (nextBoundary s) s) with ⟨w, q, i, hq, e⟩ | ⟨_, w, q, hq, e⟩ | ⟨_, _, e⟩ <;>
        rw [e] at h
      · exact .inr (.inl ⟨rfl, hi ▸ i, w, q, hq, h⟩)
      · exact .inr (.inr (.inl ⟨rfl, rfl, w, q, hq, h⟩))
      · exact .inr (.inr (.inr ⟨rfl, rfl, h⟩))
    · simp only [hd, if_true] at h
      rcases runTorn_cases (nextBoundary s) (arrive (nextBoundary s) s) with e | ⟨w, q, i, hq, e⟩ <;> rw [e] at h
      · injection h with h; exact .inl ⟨rfl, rfl, h.symm⟩
      · exact .inr (.inl ⟨rfl, hi ▸ i, w, q, hq, h⟩)
  · simp only [hr, if_true] at h
    injection h with h
    exact .inl ⟨rfl, h.symm⟩

/-- What `withFetchWord` places is all that waits at the next boundary beside the words that waited before: no reset is
asserted, nothing arrives, and BUS moves (log entry 12). -/
theorem withFetchWord_arrives (s : State) (n w : Nat) :
    nextBoundary (s.withFetchWord n w) = State.quietBoundary ∧
      (s.initError = none → arrive State.quietBoundary (s.withFetchWord n w) =
        { s with ports := { s.ports with busQ := BitVec.ofNat 16 w :: s.ports.busQ } }) ∧
      (s.initError.isSome = true → arrive State.quietBoundary (s.withFetchWord n w) =
        { s with ports := { s.ports with tmrQ := BitVec.ofNat 16 w :: s.ports.tmrQ } }) := by
  refine ⟨?_, fun h => ?_, fun h => ?_⟩
  · unfold State.withFetchWord nextBoundary; dsimp only; cases s.initError <;> rfl
  · simp [State.withFetchWord, h, arrive, State.quietBoundary, busSends, tickerSends]
  · simp [State.withFetchWord, h, arrive, State.quietBoundary, busSends, tickerSends]

end Sys2Proof.Machine
end

