-- ==== Sys2Proof/Laws/Torn.lean ====
section
/-! SUPPORT. Torn mode (20_memory.md R67): the sub-steps of one operation commute, so any of them may be made first, and what
one move of the Ticker does. -/

namespace Sys2Proof.Machine

open Sys2Proof.Safety

/-- Two sub-steps whose order leaves no trace. -/
def Commute (u v : SubStep) : Prop := ∀ s : State, applySubStep u (applySubStep v s) = applySubStep v (applySubStep u s)

theorem setLocked_clearReady_comm (x : Byte) : x &&& 254#8 ||| 2#8 = (x ||| 2#8) &&& 254#8 := by revert x; decide

/-- The nine writes of lock() commute (42_lock_controller.md R150). -/
theorem lockSubSteps_commute : lockSubSteps.Pairwise Commute := by
  simp only [lockSubSteps, List.pairwise_cons, List.mem_cons, List.not_mem_nil, or_false, forall_eq_or_imp, forall_eq,
    List.Pairwise.nil, and_true]
  refine ⟨⟨?_, ?_, ?_, ?_, ?_, ?_, ?_, ?_⟩, ⟨?_, ?_, ?_, ?_, ?_, ?_, ?_⟩, ⟨?_, ?_, ?_, ?_, ?_, ?_⟩,
    ⟨?_, ?_, ?_, ?_, ?_⟩, ⟨?_, ?_, ?_, ?_⟩, ⟨?_, ?_, ?_⟩, ⟨?_, ?_⟩, ?_, fun _ h => h.elim⟩
  all_goals intro s
  all_goals first
    | rfl
    | (simp [applySubStep, setReg, setStatusBit, clrStatusBit, getReg, setLocked_clearReady_comm]; done)
    | (simp [applySubStep, setReg, setStatusBit, clrStatusBit, getReg]; apply Vector.set_comm; decide)

/-- The six writes of complete() commute (43_measurement.md R172). -/
theorem completeSubSteps_commute (x y : BitVec 16) : (completeSubSteps x y).Pairwise Commute := by
  simp only [completeSubSteps, List.pairwise_cons, List.mem_cons, List.not_mem_nil, or_false, forall_eq_or_imp, forall_eq,
    List.Pairwise.nil, and_true]
  refine ⟨⟨?_, ?_, ?_, ?_, ?_⟩, ⟨?_, ?_, ?_, ?_⟩, ⟨?_, ?_, ?_⟩, ⟨?_, ?_⟩, ?_, fun _ h => h.elim⟩
  all_goals intro s
  all_goals first
    | rfl
    | (simp [applySubStep, setReg, setStatusBit, getReg]; done)
    | (simp [applySubStep, setReg, setStatusBit, getReg]; apply Vector.set_comm; decide)

/-- Any sub-step of a commuting list may be made first. -/
theorem runSubSteps_pull {ops : List SubStep} (hp : ops.Pairwise Commute) {k : Nat} {u : SubStep} (hk : ops[k]? = some u)
    (s : State) : runSubSteps ops s = runSubSteps (ops.eraseIdx k) (applySubStep u s) := by
  induction ops generalizing k s with
  | nil => simp at hk
  | cons v ops ih =>
    cases k with
    | zero => simp at hk; subst hk; rfl
    | succ k =>
      simp at hk
      have c : Commute v u := (List.pairwise_cons.1 hp).1 u (List.mem_of_getElem? hk)
      rw [List.eraseIdx_cons_succ, runSubSteps_cons, runSubSteps_cons, ih hp.of_cons hk, c s]

/-- A sub-step neither reads nor writes the mutex, the outputs and the count of free values. -/
theorem applySubStep_indep (u : SubStep) (s : State) (b : Background) (o : Outputs) (n : Nat) :
    applySubStep u { s with bg := b, out := o, freeIx := n } =
      { applySubStep u s with bg := b, out := o, freeIx := n } := by
  cases u <;> rfl

theorem runSubSteps_indep (ops : List SubStep) (s : State) (b : Background) (o : Outputs) (n : Nat) :
    runSubSteps ops { s with bg := b, out := o, freeIx := n } =
      { runSubSteps ops s with bg := b, out := o, freeIx := n } := by
  induction ops generalizing s with
  | nil => rfl
  | cons u ops ih => rw [runSubSteps_cons, runSubSteps_cons, applySubStep_indep, ih]

/-- A pick always names a sub-step, where there is one. -/
theorem pick_names (k : Nat) {l : List SubStep} (h : l ≠ []) :
    ∃ u, l[k % l.length]? = some u ∧ k % l.length < l.length := by
  have : k % l.length < l.length := Nat.mod_lt _ (List.length_pos_iff.2 h)
  exact ⟨_, List.getElem?_eq_getElem this, this⟩

/-- Releasing the mutex leaves it free, unless a completion check still owed takes it again at once or, in atomic mode,
completes (44_ticker.md R191; log entry 7). -/
theorem releaseMutex_cases (s : State) :
    (¬(s.bg.mcDue = true ∧ CompletionDueAt s.now s) ∧
        releaseMutex s = { s with bg := { mutex := .free, work := [], mcDue := false } }) ∨
      (s.bg.mcDue = true ∧ CompletionDueAt s.now s ∧ ∃ temp humid, TempInRange temp ∧ HumidInRange humid ∧
        releaseMutex s =
          startBackground (completeSubSteps temp humid)
            { s with bg := { mutex := .free, work := [], mcDue := false }, freeIx := s.freeIx + 1 }) := by
  unfold releaseMutex
  cases hd : s.bg.mcDue
  · exact .inl ⟨by simp, rfl⟩
  · rcases checkComplete_cases { s with bg := { mutex := .free, work := [], mcDue := false } } with ⟨k, h⟩ | ⟨k, e⟩
    · exact .inr ⟨rfl, k, h⟩
    · exact .inl ⟨fun h => k h.2, e⟩

/-- A move of the Ticker that is not its last: one sub-step is made, and the mutex stays held. -/
theorem tickerSubStep_more {k : Nat} {s : State} {u : SubStep} (h : s.bg.work[k % s.bg.work.length]? = some u)
    (hr : s.bg.work.eraseIdx (k % s.bg.work.length) ≠ []) :
    tickerSubStep k s =
      { applySubStep u s with
        bg := { s.bg with work := s.bg.work.eraseIdx (k % s.bg.work.length) }
        out := (beginEvent s).out
        freeIx := s.freeIx + 1 } := by
  have e : ∀ b, applySubStep u { beginEvent s with bg := b } =
      { applySubStep u s with bg := b, out := (beginEvent s).out, freeIx := s.freeIx + 1 } :=
    fun b => applySubStep_indep u s b _ _
  have h' : (beginEvent s).bg.work[k % (beginEvent s).bg.work.length]? = some u := h
  have n : (s.bg.work.eraseIdx (k % s.bg.work.length)).isEmpty = false := by simpa using hr
  unfold tickerSubStep
  simp only [h', e]
  simp only [beginEvent_bg, n]
  simp

/-- The Ticker's last move: the last sub-step is made and the mutex released. -/
theorem tickerSubStep_last {k : Nat} {s : State} {u : SubStep} (h : s.bg.work[k % s.bg.work.length]? = some u)
    (hr : s.bg.work.eraseIdx (k % s.bg.work.length) = []) :
    tickerSubStep k s =
      releaseMutex { applySubStep u s with
        bg := { s.bg with work := [] }
        out := (beginEvent s).out
        freeIx := s.freeIx + 1 } := by
  have e : ∀ b, applySubStep u { beginEvent s with bg := b } =
      { applySubStep u s with bg := b, out := (beginEvent s).out, freeIx := s.freeIx + 1 } :=
    fun b => applySubStep_indep u s b _ _
  have h' : (beginEvent s).bg.work[k % (beginEvent s).bg.work.length]? = some u := h
  unfold tickerSubStep
  simp only [h', e]
  simp only [beginEvent_bg, hr]
  simp

end Sys2Proof.Machine
end

