-- ==== Sys2Proof/Tests/Slice0.lean ====
section
/-! SUPPORT. The model's own tests: well-formedness, decoding, one step of each instruction with results taken from
95_test_vectors.md, and for each obligation a state and operands that meet its hypotheses. -/

namespace Sys2Proof.Tests

open Sys2Proof Sys2Proof.Machine Sys2Proof.Safety

/-! ### Small states -/

/-- `RESET(0x5A)` of 95_test_vectors.md. -/
def base : State := State.resetWith 0x5A#8

/-- `base` in the data phase at register `a`. -/
def at' (a : Reg) : State := { base with phase := .addressed, ap := a }

/-- Unlocked at `t`, with no measurement, at the present time `n`. -/
def unlockedAt (t n : Nat) (s : State) : State :=
  { s with
    regs := (s.regs.set 2 0x00#8).set 11 0x00#8
    lockst := .unlocked
    tUnlock := BitVec.ofNat 64 t
    now := BitVec.ofNat 64 n }

/-- A measurement in progress since `t`. -/
def measuringSince (t : Nat) (s : State) : State := { s with measst := .inProgress, tStart := BitVec.ofNat 64 t }

/-- Data ready, with T = 2345 and H = 5678. -/
def ready (s : State) : State := completeWith 2345#16 5678#16 s

/-- Free ticker mode. -/
def freeMode (s : State) : State := { s with cfg := { s.cfg with tickerMode := .free } }

/-- Torn mode, the mutex free. -/
def torn (s : State) : State := { s with cfg := { s.cfg with bgAtomic := false } }

/-- Torn mode, a lock() under way with all its sub-steps to come. -/
def locking (s : State) : State :=
  { torn s with bg := { mutex := .heldByTicker, work := lockSubSteps, mcDue := false } }

/-- The lock() of `locking` as a periodic TICK begins it: with a completion check owed. -/
def lockingByTick (s : State) : State := { locking s with bg := { (locking s).bg with mcDue := true } }

/-- A boundary at which nothing happens and it is BUS's turn. -/
def quiet : Boundary := State.quietBoundary

/-- What a test looks at in a next state. -/
def look {α : Type} (f : State → α) (o : Host.Outcome State Fault Refusal) : Option α :=
  match o with
  | .next t => some (f t)
  | .fault _ => none
  | .refused _ => none

/-! ### Well-formedness -/

theorem test_wf_refuses_a_plain_word : (Instr.reserved 0x1000#16).wf = false := by decide
theorem test_wf_refuses_kind_8 : (Instr.reserved 0x80FF#16).wf = false := by decide
theorem test_wf_accepts_kind_9 : (Instr.reserved 0x9000#16).wf = true := by decide
theorem test_wf_accepts_each_rsvd_bit :
    (Instr.reserved 0x0100#16).wf = true ∧ (Instr.reserved 0x2200#16).wf = true ∧ (Instr.reserved 0x3400#16).wf = true ∧
      (Instr.reserved 0x8800#16).wf = true := by decide

/-! ### Decoding (words written out from 30_encoding.md R85, R89, and from the table 2.1 of 95_test_vectors.md) -/

theorem test_decode_nop : decode 0b0000_0000_1111_1111#16 = .nop := by decide
theorem test_decode_wstart : decode 0b0001_0000_1010_0101#16 = .wstart := by decide
theorem test_decode_wbyte : decode 0b0010_0000_1010_1011#16 = .wbyte 0xAB#8 := by decide
theorem test_decode_rreq : decode 0b0011_0000_0000_0000#16 = .rreq := by decide
theorem test_decode_rcont : decode 0b0100_0000_1111_1111#16 = .rcont := by decide
theorem test_decode_stop : decode 0b0101_0000_0000_0000#16 = .stop := by decide
theorem test_decode_tick : decode 0b0110_0000_0000_0000#16 = .tick := by decide
theorem test_decode_chkto : decode 0b0111_0000_0000_0000#16 = .chkto := by decide
theorem test_decode_chkmc : decode 0b1000_0000_0000_0000#16 = .chkmc := by decide
theorem test_decode_rsvd_before_kind : decode 0b0010_1111_0000_1010#16 = .reserved 0x2F0A#16 := by decide
theorem test_decode_kind_f : decode 0b1111_0000_1111_1111#16 = .reserved 0xF0FF#16 := by decide
theorem test_decode_table_word : decodeTableWord 16 0x20AB = some (.wbyte 0xAB#8) := by decide

/-! ### One step of each instruction (95_test_vectors.md sections 2.3 to 2.6) -/

/-- P-26. -/
theorem test_nop : look (fun t => (t.regs, t.ap, t.phase, t.out.diag)) (exec .nop (at' 5)) =
    some (base.regs, 5, .addressed, .noDiag) := by decide
/-- P-2. -/
theorem test_wstart : look (fun t => (t.phase, t.ap)) (exec .wstart (at' 5)) = some (.awaitingAddress, 5) := by decide
/-- P-10. -/
theorem test_wbyte_start :
    look (fun t => (t.regs[1], t.measst, t.tStart, dataReady t, t.ap))
      (exec (.wbyte 0x01#8) (unlockedAt 0 1000 (at' 1))) = some (0x01#8, .inProgress, 1000#64, false, 2) := by decide
/-- P-8. -/
theorem test_wbyte_rejected : look (fun t => (t.regs[11], t.ap, t.out.diag)) (exec (.wbyte 0x00#8) (at' 11)) =
    some (0x01#8, 0, .roWrite) := by decide
/-- P-20. -/
theorem test_rreq : look (fun t => (t.out.rspValid, t.out.rspData, t.ap)) (exec .rreq base) =
    some (true, 0x42#8, 0) := by decide
/-- P-22. -/
theorem test_rcont_wraps : look (fun t => (t.out.rspValid, t.out.rspData, t.ap)) (exec .rcont (at' 11)) =
    some (true, 0x42#8, 0) := by decide
/-- P-24. -/
theorem test_stop : look (fun t => (t.phase, t.ap)) (exec .stop (at' 9)) = some (.idle, 9) := by decide
/-- Section 2.6: TICK at 49 reaches 50 and completes a measurement begun 500 ms before; here 549 reaches 550, begun at 1. -/
theorem test_tick_completes :
    look (fun t => (t.now, t.measst, dataReady t)) (exec .tick (measuringSince 1 (unlockedAt 0 549 base))) =
      some (550#64, .idle, true) := by decide
/-- 42_lock_controller.md R154: an unlock at 0 relocks at 6000. -/
theorem test_tick_relocks :
    look (fun t => (t.lockst, t.regs[2], t.regs[11])) (exec .tick (unlockedAt 0 5999 base)) =
      some (.locked, 0x02#8, 0x01#8) := by decide
/-- L-2. -/
theorem test_chkto_at_5000 : look (fun t => t.lockst) (exec .chkto (unlockedAt 0 5000 base)) = some .unlocked := by decide
/-- L-3 and L-6. -/
theorem test_chkto_at_5001 :
    look (fun t => (t.lockst, t.regs)) (exec .chkto (unlockedAt 0 5001 (ready base))) =
      some (.locked, base.regs) := by decide
/-- 43_measurement.md R171: 499 does not complete. -/
theorem test_chkmc_at_499 : look (fun t => t.measst) (exec .chkmc (measuringSince 100 (unlockedAt 0 599 base))) =
    some .inProgress := by decide
/-- R171: 500 completes. -/
theorem test_chkmc_at_500 :
    look (fun t => (t.measst, dataReady t)) (exec .chkmc (measuringSince 100 (unlockedAt 0 600 base))) =
      some (.idle, true) := by decide
/-- P-28. -/
theorem test_reserved : look (fun t => (t.regs, t.ap, t.out.diag)) (exec (decode 0x2111#16) (at' 7)) =
    some (base.regs, 7, .reservedEvent) := by decide
/-- The example of 43_measurement.md R172. -/
theorem test_complete_bytes :
    (completeWith 2345#16 5678#16 (measuringSince 0 (unlockedAt 0 500 base))).regs =
      #v[0x42#8, 0x00#8, 0x01#8, 0x29#8, 0x09#8, 0x16#8, 0x2E#8, 0x00#8, 0x00#8, 0x5A#8, 0x00#8, 0x00#8] := by decide
/-- L-9. -/
theorem test_unlock_250 :
    let t := unlock { base with now := 250#64 }
    (t.lockst, t.regs[2], t.regs[11], t.tUnlock, t.regs[3]) = (.unlocked, 0x00#8, 0x00#8, 250#64, 0xFF#8) := by decide
/-- The sub-steps of a lock() made in the order last, first, ... end in the locked state with the mutex free. -/
theorem test_substeps_release :
    (runTickerSubSteps [8, 0, 3, 1, 2, 0, 0, 0, 0] (locking (unlockedAt 0 6000 (ready base)))).regs = base.regs ∧
      (runTickerSubSteps [8, 0, 3, 1, 2, 0, 0, 0, 0] (locking (unlockedAt 0 6000 (ready base)))).bg.mutex = .free := by
  decide

/-- 70_reset_and_hazards.md R245, R246: of these words on offer to a block in Idle BUS sends neither the write-byte before the
WSTART nor the TICK nor the word with RSVD nonzero; TICKER, in periodic mode, sends the TICK alone. -/
theorem test_agents_send :
    busSends .idle [0x20AA#16, 0x1000#16, 0x6000#16, 0x2001#16, 0x2101#16, 0x5000#16] = [0x1000#16, 0x2001#16, 0x5000#16] ∧
      tickerSends .periodic [0x7000#16, 0x6000#16, 0x8000#16, 0x3000#16] = [0x6000#16] ∧
      tickerSends .free [0x7000#16, 0x6000#16, 0x8000#16, 0x9000#16] = [0x7000#16, 0x6000#16, 0x8000#16] := by decide
/-- R245: a reset cuts a write transaction off; its write-byte is not sent, the next transaction is. -/
theorem test_reset_withdraws :
    look (fun t => (t.phase, t.ports.busQ))
      (step { at' 7 with ports := { busQ := [0x2011#16, 0x1000#16], tmrQ := [], env := [{ quiet with rst := true }] } }) =
      some (.idle, [0x1000#16]) := by decide

/-! ### Witnesses: for each obligation with hypotheses, a state and operands that meet them, one for each clause -/

/-- A next state exists: what a hypothesis `exec i s = .next t` asks for. -/
abbrev Runs (o : Host.Outcome State Fault Refusal) : Prop := ∃ t, o = .next t

theorem witness_DecodeFollows :
    (0x2F0A#16).extractLsb' 8 4 ≠ 0#4 ∧ (0x8000#16).extractLsb' 8 4 = 0#4 ∧ (0x8000#16).extractLsb' 12 4 = 0x8#4 ∧
      (0x9000#16).extractLsb' 8 4 = 0#4 ∧ 9 ≤ ((0x9000#16).extractLsb' 12 4).toNat := by decide
theorem witness_DecodeFollows_kinds :
    ∀ k : BitVec 4, (k ++ 0#12).extractLsb' 8 4 = 0#4 ∧ (k ++ 0#12).extractLsb' 12 4 = k := by decide
theorem witness_DecodeOfEncode : (Instr.wbyte 0xFF#8).wf = true ∧ (Instr.reserved 0xFFFF#16).wf = true := by decide
theorem witness_EncodeOfDecode :
    ((0x80FF#16).extractLsb' 8 4 = 0#4 ∧ (0x80FF#16).extractLsb' 12 4 ≠ 2#4 ∧
      ((0x80FF#16).extractLsb' 12 4).toNat < 9) ∧
      ¬((0x9000#16).extractLsb' 8 4 = 0#4 ∧ (0x9000#16).extractLsb' 12 4 ≠ 2#4 ∧
        ((0x9000#16).extractLsb' 12 4).toNat < 9) := by decide
theorem witness_DataIsRead :
    ((0x1000#16).extractLsb' 8 8 = (0x10FF#16).extractLsb' 8 8 ∧ (0x1000#16).extractLsb' 8 8 ≠ 0x20#8) ∧
      (0x20FF#16).extractLsb' 8 8 = 0x20#8 ∧ base.phase ≠ .addressed ∧ (at' 10).phase = .addressed ∧
      (at' 10).ap = 10 := by decide
theorem witness_WbyteOutside :
    base.phase = .idle ∧ ({ base with phase := .awaitingAddress } : State).phase = .awaitingAddress := by decide
theorem witness_ReadOnly : ∀ a ∈ ([0, 2, 3, 4, 5, 6, 9, 11] : List Reg), (at' a).phase = .addressed ∧ (at' a).ap = a := by
  decide
theorem witness_Passthrough : (at' 7).phase = .addressed ∧ (at' 7).ap = 7 ∧ (at' 8).ap = 8 := by decide
theorem witness_Ctrl1_plain : (at' 1).phase = .addressed ∧ (at' 1).ap = 1 ∧ (0xFE#8)[0] = false := by decide
theorem witness_Ctrl1_locked :
    (at' 1).phase = .addressed ∧ (at' 1).ap = 1 ∧ (0x01#8)[0] = true ∧ held (at' 1) = false ∧
      (at' 1).lockst = .locked := by decide
theorem witness_Ctrl1_busy :
    let s := measuringSince 0 (unlockedAt 0 10 (at' 1))
    s.phase = .addressed ∧ s.ap = 1 ∧ (0xFF#8)[0] = true ∧ held s = false ∧ s.lockst = .unlocked ∧
      s.measst = .inProgress := by decide
theorem witness_Ctrl1_starts :
    let s := unlockedAt 0 10 (at' 1)
    s.phase = .addressed ∧ s.ap = 1 ∧ (0x01#8)[0] = true ∧ held s = false ∧ s.lockst = .unlocked ∧ s.measst = .idle := by
  decide
theorem witness_Unlock :
    (at' 10).phase = .addressed ∧ (at' 10).ap = 10 ∧ 0x5B#8 ≠ (at' 10).regs[9] ∧ 0x5A#8 = (at' 10).regs[9] ∧
      held (at' 10) = false := by decide
theorem witness_EveryDataByte :
    (Runs (exec (.wbyte 0x00#8) (at' 11)) ∧ (at' 11).phase = .addressed) ∧
      Runs (exec (.wbyte 0xFF#8) base) ∧ base.phase ≠ .addressed :=
  ⟨⟨⟨_, rfl⟩, rfl⟩, ⟨_, rfl⟩, by decide⟩
theorem witness_Phase : Runs (exec (.wbyte 0x0C#8) base) ∧ base.phase ≠ .addressed := ⟨⟨_, rfl⟩, by decide⟩
theorem witness_OnlyReads : Runs (exec .rreq base) ∧ Runs (exec .rcont base) ∧ Runs (exec .stop base) ∧
    held base = false := ⟨⟨_, rfl⟩, ⟨_, rfl⟩, ⟨_, rfl⟩, by decide⟩
theorem witness_Diagnostics : Runs (exec (.reserved 0x9000#16) base) ∧ Runs (exec (.wbyte 0x01#8) (at' 1)) :=
  ⟨⟨_, rfl⟩, ⟨_, rfl⟩⟩
theorem witness_WritePointer : held base = false := by decide
theorem witness_BurstUnlocks :
    (at' 10).phase = .addressed ∧ (at' 10).ap = 10 ∧ (at' 10).measst = .idle ∧ (0x01#8)[0] = true ∧
      held (at' 10) = false := by decide
theorem witness_Chkto :
    base.cfg.bgAtomic = true ∧
      (RelockDueAt (unlockedAt 0 5001 base).now (unlockedAt 0 5001 base)) ∧
      ¬RelockDueAt (unlockedAt 0 5000 base).now (unlockedAt 0 5000 base) := by decide
theorem witness_Chkmc :
    base.cfg.bgAtomic = true ∧
      (CompletionDueAt 600#64 (measuringSince 100 (unlockedAt 0 600 base))) ∧
      ¬CompletionDueAt 599#64 (measuringSince 100 (unlockedAt 0 599 base)) := by decide
theorem witness_PeriodicTick_locks :
    let s := unlockedAt 0 5999 base
    s.cfg.bgAtomic = true ∧ s.cfg.tickerMode = .periodic ∧ (s.now + 1).toNat % 1000 = 0 ∧ RelockDueAt (s.now + 1) s := by
  decide
theorem witness_PeriodicTick_completes :
    let s := measuringSince 500 (unlockedAt 0 999 base)
    ¬((s.now + 1).toNat % 1000 = 0 ∧ RelockDueAt (s.now + 1) s) ∧ (s.now + 1).toNat % 50 = 0 ∧
      CompletionDueAt (s.now + 1) s := by decide
theorem witness_PeriodicTick_plain :
    let s := unlockedAt 0 4999 base
    ¬((s.now + 1).toNat % 1000 = 0 ∧ RelockDueAt (s.now + 1) s) ∧
      ¬((s.now + 1).toNat % 50 = 0 ∧ CompletionDueAt (s.now + 1) s) := by decide
theorem witness_FreeTick :
    let s := { freeMode base with now := 49#64 }
    let u := { freeMode base with now := 50#64 }
    (s.cfg.tickerMode = .free ∧ held s = false ∧ (s.now + 1 - s.lastTo).toNat ≤ 1000 ∧ (s.now + 1 - s.lastMc).toNat ≤ 50) ∧
      ¬((u.now + 1 - u.lastTo).toNat ≤ 1000 ∧ (u.now + 1 - u.lastMc).toNat ≤ 50) := by decide
theorem witness_LockIdempotent : BlockInv base ∧ base.lockst = .locked := by decide
theorem witness_Order : base.cfg.bgAtomic = true := rfl
theorem witness_OnlyTick : Runs (exec .tick base) ∧ Runs (exec .rreq base) ∧ base.now.toNat + 1 < 2 ^ 64 :=
  ⟨⟨_, rfl⟩, ⟨_, rfl⟩, by decide⟩
theorem witness_Registers :
    (Runs (exec (.wbyte 0x11#8) (at' 7)) ∧
      look (fun t => getReg t 7) (exec (.wbyte 0x11#8) (at' 7)) ≠ some (getReg (at' 7) 7)) ∧
    (Runs (exec (.wbyte 0x5A#8) (at' 10)) ∧
      look (fun t => (getReg t 2, getReg t 11)) (exec (.wbyte 0x5A#8) (at' 10)) = some (0x00#8, 0x00#8)) ∧
    (Runs (exec .chkto (unlockedAt 0 5001 (ready base))) ∧
      look (fun t => getReg t 3) (exec .chkto (unlockedAt 0 5001 (ready base))) ≠
        some (getReg (unlockedAt 0 5001 (ready base)) 3)) :=
  ⟨⟨⟨_, rfl⟩, by decide⟩, ⟨⟨_, rfl⟩, by decide⟩, ⟨_, rfl⟩, by decide⟩
theorem witness_Registers_torn :
    let s := locking (unlockedAt 0 6000 (ready base))
    let u := { s with bg := { s.bg with work := completeSubSteps 2345#16 5678#16 } }
    (held s = true ∧ getReg (tickerSubStep 3 s) 3 ≠ getReg s 3 ∧ s.bg.work.Sublist lockSubSteps) ∧
      held u = true ∧ getReg (tickerSubStep 0 u) 3 = 0x29#8 ∧
        u.bg.work.Sublist (completeSubSteps 2345#16 5678#16) :=
  ⟨⟨by decide, by decide, List.Sublist.refl _⟩, by decide, by decide, List.Sublist.refl _⟩
theorem witness_Lock_unlocks :
    (at' 10).cfg.bgAtomic = true ∧ (at' 10).lockst = .locked ∧ InvokesUnlock (.wbyte 0x5A#8) (at' 10) ∧
      ¬InvokesUnlock (.wbyte 0x5B#8) (at' 10) ∧ Runs (exec (.wbyte 0x5A#8) (at' 10)) ∧ Runs (exec (.wbyte 0x5B#8) (at' 10)) :=
  ⟨rfl, rfl, by decide, by decide, ⟨_, rfl⟩, ⟨_, rfl⟩⟩
theorem witness_Lock_locks :
    let s := unlockedAt 0 5999 base
    s.lockst = .unlocked ∧ RelockDueAt (s.now + 1) s ∧ Runs (exec .tick s) := ⟨rfl, by decide, ⟨_, rfl⟩⟩
theorem witness_Meas_idle : (unlockedAt 0 0 (at' 1)).measst = .idle ∧ Runs (exec (.wbyte 0x01#8) (unlockedAt 0 0 (at' 1))) ∧
    InvokesStart (.wbyte 0x01#8) (unlockedAt 0 0 (at' 1)) := ⟨rfl, ⟨_, rfl⟩, ⟨0x01#8, ⟨rfl, rfl⟩, rfl, by decide⟩⟩
theorem witness_Meas_refused :
    Runs (exec (.wbyte 0x01#8) (at' 1)) ∧ (at' 1).measst = .idle ∧
      look (fun t => t.measst) (exec (.wbyte 0x01#8) (at' 1)) = some .idle := ⟨⟨_, rfl⟩, rfl, rfl⟩
theorem witness_Meas_inProgress :
    let s := measuringSince 100 (unlockedAt 0 600 base)
    s.measst = .inProgress ∧ CompletionDueAt s.now s ∧ Runs (exec .chkmc s) := ⟨rfl, by decide, ⟨_, rfl⟩⟩
theorem witness_StepMirror : base.cfg.bgAtomic = true ∧ LockMirrored base ∧ Runs (step base) := ⟨rfl, by decide, ⟨_, rfl⟩⟩
theorem witness_EventInv :
    (BlockInv base ∧ Runs (exec .tick base)) ∧ BlockInv (measuringSince 100 (unlockedAt 0 600 base)) ∧
      BlockInv (ready (unlockedAt 0 600 base)) := ⟨⟨by decide, ⟨_, rfl⟩⟩, by decide, by decide⟩
theorem witness_StepInv_free : BoundaryInv base ∧ Runs (step base) :=
  ⟨⟨fun _ => by decide, fun h => absurd h (by decide)⟩, ⟨_, rfl⟩⟩
theorem witness_StepInv_held :
    let s := { locking (unlockedAt 0 6000 base) with ports := { busQ := [0x3000#16], tmrQ := [], env := [quiet] } }
    BoundaryInv s ∧ Runs (step s) :=
  ⟨⟨fun h => absurd h (by decide), fun _ => ⟨by decide, .inl (List.Sublist.refl _), by decide⟩⟩, ⟨_, rfl⟩⟩
theorem witness_Stale : Runs (exec .tick base) ∧ exec .tick (locking base) = .fault .mutexHeld := ⟨⟨_, rfl⟩, rfl⟩
/-- The read idiom of R136 for LOCK_STATUS, after a TICK. -/
theorem witness_BurstRead :
    let s := ready (unlockedAt 0 600 base)
    let es := [.tick, .wstart, .wbyte 0x0B#8, .rreq]
    s.cfg.bgAtomic = true ∧ BlockInv s ∧ dataReady s = true ∧ CallFree es s ∧
      ∃ u, runEvents es s = .next u ∧ getReg u Reg.lockStatus = 0x00#8 := by
  refine ⟨rfl, by decide, by decide, ?_, _, rfl, rfl⟩
  have n : ∀ (i : Instr) (v : State), (∀ d, i ≠ .wbyte d) ∨ v.phase ≠ .addressed →
      ¬InvokesStart i v ∧ ¬InvokesUnlock i v := by
    rintro i v (h | h)
    · exact ⟨fun ⟨_, k, _⟩ => h _ k.1, fun k => h _ k.1.1⟩
    · exact ⟨fun ⟨_, k, _⟩ => h k.2, fun k => h k.1.2⟩
  refine ⟨(n _ _ (.inl (by simp))).1, (n _ _ (.inl (by simp))).2, fun t ht => ?_⟩
  injection ht with ht
  refine ⟨(n _ _ (.inl (by simp))).1, (n _ _ (.inl (by simp))).2, fun u hu => ?_⟩
  injection hu with hu
  refine ⟨(n _ _ (.inr ?_)).1, (n _ _ (.inr ?_)).2, fun v hv => ?_⟩
  · rw [← hu]; simp [setPhase]
  · rw [← hu]; simp [setPhase]
  exact ⟨(n _ _ (.inl (by simp))).1, (n _ _ (.inl (by simp))).2, fun _ _ => trivial⟩
theorem witness_PeriodicRelock :
    let s := unlockedAt 0 5999 base
    s.cfg.bgAtomic = true ∧ s.cfg.tickerMode = .periodic ∧ noSeparateCheck s.cfg .tick = true ∧
      s.now.toNat + 1 < 2 ^ 64 ∧ Runs (exec .tick s) ∧ s.tUnlock.toNat ≤ s.now.toNat ∧
      s.now.toNat < relockTime s.tUnlock.toNat := ⟨rfl, rfl, rfl, by decide, ⟨_, rfl⟩, by decide, by decide⟩
theorem witness_PeriodicCompletion :
    let s := measuringSince 1 (unlockedAt 0 549 base)
    s.measst = .inProgress ∧ Runs (exec .tick s) ∧ s.tStart.toNat ≤ s.now.toNat ∧
      s.now.toNat < completionTime s.tStart.toNat := ⟨rfl, ⟨_, rfl⟩, by decide, by decide⟩
theorem witness_TicksRelock :
    let s := unlockedAt 3000 3000 base
    s.cfg.bgAtomic = true ∧ s.cfg.tickerMode = .periodic ∧ s.lockst = .unlocked ∧ s.tUnlock = s.now ∧
      s.now.toNat + 6000 < 2 ^ 64 ∧ relockTime s.now.toNat = s.now.toNat + 6000 := by decide
theorem witness_TicksComplete :
    let s := measuringSince 4800 (unlockedAt 0 4800 base)
    s.lockst = .unlocked ∧ s.measst = .inProgress ∧ s.tStart = s.now ∧ s.tUnlock.toNat ≤ s.now.toNat ∧
      s.now.toNat + 500 < relockTime s.tUnlock.toNat ∧ completionTime s.now.toNat = s.now.toNat + 500 := by decide
theorem witness_FreeDeadlines :
    let s := { freeMode (unlockedAt 0 6000 base) with lastTo := 5000#64, lastMc := 6000#64 }
    s.cfg.bgAtomic = true ∧ s.cfg.tickerMode = .free ∧ s.now.toNat + 1 < 2 ^ 64 ∧ Runs (exec .chkto s) ∧
      (s.lastTo.toNat ≤ s.now.toNat ∧ s.now.toNat ≤ s.lastTo.toNat + 1000 ∧ s.lastMc.toNat ≤ s.now.toNat ∧
        s.now.toNat ≤ s.lastMc.toNat + 50 ∧ s.tUnlock.toNat ≤ s.now.toNat ∧ s.lastTo.toNat ≤ s.tUnlock.toNat + 5000) :=
  ⟨rfl, rfl, by decide, ⟨_, rfl⟩, by decide⟩
theorem witness_FreeDeadlines_measuring :
    let s := { measuringSince 100 (freeMode (unlockedAt 0 649 base)) with lastTo := 0#64, lastMc := 599#64 }
    s.now.toNat ≤ s.lastMc.toNat + 50 ∧ s.tStart.toNat ≤ s.now.toNat ∧ s.lastMc.toNat ≤ s.tStart.toNat + 499 ∧
      Runs (exec .chkmc s) := ⟨by decide, by decide, by decide, ⟨_, rfl⟩⟩
theorem witness_TornChecks :
    held (locking base) = true ∧ (torn base).cfg.bgAtomic = false ∧ (torn base).bg.mutex = .free ∧
      RelockDueAt 5001#64 (torn (unlockedAt 0 5001 base)) ∧ ¬RelockDueAt 5000#64 (torn (unlockedAt 0 5000 base)) ∧
      CompletionDueAt 600#64 (torn (measuringSince 100 (unlockedAt 0 600 base))) ∧
      ¬CompletionDueAt 599#64 (torn (measuringSince 100 (unlockedAt 0 599 base))) := by decide
theorem witness_TornTick :
    let s := torn (unlockedAt 0 5999 base)
    let u := torn (measuringSince 500 (unlockedAt 0 999 base))
    (s.bg.mutex = .free ∧ s.cfg.tickerMode = .periodic ∧ (s.now + 1).toNat % 1000 = 0 ∧ RelockDueAt (s.now + 1) s) ∧
      (¬RelockDueAt (u.now + 1) u ∧ (u.now + 1).toNat % 50 = 0 ∧ CompletionDueAt (u.now + 1) u) ∧
      ¬(((torn base).now + 1).toNat % 50 = 0) := by decide
theorem witness_OneSubStep :
    let s := locking base
    let u := { s with bg := { s.bg with work := [.setMeasState .idle] } }
    let v := { measuringSince 0 (unlockedAt 0 6000 (lockingByTick base)) with
      bg := { mutex := .heldByTicker, work := [.clrStatusBit 0], mcDue := true } }
    (held s = true ∧ s.bg.work ≠ [] ∧ 8 < s.bg.work.length ∧ 1 < s.bg.work.length) ∧
      (held u = true ∧ u.bg.work.length = 1 ∧
        ¬(u.bg.mcDue = true ∧ CompletionDueAt u.now (applySubStep (.setMeasState .idle) u))) ∧
      (held v = true ∧ v.bg.work.length = 1 ∧ v.bg.mcDue = true ∧
        CompletionDueAt v.now (applySubStep (.clrStatusBit 0) v)) := by decide
theorem witness_OneSubStep_steps :
    let s := { locking base with ports := { busQ := [0x3000#16], tmrQ := [], env := [{ quiet with busMoves := false }] } }
    let u := { locking base with ports := { busQ := [], tmrQ := [], env := [quiet] } }
    ((nextBoundary s).rst = false ∧ held s = true ∧ (nextBoundary s).busMoves = false) ∧
      ((nextBoundary u).rst = false ∧ held u = true ∧ takeBus (arrive (nextBoundary u) u) = none) :=
  ⟨⟨rfl, rfl, rfl⟩, rfl, rfl, rfl⟩
theorem witness_OneSubStep_values :
    let s := { locking (unlockedAt 0 6000 (ready base)) with
      ports := { busQ := [], tmrQ := [], env := [{ quiet with pick := 3 }] } }
    s.cfg.bgAtomic = false ∧ (nextBoundary s).rst = false ∧ Runs (step s) ∧
      look (fun t => getReg t 3) (step s) ≠ some (getReg s 3) := ⟨rfl, rfl, ⟨_, rfl⟩, by decide⟩
theorem witness_SubSteps_lock :
    (locking base).bg.work = lockSubSteps ∧ (lockingByTick base).bg.work = lockSubSteps ∧
      (lockingByTick base).bg.mcDue = true ∧ [8, 0, 0, 0, 0, 0, 0, 0, 0].length = lockSubSteps.length := by decide
theorem witness_SubSteps_complete :
    (completeSubSteps 2345#16 5678#16).length = [5, 4, 3, 2, 1, 0].length ∧
      ∃ temp humid, completeSubSteps 2345#16 5678#16 = completeSubSteps temp humid := ⟨rfl, _, _, rfl⟩
theorem witness_MutexReleased :
    (held (locking base) = true ∧ (locking base).bg.work ≠ [] ∧ (locking base).bg.mcDue = false ∧
      [0, 0, 0, 0, 0, 0, 0, 0].length < (locking base).bg.work.length ∧
      [0, 0, 0, 0, 0, 0, 0, 0, 0].length = (locking base).bg.work.length) ∧
    (held (lockingByTick base) = true ∧ (lockingByTick base).bg.mcDue = true ∧
      .setMeasState .inProgress ∉ (lockingByTick base).bg.work ∧
      .setMeasState .idle ∈ (lockingByTick base).bg.work) := by decide
theorem witness_CallsHeld :
    let s := { locking (at' 10) with ports := { busQ := [0x205A#16], tmrQ := [], env := [quiet] } }
    held s = true ∧ s.cfg.busDrop = false ∧ InvokesUnlock (.wbyte 0x5A#8) s ∧ decode 0x205A#16 = .wbyte 0x5A#8 ∧
      s.initError = none ∧ s.ports.busQ = [0x205A#16] ∧ s.ports.env = [quiet] ∧ quiet.rst = false ∧
      quiet.busMoves = true := by decide
theorem witness_BusDrop :
    let s := locking (at' 1)
    held s = true ∧ InvokesStart (.wbyte 0x01#8) s ∧ s.cfg.busDrop = false ∧
      ({ s with cfg := { s.cfg with busDrop := true } } : State).cfg.busDrop = true :=
  ⟨by decide, ⟨0x01#8, ⟨rfl, rfl⟩, rfl, by decide⟩, rfl, rfl⟩
theorem witness_PlainBus :
    let s := { locking base with ports := { busQ := [0x3000#16], tmrQ := [], env := [quiet] } }
    held s = true ∧ s.initError = none ∧ s.ports.busQ = [0x3000#16] ∧ s.ports.env = [quiet] ∧ quiet.rst = false ∧
      quiet.busMoves = true ∧ decode 0x3000#16 = .rreq ∧ ¬InvokesUnlock .rreq s ∧ ¬InvokesStart .rreq s :=
  ⟨by decide, rfl, rfl, rfl, rfl, rfl, by decide, by decide, fun ⟨_, k, _⟩ => by cases k.1⟩
theorem witness_StepRuns :
    let s := { base with ports := { busQ := [0x3000#16], tmrQ := [0x6000#16], env := [quiet] } }
    ((nextBoundary s).rst = false ∧ held s = false ∧ ∃ u, fetchEvent (arrive (nextBoundary s) s) = some (0x3000#16, u)) ∧
      ((nextBoundary base).rst = false ∧ fetchEvent (arrive (nextBoundary base) base) = none) :=
  ⟨⟨rfl, by decide, _, rfl⟩, rfl, rfl⟩
theorem witness_Placed :
    held base = false ∧ held (locking base) = true ∧ (locking base).initError = none ∧
      exec (decode (BitVec.ofNat 16 0x3000)) (locking base) ≠ .fault .mutexHeld := by
  refine ⟨by decide, by decide, rfl, ?_⟩
  have : decode (BitVec.ofNat 16 0x3000) = .rreq := by decide
  rw [this]
  intro h; cases h
theorem witness_Arbiter :
    let s := { base with ports := { busQ := [0x3000#16], tmrQ := [0x6000#16], env := [] } }
    let u := { base with ports := { busQ := [], tmrQ := [0x6000#16], env := [] } }
    (s.initError = none ∧ s.ports.busQ = [0x3000#16]) ∧ u.ports.busQ = [] ∧ u.ports.tmrQ = [0x6000#16] := by decide
theorem witness_Conforming :
    let s := { base with ports := { busQ := [0x3000#16], tmrQ := [0x6000#16], env := [quiet] } }
    let u := { base with ports := { busQ := [], tmrQ := [0x6000#16], env := [quiet] } }
    (Conforming s ∧ Runs (step s) ∧ ∃ v, fetchEvent (arrive (nextBoundary s) s) = some (0x3000#16, v)) ∧
      (Conforming u ∧ ∃ v, fetchEvent (arrive (nextBoundary u) u) = some (0x6000#16, v)) :=
  ⟨⟨by decide, ⟨_, rfl⟩, _, rfl⟩, by decide, _, rfl⟩
theorem witness_FailedBlock :
    let s := { base with initError := some 1, ports := { busQ := [0x3000#16], tmrQ := [0x6000#16], env := [quiet] } }
    (s.initError.isSome = true ∧ (nextBoundary s).rst = false ∧ Runs (step s)) ∧ s.lockst = .locked ∧ s.measst = .idle ∧
      held s = false ∧ tickerSends s.cfg.tickerMode s.ports.tmrQ = s.ports.tmrQ ∧ Runs (exec .tick s) :=
  ⟨⟨rfl, rfl, ⟨_, rfl⟩⟩, rfl, rfl, rfl, by decide, ⟨_, rfl⟩⟩
theorem witness_AssertedReset :
    let s := { base with ports := { busQ := [], tmrQ := [], env := [{ quiet with rst := true }] } }
    (nextBoundary s).rst = true ∧ held s = false := ⟨rfl, rfl⟩
theorem witness_NeverStops : Runs (step base) ∧ base.cfg = Config.hardware := ⟨⟨_, rfl⟩, rfl⟩

end Sys2Proof.Tests
end

/-! PROOFS. The family of 10_state.md: what an event does to registers, LOCKST and MEASST (`Effect`), the invariants it
keeps, the stamps it does not read, time, and the writers of each register. -/

namespace Sys2Proof.Proofs

open Sys2Proof.Machine Sys2Proof.Safety

variable {i : Instr} {s s' t u : State}

/-! ### What an event does to what the invariants read -/

/-- Two states agree in the registers, LOCKST and MEASST, which are all that the invariants R43 to R48 speak of. -/
structure SameDevice (t u : State) : Prop where
  regs : t.regs = u.regs
  lockst : t.lockst = u.lockst
  measst : t.measst = u.measst

theorem SameDevice.getReg (h : SameDevice t u) (a : Reg) : getReg t a = getReg u a := getReg_congr h.regs a

/-- The invariants speak of read-only registers, LOCKST and MEASST only. -/
theorem lockMirrored_congr (hr : ∀ a, isReadOnly a = true → getReg t a = getReg u a) (hl : t.lockst = u.lockst)
    (hu : LockMirrored u) : LockMirrored t := by
  simpa only [LockMirrored, lockedFlag, hr Reg.status rfl, hr Reg.lockStatus rfl, hl] using hu

theorem blockInv_congr (hr : ∀ a, isReadOnly a = true → getReg t a = getReg u a) (hl : t.lockst = u.lockst)
    (hm : t.measst = u.measst) (hu : BlockInv u) : BlockInv t := by
  simpa only [BlockInv, WhoAmIFixed, LockMirrored, LockedForced, BusyUnlocked, ValuesInRange, StatusLegal, lockedFlag,
    dataReady, temperature, humidity, hr Reg.whoAmI rfl, hr Reg.status rfl, hr Reg.tempL rfl, hr Reg.tempH rfl,
    hr Reg.humidH rfl, hr Reg.humidL rfl, hr Reg.lockStatus rfl, hl, hm] using hu

theorem SameDevice.lockMirrored (h : SameDevice t u) : LockMirrored u → LockMirrored t :=
  lockMirrored_congr (fun a _ => h.getReg a) h.lockst

theorem SameDevice.blockInv (h : SameDevice t u) : BlockInv u → BlockInv t :=
  blockInv_congr (fun a _ => h.getReg a) h.lockst h.measst

/-- The state in which start() leaves an Unlocked, Idle block (43_measurement.md R170). -/
def startedState (s : State) : State := clrStatusBit 0 { s with measst := .inProgress, tStart := s.now }

@[simp] theorem startedState_lockst : (startedState s).lockst = s.lockst := rfl
@[simp] theorem startedState_measst : (startedState s).measst = .inProgress := rfl
@[simp] theorem lockedState_lockst : (lockedState s).lockst = .locked := rfl
@[simp] theorem lockedState_measst : (lockedState s).measst = .idle := rfl
@[simp] theorem completedState_lockst (x y : BitVec 16) : (completedState x y s).lockst = s.lockst := rfl
@[simp] theorem completedState_measst (x y : BitVec 16) : (completedState x y s).measst = .idle := rfl

theorem getReg_startedState (s : State) (a : Reg) :
    getReg (startedState s) a = if a = 2 then getReg s 2 &&& 0xFE#8 else getReg s a := by
  by_cases h : a = 2
  · simp [startedState, h]; rfl
  · simp [startedState, h, Ne.symm h]; rfl

/-- The six things an event that answers a next state can have done to registers, LOCKST and MEASST, in any mode:
nothing; a plain store; unlock(); an accepted start(); and, by a timer event of atomic mode, lock() or complete(). -/
inductive Effect (i : Instr) (s t : State) : Prop
  | nothing (same : SameDevice t s)
  | stores (d : Byte) (data : IsDataByte i s d) (writable : isReadOnly s.ap = false)
      (same : SameDevice t (setReg s.ap d s))
  | unlocks (call : InvokesUnlock i s) (same : SameDevice t (unlock (setReg 10 (getReg s 9) s)))
  | starts (d : Byte) (data : IsDataByte i s d) (ap : s.ap = 1) (bit : d[0] = true) (unlocked : s.lockst = .unlocked)
      (idle : s.measst = .idle) (same : SameDevice t (startedState (setReg 1 d s)))
  | locks (atomic : s.cfg.bgAtomic = true) (due : TimerLocks i s) (same : SameDevice t (lockedState s))
  | completes (atomic : s.cfg.bgAtomic = true) (due : TimerCompletes i s) (temp humid : BitVec 16)
      (tempOk : TempInRange temp) (humidOk : HumidInRange humid) (same : SameDevice t (completedState temp humid s))

/-- Whatever an event answers, it has one of the six effects. -/
theorem exec_effect (h : exec i s = .next t) : Effect i s t := by
  by_cases hi : i = .tick ∨ i = .chkto ∨ i = .chkmc
  · obtain ⟨hr, hl, hm, -⟩ | ⟨hat, hdue, hr, hl, hm, -⟩ | ⟨hat, -, hdue, x, y, hx, hy, hr, hl, hm, -⟩ :=
      timer_shape i s t hi h
    · exact .nothing ⟨hr, hl, hm⟩
    · exact .locks hat hdue ⟨hr, hl, hm⟩
    · exact .completes hat hdue x y hx hy ⟨hr, hl, hm⟩
  · obtain ⟨-, -, -, -, -, -, -, ⟨hr, hl, hm, -⟩ | ⟨d, hd, hw, hr, hl, hm, -⟩ | ⟨-, hc, hr, hl, hm, -⟩ |
      ⟨-, ⟨d, hd, hap, hb⟩, hu, hidle, ⟨d', hd', hr⟩, hl, hm, -⟩⟩ := bus_shape i s t hi h
    · exact .nothing ⟨hr, hl, hm⟩
    · exact .stores d hd hw ⟨hr, hl, hm⟩
    · exact .unlocks hc ⟨by simpa [getReg] using hr, hl, hm⟩
    · obtain rfl : d' = d := Instr.wbyte.inj (hd'.1.symm.trans hd.1)
      exact .starts d' hd hap hb hu hidle ⟨by simpa [startedState, getReg] using hr, hl, hm⟩

/-! ### The two status flags after each operation -/

@[simp] theorem lockedFlag_lockedState : lockedFlag (lockedState s) = true := by
  simp [lockedFlag, getReg_lockedState]

@[simp] theorem dataReady_lockedState : dataReady (lockedState s) = false := by
  simp [dataReady, getReg_lockedState]

@[simp] theorem lockedFlag_completedState (x y : BitVec 16) : lockedFlag (completedState x y s) = lockedFlag s := by
  simp [lockedFlag, getReg_completedState]

@[simp] theorem lockedFlag_unlock : lockedFlag (unlock s) = false := by simp [lockedFlag, getReg_unlock]

@[simp] theorem dataReady_unlock : dataReady (unlock s) = dataReady s := by simp [dataReady, getReg_unlock]

@[simp] theorem lockedFlag_startedState : lockedFlag (startedState s) = lockedFlag s := by
  simp [lockedFlag, getReg_startedState]

@[simp] theorem dataReady_startedState : dataReady (startedState s) = false := by
  simp [dataReady, getReg_startedState]

/-! ### Each operation keeps the invariants -/

/-- A plain store writes none of the registers that the invariants speak of. -/
theorem getReg_store_readOnly {a b : Reg} {v : Byte} (hw : isReadOnly a = false) (hb : isReadOnly b = true) :
    getReg (setReg a v s) b = getReg s b := by
  rw [getReg_setReg, if_neg]
  rintro rfl
  simp [hw] at hb

theorem lockMirrored_store {a : Reg} {v : Byte} (hw : isReadOnly a = false) :
    LockMirrored s → LockMirrored (setReg a v s) :=
  lockMirrored_congr (fun _ => getReg_store_readOnly hw) rfl

theorem blockInv_store {a : Reg} {v : Byte} (hw : isReadOnly a = false) : BlockInv s → BlockInv (setReg a v s) :=
  blockInv_congr (fun _ => getReg_store_readOnly hw) rfl rfl

theorem lockMirrored_unlock : LockMirrored (unlock s) := by simp [LockMirrored, getReg_unlock]

theorem lockMirrored_lockedState : LockMirrored (lockedState s) := by
  simp [LockMirrored, getReg_lockedState]

theorem lockMirrored_startedState (h : LockMirrored s) : LockMirrored (startedState s) :=
  ⟨lockedFlag_startedState.trans h.1, (getReg_startedState s Reg.lockStatus).trans h.2⟩

theorem lockMirrored_completedState {x y : BitVec 16} (h : LockMirrored s) : LockMirrored (completedState x y s) :=
  ⟨(lockedFlag_completedState x y).trans h.1, (getReg_completedState x y s Reg.lockStatus).trans h.2⟩

/-- Every event keeps the lock mirror, in every mode (R44). -/
theorem exec_keeps_lockMirrored (hs : LockMirrored s) (h : exec i s = .next t) : LockMirrored t := by
  cases exec_effect h with
  | nothing same => exact same.lockMirrored hs
  | stores d _ hw same => exact same.lockMirrored (lockMirrored_store hw hs)
  | unlocks _ same => exact same.lockMirrored lockMirrored_unlock
  | starts d _ _ _ _ _ same => exact same.lockMirrored (lockMirrored_startedState (lockMirrored_store rfl hs))
  | locks _ _ same => exact same.lockMirrored lockMirrored_lockedState
  | completes _ _ x y _ _ same => exact same.lockMirrored (lockMirrored_completedState hs)

theorem lockMirrored_reset (ok : Bool) : LockMirrored (withdrawCutOff (resetBlock ok s)) := by
  have hstatus : getReg (withdrawCutOff (resetBlock ok s)) Reg.status = 0x02#8 := rfl
  exact ⟨by rw [lockedFlag, hstatus]; rfl, rfl⟩

/-- Settles O34: a step of atomic mode is a reset or an event, behind arrivals that leave registers and LOCKST alone. -/
theorem stepKeepsTheLockMirror : Obligations.StepKeepsTheLockMirror := by
  intro s t hat hs h
  obtain ⟨-, rfl⟩ | ⟨-, hheld, -⟩ | ⟨-, -, w, q, -, hx⟩ | ⟨-, -, w, q, -, hx⟩ | ⟨-, -, hx⟩ := step_cases h
  · exact lockMirrored_reset _
  · exact absurd hheld (by simp [held_of_atomic hat])
  all_goals exact exec_keeps_lockMirrored (by exact hs) hx

theorem blockInv_unlock (h : BlockInv s) : BlockInv (unlock s) := by
  obtain ⟨hwho, -, -, hbusy, hvalues, hstatus⟩ := h
  refine ⟨?_, lockMirrored_unlock, nofun, ?_, ?_, ?_⟩
  · simpa [WhoAmIFixed, getReg_unlock] using hwho
  · exact fun hm => ⟨rfl, by simpa using (hbusy hm).2⟩
  · simpa [ValuesInRange, temperature, humidity, getReg_unlock] using hvalues
  · simp only [StatusLegal, getReg_unlock, if_true]
    rcases hstatus with e | e | e <;> simp [e]

theorem blockInv_startedState (hu : s.lockst = .unlocked) (h : BlockInv s) : BlockInv (startedState s) := by
  obtain ⟨hwho, hmirror, -, -, hvalues, hstatus⟩ := h
  refine ⟨?_, lockMirrored_startedState hmirror, ?_, fun _ => ⟨hu, dataReady_startedState⟩, ?_, ?_⟩
  · simpa [WhoAmIFixed, getReg_startedState] using hwho
  · intro hl
    exact absurd (hl.symm.trans hu) (by decide)
  · simpa [ValuesInRange, temperature, humidity, getReg_startedState] using hvalues.2
  · simp only [StatusLegal, getReg_startedState, if_true]
    rcases hstatus with e | e | e <;> simp [e]

theorem blockInv_lockedState (h : BlockInv s) : BlockInv (lockedState s) := by
  obtain ⟨hwho, -, -, -, -, hstatus⟩ := h
  refine ⟨?_, lockMirrored_lockedState, ?_, nofun, ?_, ?_⟩
  · simpa [WhoAmIFixed, getReg_lockedState] using hwho
  · exact fun _ => by simp [getReg_lockedState]
  · simp [ValuesInRange, temperature, humidity, getReg_lockedState]
  · simp only [StatusLegal, getReg_lockedState, if_true]
    rcases hstatus with e | e | e <;> simp [e]

/-- The temperature and humidity registers hold the two drawn values byte by byte (20_memory.md R60). -/
theorem temperature_completedState (x y : BitVec 16) : temperature (completedState x y s) = x := by
  simp only [temperature, getReg_completedState, lo8, hi8]
  exact (BitVec.extractLsb'_append_extractLsb'_eq_extractLsb' rfl).trans (by simp)

theorem humidity_completedState (x y : BitVec 16) : humidity (completedState x y s) = y := by
  simp only [humidity, getReg_completedState, lo8, hi8]
  exact (BitVec.extractLsb'_append_extractLsb'_eq_extractLsb' rfl).trans (by simp)

theorem blockInv_completedState {x y : BitVec 16} (hx : TempInRange x) (hy : HumidInRange y)
    (hm : s.measst = .inProgress) (h : BlockInv s) : BlockInv (completedState x y s) := by
  obtain ⟨hwho, hmirror, -, hbusy, -, hstatus⟩ := h
  obtain ⟨hu, hready⟩ := hbusy hm
  refine ⟨?_, lockMirrored_completedState hmirror, ?_, nofun, ?_, ?_⟩
  · simpa [WhoAmIFixed, getReg_completedState] using hwho
  · intro hl
    exact absurd (hl.symm.trans hu) (by decide)
  · rw [ValuesInRange, temperature_completedState, humidity_completedState]
    exact ⟨fun _ => ⟨hx, hy⟩, .inr hx, .inr hy⟩
  · have hflag : lockedFlag s = false := by simp [hmirror.1, hu]
    simp only [StatusLegal, getReg_completedState, if_true]
    rcases hstatus with e | e | e <;> simp [e, lockedFlag] at hflag ⊢

/-- Every event keeps the invariants R43 to R48, in every mode. -/
theorem exec_keeps_blockInv (hs : BlockInv s) (h : exec i s = .next t) : BlockInv t := by
  cases exec_effect h with
  | nothing same => exact same.blockInv hs
  | stores d _ hw same => exact same.blockInv (blockInv_store hw hs)
  | unlocks _ same => exact same.blockInv (blockInv_unlock (blockInv_store rfl hs))
  | starts d _ _ _ hu _ same => exact same.blockInv (blockInv_startedState hu (blockInv_store rfl hs))
  | locks _ _ same => exact same.blockInv (blockInv_lockedState hs)
  | completes _ due x y hx hy same =>
    have hm : s.measst = .inProgress := by
      obtain ⟨-, hm, -⟩ | ⟨-, -, -, hm, -⟩ := due <;> exact hm
    exact same.blockInv (blockInv_completedState hx hy hm hs)

/-- Settles O35: the six effects of an event each keep the invariants. -/
theorem everyEventKeepsTheInvariantsInAtomicMode : Obligations.EveryEventKeepsTheInvariantsInAtomicMode :=
  fun _ _ _ _ hs h => exec_keeps_blockInv hs h

/-! ### Stale stamps -/

/-- start() as a chain of its two refusals and its start (43_measurement.md R170). -/
theorem startMeasurement_eq (s : State) :
    startMeasurement s =
      if s.lockst = .locked then emitDiag .startLocked s
      else if s.measst = .inProgress then emitDiag .startBusy s else startedState s := by
  obtain ⟨hl, e⟩ | ⟨hl, hm, e⟩ | ⟨hl, hm, e⟩ := startMeasurement_cases s
  · simp [e, hl]
  · simp [e, hl, hm]
  · simp [e, hl, hm, startedState]

/-- `s'` is `s` with other stamps, of which those the block may still read (T_UNLOCK while Unlocked, T_START while
InProgress) are the same. -/
inductive StaleApart : State → State → Prop
  | mk (s : State) (x y : Time) (unlocked : s.lockst = .unlocked → x = s.tUnlock)
      (inProgress : s.measst = .inProgress → y = s.tStart) : StaleApart s { s with tUnlock := x, tStart := y }

theorem staleApart_withStaleStamps (s : State) (x y : Time) : StaleApart s (withStaleStamps x y s) :=
  .mk s _ _ (fun h => if_neg (by simp [h])) (fun h => if_neg (by simp [h]))

theorem StaleApart.eq_withStaleStamps (h : StaleApart s s') : ∃ x y, s' = withStaleStamps x y s := by
  obtain ⟨x, y, hx, hy⟩ := h
  refine ⟨x, y, ?_⟩
  unfold withStaleStamps
  congr
  · cases hl : s.lockst <;> simp [hx, hl]
  · cases hm : s.measst <;> simp [hy, hm]

namespace StaleApart

/-! What the block reads of two such states is the same. -/

theorem held (h : StaleApart s s') : held s' = held s := by cases h; rfl
theorem calls (h : StaleApart s s') (d : Byte) : wbyteCalls d s' = wbyteCalls d s := by cases h; rfl
theorem enabled (h : StaleApart s s') : tickEnabled s' = tickEnabled s := by cases h; rfl
theorem getReg (h : StaleApart s s') (a : Reg) : getReg s' a = getReg s a := by cases h; rfl
theorem ap (h : StaleApart s s') : s'.ap = s.ap := by cases h; rfl
theorem phase (h : StaleApart s s') : s'.phase = s.phase := by cases h; rfl
theorem lockst (h : StaleApart s s') : s'.lockst = s.lockst := by cases h; rfl
theorem measst (h : StaleApart s s') : s'.measst = s.measst := by cases h; rfl
theorem now (h : StaleApart s s') : s'.now = s.now := by cases h; rfl
theorem cfg (h : StaleApart s s') : s'.cfg = s.cfg := by cases h; rfl
theorem tickerMode (h : StaleApart s s') : s'.cfg.tickerMode = s.cfg.tickerMode := by rw [h.cfg]
theorem bgAtomic (h : StaleApart s s') : s'.cfg.bgAtomic = s.cfg.bgAtomic := by rw [h.cfg]
theorem freeIx (h : StaleApart s s') : s'.freeIx = s.freeIx := by cases h; rfl

/-- checkTimeout reads T_UNLOCK while Unlocked only (R152). -/
theorem timeoutFires (h : StaleApart s s') : timeoutFires s' = timeoutFires s := by
  obtain ⟨x, y, hx, -⟩ := h
  cases hl : s.lockst
  · simp only [Machine.timeoutFires, hl]; rfl
  · simp [Machine.timeoutFires, hl, hx hl]

/-- checkComplete reads T_START while InProgress only (R171). -/
theorem completeFires (h : StaleApart s s') : completeFires s' = completeFires s := by
  obtain ⟨x, y, -, hy⟩ := h
  cases hm : s.measst
  · simp only [Machine.completeFires, hm]; rfl
  · simp [Machine.completeFires, hm, hy hm]

/-! Every operation of an event leads from two such states to two such states. -/

/-- An operation that neither reads nor writes the stamps and keeps LOCKST and MEASST. -/
theorem oblivious {f : State → State} (h : StaleApart s s')
    (hf : ∀ (s : State) (x y : Time),
      f { s with tUnlock := x, tStart := y } = { f s with tUnlock := x, tStart := y } ∧
        (f s).lockst = s.lockst ∧ (f s).measst = s.measst) :
    StaleApart (f s) (f s') := by
  obtain ⟨x, y, hx, hy⟩ := h
  obtain ⟨e, hl, hm⟩ := hf s x y
  rw [e]
  have hwrite := (hf s s.tUnlock s.tStart).1
  have htu : (f s).tUnlock = s.tUnlock := by simpa only using congrArg State.tUnlock hwrite
  have hts : (f s).tStart = s.tStart := by simpa only using congrArg State.tStart hwrite
  exact .mk (f s) x y (fun h => (hx (hl ▸ h)).trans htu.symm) (fun h => (hy (hm ▸ h)).trans hts.symm)

theorem beginEvent (h : StaleApart s s') : StaleApart (beginEvent s) (beginEvent s') :=
  h.oblivious fun _ _ _ => ⟨rfl, rfl, rfl⟩

theorem setReg (h : StaleApart s s') (a : Reg) (v : Byte) : StaleApart (setReg a v s) (setReg a v s') :=
  h.oblivious fun _ _ _ => ⟨rfl, rfl, rfl⟩

theorem emitDiag (h : StaleApart s s') (c : Diag) : StaleApart (emitDiag c s) (emitDiag c s') :=
  h.oblivious fun _ _ _ => ⟨rfl, rfl, rfl⟩

theorem advance (h : StaleApart s s') : StaleApart (advance s) (advance s') :=
  h.oblivious fun _ _ _ => ⟨rfl, rfl, rfl⟩

theorem setAddress (h : StaleApart s s') (b : Byte) : StaleApart (setAddress b s) (setAddress b s') :=
  h.oblivious fun _ _ _ => ⟨rfl, rfl, rfl⟩

theorem setPhase (h : StaleApart s s') (p : Phase) : StaleApart (setPhase p s) (setPhase p s') :=
  h.oblivious fun _ _ _ => ⟨rfl, rfl, rfl⟩

theorem respond (h : StaleApart s s') (b : Byte) : StaleApart (respond b s) (respond b s') :=
  h.oblivious fun _ _ _ => ⟨rfl, rfl, rfl⟩

theorem advanceTime (h : StaleApart s s') : StaleApart (advanceTime s) (advanceTime s') :=
  h.oblivious fun _ _ _ => ⟨rfl, rfl, rfl⟩

/-- A completion check stays owed (44_ticker.md R191). -/
theorem oweCheck (h : StaleApart s s') :
    StaleApart { s with bg := { s.bg with mcDue := true } } { s' with bg := { s'.bg with mcDue := true } } :=
  h.oblivious (f := fun s => { s with bg := { s.bg with mcDue := true } }) fun _ _ _ => ⟨rfl, rfl, rfl⟩

/-- A free value is taken. -/
theorem takeDraw (h : StaleApart s s') :
    StaleApart { s with freeIx := s.freeIx + 1 } { s' with freeIx := s'.freeIx + 1 } :=
  h.oblivious (f := fun s => { s with freeIx := s.freeIx + 1 }) fun _ _ _ => ⟨rfl, rfl, rfl⟩

theorem stampTimeoutCheck (h : StaleApart s s') : StaleApart (stampTimeoutCheck s) (stampTimeoutCheck s') := by
  unfold Machine.stampTimeoutCheck
  rw [h.tickerMode]
  cases s.cfg.tickerMode
  · exact h
  · exact h.oblivious (f := fun s => { s with lastTo := s.now }) fun _ _ _ => ⟨rfl, rfl, rfl⟩

theorem stampCompleteCheck (h : StaleApart s s') : StaleApart (stampCompleteCheck s) (stampCompleteCheck s') := by
  unfold Machine.stampCompleteCheck
  rw [h.tickerMode]
  cases s.cfg.tickerMode
  · exact h
  · exact h.oblivious (f := fun s => { s with lastMc := s.now }) fun _ _ _ => ⟨rfl, rfl, rfl⟩

/-- unlock() writes T_UNLOCK (R151), so the two states agree in it again. -/
theorem unlock (h : StaleApart s s') : StaleApart (unlock s) (unlock s') := by
  obtain ⟨x, y, -, hy⟩ := h; exact .mk (Machine.unlock s) s.now y (fun _ => rfl) hy

/-- An accepted start() writes T_START (R170), so the two states agree in it again. -/
theorem started (h : StaleApart s s') : StaleApart (startedState s) (startedState s') := by
  obtain ⟨x, y, hx, -⟩ := h; exact .mk (startedState s) x s.now hx (fun _ => rfl)

theorem startMeasurement (h : StaleApart s s') : StaleApart (startMeasurement s) (startMeasurement s') := by
  rw [startMeasurement_eq, startMeasurement_eq, h.lockst, h.measst]
  split_ifs
  · exact h.emitDiag _
  · exact h.emitDiag _
  · exact h.started

/-- A background operation that takes the mutex only. -/
theorem takeMutex (h : StaleApart s s') (ops : List SubStep) :
    StaleApart { s with bg := { s.bg with mutex := .heldByTicker, work := ops } }
      { s' with bg := { s'.bg with mutex := .heldByTicker, work := ops } } :=
  h.oblivious (f := fun s => { s with bg := { s.bg with mutex := .heldByTicker, work := ops } })
    fun _ _ _ => ⟨rfl, rfl, rfl⟩

/-- After lock() the block is Locked and Idle, and reads neither stamp (R150). -/
theorem startLock (h : StaleApart s s') :
    StaleApart (startBackground lockSubSteps s) (startBackground lockSubSteps s') := by
  unfold startBackground
  rw [h.bgAtomic]
  split
  · obtain ⟨x, y, -, -⟩ := h
    exact .mk (lock s) x y nofun nofun
  · exact h.takeMutex _

/-- After complete() the block is Idle, and does not read T_START (R172). -/
theorem startComplete (h : StaleApart s s') (temp humid : BitVec 16) :
    StaleApart (startBackground (completeSubSteps temp humid) s)
      (startBackground (completeSubSteps temp humid) s') := by
  unfold startBackground
  rw [h.bgAtomic]
  split
  · obtain ⟨x, y, hx, -⟩ := h
    exact .mk (completeWith temp humid s) x y hx nofun
  · exact h.takeMutex _

theorem checkTimeout (h : StaleApart s s') : StaleApart (checkTimeout s) (checkTimeout s') := by
  unfold Machine.checkTimeout
  rw [h.timeoutFires]
  split
  · exact h.startLock
  · exact h

theorem checkComplete (h : StaleApart s s') : StaleApart (checkComplete s) (checkComplete s') := by
  unfold Machine.checkComplete
  rw [h.completeFires]
  split
  · rw [h.freeIx]
    have := h.takeDraw.startComplete (drawTemp s.freeIx) (drawHumid s.freeIx)
    rwa [h.freeIx] at this
  · exact h

theorem scheduledChecks (h : StaleApart s s') : StaleApart (scheduledChecks s) (scheduledChecks s') := by
  have ht : StaleApart (if timeoutDue s.now then Machine.checkTimeout s else s)
      (if timeoutDue s'.now then Machine.checkTimeout s' else s') := by
    rw [h.now]
    split
    · exact h.checkTimeout
    · exact h
  unfold Machine.scheduledChecks
  generalize (if timeoutDue s.now then Machine.checkTimeout s else s) = u at ht ⊢
  generalize (if timeoutDue s'.now then Machine.checkTimeout s' else s') = u' at ht ⊢
  have hdue : completeDue u'.now = completeDue u.now := by rw [ht.now]
  dsimp only
  rw [hdue, ht.held]
  split
  · split
    · exact ht.oweCheck
    · exact ht.checkComplete
  · exact ht

theorem wbyteSideEffect (h : StaleApart s s') (drop : Bool) (a : Reg) (d : Byte) :
    StaleApart (wbyteSideEffect drop a d s) (wbyteSideEffect drop a d s') := by
  unfold Machine.wbyteSideEffect
  rw [h.getReg]
  split_ifs
  · exact h.emitDiag _
  · exact h.startMeasurement
  · exact h
  · exact h.emitDiag _
  · exact h.unlock
  · exact h.emitDiag _
  · exact h

theorem wbyteData (h : StaleApart s s') (drop : Bool) (d : Byte) :
    StaleApart (wbyteData drop d s) (wbyteData drop d s') := by
  unfold Machine.wbyteData
  rw [h.ap]
  cases hr : isReadOnly s.ap
  · rw [busWrite_writable _ hr, busWrite_writable _ hr]
    exact ((h.setReg _ _).wbyteSideEffect _ _ _).advance
  · rw [busWrite_readOnly _ hr, busWrite_readOnly _ hr]
    exact (h.emitDiag _).advance

theorem wbyte (h : StaleApart s s') (drop : Bool) (d : Byte) : StaleApart (wbyte drop d s) (wbyte drop d s') := by
  unfold Machine.wbyte
  rw [h.phase]
  cases s.phase
  · exact (h.setAddress d).setPhase _
  · exact (h.setAddress d).setPhase _
  · exact h.wbyteData drop d

end StaleApart

/-- Two outcomes are alike: next states that differ in stale stamps at most, or the same stop. -/
inductive OutcomesApart : Host.Outcome State Fault Refusal → Host.Outcome State Fault Refusal → Prop
  | next {s s' : State} (h : StaleApart s s') : OutcomesApart (.next s) (.next s')
  | fault (f : Fault) : OutcomesApart (.fault f) (.fault f)

theorem execWbyte_apart (d : Byte) (h : StaleApart s s') : OutcomesApart (execWbyte d s) (execWbyte d s') := by
  unfold execWbyte
  rw [h.held, h.calls, h.cfg, h.freeIx]
  split_ifs
  · exact .next (h.beginEvent.wbyte true d)
  · exact .fault _
  · exact .next (h.beginEvent.wbyte false d)

theorem execTick_apart (h : StaleApart s s') : OutcomesApart (execTick s) (execTick s') := by
  unfold execTick
  rw [h.held, h.cfg, h.enabled]
  split
  · exact .fault _
  · cases s.cfg.tickerMode
    · exact .next h.beginEvent.advanceTime.scheduledChecks
    · dsimp only
      split
      · exact .next h.beginEvent.advanceTime
      · exact .fault _

theorem execChkto_apart (h : StaleApart s s') : OutcomesApart (execChkto s) (execChkto s') := by
  unfold execChkto
  rw [h.held]
  split
  · exact .fault _
  · exact .next h.beginEvent.checkTimeout.stampTimeoutCheck

theorem execChkmc_apart (h : StaleApart s s') : OutcomesApart (execChkmc s) (execChkmc s') := by
  unfold execChkmc
  rw [h.held]
  split
  · exact .fault _
  · exact .next h.beginEvent.checkComplete.stampCompleteCheck

/-- Every event answers two states that differ in stale stamps alike. -/
theorem exec_apart (i : Instr) (h : StaleApart s s') : OutcomesApart (exec i s) (exec i s') := by
  cases i with
  | nop => exact .next h.beginEvent
  | wstart => exact .next (h.beginEvent.setPhase _)
  | wbyte d => exact execWbyte_apart d h
  | rreq =>
    have hr := h.beginEvent.respond (getReg s s.ap)
    cases h; exact .next hr
  | rcont =>
    have hr := h.beginEvent.advance.respond (getReg s (s.ap + 1))
    cases h; exact .next hr
  | stop => exact .next (h.beginEvent.setPhase _)
  | tick => exact execTick_apart h
  | chkto => exact execChkto_apart h
  | chkmc => exact execChkmc_apart h
  | reserved w => exact .next (h.beginEvent.emitDiag _)

/-- Settles O38: the two states and their outcomes stay apart in stale stamps only. -/
theorem staleStampsAreUnobservable : Obligations.StaleStampsAreUnobservable := by
  intro i s x y
  have hout := exec_apart i (staleApart_withStaleStamps s x y)
  constructor
  · intro t ht
    rw [ht] at hout
    generalize exec i (withStaleStamps x y s) = o at hout
    cases hout with
    | next h =>
      obtain ⟨x', y', rfl⟩ := h.eq_withStaleStamps
      exact ⟨x', y', rfl⟩
  · intro f hf
    rw [hf] at hout
    generalize exec i (withStaleStamps x y s) = o at hout
    cases hout
    rfl

/-! ### Time -/

theorem exec_now (h : exec i s = .next t) : t.now = if i = .tick then s.now + 1 else s.now := by
  by_cases hi : i = .tick ∨ i = .chkto ∨ i = .chkmc
  · obtain ⟨-, -, -, -, -, -, -, -, hnow⟩ := timer_keeps i s t hi h
    exact hnow
  · obtain ⟨-, -, hnow, -⟩ := bus_shape i s t hi h
    rw [hnow, if_neg fun h => hi (.inl h)]

/-- Settles O30: TICK adds one to `now`, every other event keeps it. -/
theorem onlyTickAdvancesTime : Obligations.OnlyTickAdvancesTime := by
  refine ⟨rfl, fun i s t h => ⟨fun hi => ?_, fun hi => ?_, fun hwrap => ?_⟩⟩
  · rw [exec_now h, if_pos hi]
  · rw [exec_now h, if_neg hi]
  · rw [exec_now h]
    split
    · rw [BitVec.toNat_add_of_lt hwrap]
      exact Nat.le_add_right _ _
    · exact Nat.le_refl _

/-! ### Passthrough registers and reset values -/

/-- Only CTRL1 and UNLOCK have a side effect (40_register_file.md R101). -/
theorem wbyteSideEffect_passthrough {a : Reg} (ha : a = 7 ∨ a = 8) (drop : Bool) (d : Byte) (s : State) :
    wbyteSideEffect drop a d s = s := by
  rcases ha with rfl | rfl <;> rfl

/-- Settles O10: CONFIG and PADDING are writable and have no side effect. -/
theorem dataByteToAPassthroughRegisterIsStored : Obligations.DataByteToAPassthroughRegisterIsStored := by
  intro s d hp ha
  have hw : isReadOnly s.ap = false := by rcases ha with e | e <;> rw [e] <;> rfl
  have hcall : wbyteCalls d s = false := by
    rcases ha with e | e <;> simp [wbyteCalls, e]
  have hx := execWbyte_writable s d hp hw (by rw [hcall, Bool.and_false])
  rw [wbyteSideEffect_passthrough ha] at hx
  exact ⟨_, hx, rfl, rfl, nofun, rfl⟩

/-- Settles O58: every field of the reset state by definition, SESSION_CODE being the first draw. -/
theorem resetValues : Obligations.ResetValues :=
  ⟨Config.sessionDraw 0, rfl, rfl, rfl, rfl, rfl, rfl, rfl, rfl, rfl, rfl, rfl⟩

/-! ### The writers of a register -/

/-- The register a plain store changes is a writable one, and now holds the data byte. -/
theorem store_writes {a : Reg} {d : Byte} (hw : isReadOnly s.ap = false)
    (hne : getReg (setReg s.ap d s) a ≠ getReg s a) :
    s.ap = a ∧ a ∈ ([1, 7, 8, 10] : List Reg) ∧ getReg (setReg s.ap d s) a = d := by
  have hap : s.ap = a := by
    by_contra hap
    exact hne (by rw [getReg_setReg, if_neg hap])
  have hlist : ∀ b : Reg, isReadOnly b = false → b ∈ ([1, 7, 8, 10] : List Reg) := by decide
  exact ⟨hap, hlist a (hap ▸ hw), by rw [getReg_setReg, if_pos hap]⟩

/-- The registers unlock() changes (R151), after the UNLOCK byte is stored. -/
theorem unlock_writes {a : Reg} {c : Byte} (hne : getReg (unlock (setReg 10 c s)) a ≠ getReg s a) :
    (a = 10 ∧ getReg (unlock (setReg 10 c s)) 10 = c) ∨
      (a = 2 ∧ getReg (unlock (setReg 10 c s)) 2 = getReg s 2 &&& 0xFD#8) ∨
        (a = 11 ∧ getReg (unlock (setReg 10 c s)) 11 = 0x00#8) := by
  by_cases h10 : a = 10
  · exact .inl ⟨h10, by simp [getReg_unlock]⟩
  by_cases h2 : a = 2
  · exact .inr (.inl ⟨h2, by simp [getReg_unlock]⟩)
  by_cases h11 : a = 11
  · exact .inr (.inr ⟨h11, by simp [getReg_unlock]⟩)
  exact absurd (by simp [getReg_unlock, h2, h11, Ne.symm h10]) hne

/-- The registers an accepted start() changes (43_measurement.md R170), after the CTRL1 byte is stored. -/
theorem start_writes {a : Reg} {d : Byte} (hne : getReg (startedState (setReg 1 d s)) a ≠ getReg s a) :
    (a = 1 ∧ getReg (startedState (setReg 1 d s)) 1 = d) ∨
      (a = 2 ∧ getReg (startedState (setReg 1 d s)) 2 = getReg s 2 &&& 0xFE#8) := by
  by_cases h1 : a = 1
  · exact .inl ⟨h1, by simp [getReg_startedState]⟩
  by_cases h2 : a = 2
  · exact .inr ⟨h2, by simp [getReg_startedState]⟩
  exact absurd (by simp [getReg_startedState, h2, Ne.symm h1]) hne

/-- The registers lock() changes (R150). -/
theorem lock_writes {a : Reg} (hne : getReg (lockedState s) a ≠ getReg s a) :
    (a ∈ ([3, 4, 5, 6] : List Reg) ∧ getReg (lockedState s) a = 0xFF#8) ∨
      (a = 2 ∧ getReg (lockedState s) 2 = (getReg s 2 ||| 0x02#8) &&& 0xFE#8) ∨
        (a = 11 ∧ getReg (lockedState s) 11 = 0x01#8) := by
  simp only [getReg_lockedState] at hne ⊢
  split_ifs at hne with h2 hv h11
  · exact .inr (.inl ⟨h2, rfl⟩)
  · exact .inl ⟨by simpa using hv, by rw [if_neg h2, if_pos hv]⟩
  · exact .inr (.inr ⟨h11, rfl⟩)
  · exact absurd rfl hne

/-- The registers complete() changes (43_measurement.md R172). -/
theorem complete_writes {a : Reg} {temp humid : BitVec 16}
    (hne : getReg (completedState temp humid s) a ≠ getReg s a) :
    (a ∈ ([3, 4, 5, 6] : List Reg) ∧ (a, getReg (completedState temp humid s) a) ∈ valueBytes temp humid) ∨
      (a = 2 ∧ getReg (completedState temp humid s) 2 = getReg s 2 ||| 0x01#8) := by
  simp only [getReg_completedState] at hne ⊢
  split_ifs at hne with h2 h3 h4 h5 h6
  · exact .inr ⟨h2, rfl⟩
  · subst h3; exact .inl ⟨by simp, by simp [valueBytes]⟩
  · subst h4; exact .inl ⟨by simp, by simp [valueBytes]⟩
  · subst h5; exact .inl ⟨by simp, by simp [valueBytes]⟩
  · subst h6; exact .inl ⟨by simp, by simp [valueBytes]⟩
  · exact absurd rfl hne

/-! ### The sub-steps of torn mode -/

/-- In torn mode the release of the mutex writes no register: a completion check still owed
only takes the mutex again. -/
theorem releaseMutex_regs_torn (h : s.cfg.bgAtomic = false) : (releaseMutex s).regs = s.regs := by
  obtain ⟨-, e⟩ | ⟨-, -, x, y, -, -, e⟩ := releaseMutex_cases s
  · rw [e]
  · rw [e, startBackground_torn _ (by exact h)]

/-- A move of the Ticker writes no register, or makes the register write of one remaining sub-step. -/
theorem tickerSubStep_regs (k : Nat) (hheld : held s = true) :
    (tickerSubStep k s).regs = s.regs ∨ ∃ u ∈ s.bg.work, (tickerSubStep k s).regs = (applySubStep u s).regs := by
  have htorn : s.cfg.bgAtomic = false := by
    cases hat : s.cfg.bgAtomic
    · rfl
    · rw [held_of_atomic hat] at hheld; exact absurd hheld (by decide)
  by_cases hnil : s.bg.work = []
  · left
    have e : tickerSubStep k s = releaseMutex (beginEvent s) := by simp [tickerSubStep, hnil]
    rw [e, releaseMutex_regs_torn (by exact htorn)]
    rfl
  · obtain ⟨u, hu, -⟩ := pick_names k hnil
    refine .inr ⟨u, List.mem_of_getElem? hu, ?_⟩
    by_cases hlast : s.bg.work.eraseIdx (k % s.bg.work.length) = []
    · rw [tickerSubStep_last hu hlast, releaseMutex_regs_torn]
      rw [applySubStep_keeps]
      exact htorn
    · rw [tickerSubStep_more hu hlast]

/-- The register one sub-step changes, and to what: an internal write, or one bit of STATUS. -/
theorem applySubStep_writes {u : SubStep} {a : Reg} (hne : getReg (applySubStep u s) a ≠ getReg s a) :
    (∃ v, u = .intWrite a v ∧ getReg (applySubStep u s) a = v) ∨
      a = 2 ∧ ((∃ i, u = .setStatusBit i ∧ getReg (applySubStep u s) 2 = getReg s 2 ||| (1#8 <<< i.val)) ∨
        ∃ i, u = .clrStatusBit i ∧ getReg (applySubStep u s) 2 = getReg s 2 &&& ~~~(1#8 <<< i.val)) := by
  cases u with
  | setLockState l => exact absurd rfl hne
  | setMeasState m => exact absurd rfl hne
  | setStatusBit i =>
    have ha : 2 = a := by
      by_contra ha
      exact hne (by simp [applySubStep, ha])
    exact .inr ⟨ha.symm, .inl ⟨i, rfl, by simp [applySubStep]⟩⟩
  | clrStatusBit i =>
    have ha : 2 = a := by
      by_contra ha
      exact hne (by simp [applySubStep, ha])
    exact .inr ⟨ha.symm, .inr ⟨i, rfl, by simp [applySubStep]⟩⟩
  | intWrite b v =>
    have ha : b = a := by
      by_contra ha
      exact hne (by simp [applySubStep, ha])
    exact .inl ⟨v, by rw [ha], by simp [applySubStep, ha]⟩

/-- The internal writes of lock() (R150). -/
theorem intWrite_mem_lockSubSteps {a : Reg} {v : Byte} (h : .intWrite a v ∈ lockSubSteps) :
    a ∈ ([3, 4, 5, 6] : List Reg) ∧ v = 0xFF#8 ∨ a = 11 ∧ v = 0x01#8 := by
  simp only [lockSubSteps, List.mem_cons, SubStep.intWrite.injEq, reduceCtorEq, List.not_mem_nil, false_or,
    or_false] at h
  rcases h with ⟨rfl, hv⟩ | ⟨rfl, hv⟩ | ⟨rfl, hv⟩ | ⟨rfl, hv⟩ | ⟨rfl, hv⟩ <;> simp [hv]

/-- The register write of one sub-step of lock() (R150). -/
theorem lockSubStep_writes {u : SubStep} {a : Reg} (hu : u ∈ lockSubSteps)
    (hne : getReg (applySubStep u s) a ≠ getReg s a) :
    a ∈ ([3, 4, 5, 6] : List Reg) ∧ getReg (applySubStep u s) a = 0xFF#8 ∨
      a = 2 ∧ (getReg (applySubStep u s) 2 = getReg s 2 ||| 0x02#8 ∨
        getReg (applySubStep u s) 2 = getReg s 2 &&& 0xFE#8) ∨
      a = 11 ∧ getReg (applySubStep u s) 11 = 0x01#8 := by
  obtain ⟨v, e, hv⟩ | ⟨ha, ⟨i, e, hv⟩ | ⟨i, e, hv⟩⟩ := applySubStep_writes hne
  · obtain ⟨ha, rfl⟩ | ⟨rfl, rfl⟩ := intWrite_mem_lockSubSteps (e ▸ hu)
    · exact .inl ⟨ha, hv⟩
    · exact .inr (.inr ⟨rfl, hv⟩)
  · obtain rfl : i = 1 := by simpa [e, lockSubSteps] using hu
    exact .inr (.inl ⟨ha, .inl hv⟩)
  · obtain rfl : i = 0 := by simpa [e, lockSubSteps] using hu
    exact .inr (.inl ⟨ha, .inr hv⟩)

/-- The register write of one sub-step of complete() (43_measurement.md R172). -/
theorem completeSubStep_writes {u : SubStep} {a : Reg} {temp humid : BitVec 16} (hu : u ∈ completeSubSteps temp humid)
    (hne : getReg (applySubStep u s) a ≠ getReg s a) :
    (a, getReg (applySubStep u s) a) ∈ valueBytes temp humid ∨
      a = 2 ∧ getReg (applySubStep u s) 2 = getReg s 2 ||| 0x01#8 := by
  obtain ⟨v, e, hv⟩ | ⟨ha, ⟨i, e, hv⟩ | ⟨i, e, hv⟩⟩ := applySubStep_writes hne
  · left
    rw [e] at hu
    simpa [hv, completeSubSteps, valueBytes, or_comm, or_left_comm] using hu
  · obtain rfl : i = 0 := by simpa [e, completeSubSteps] using hu
    exact .inr ⟨ha, hv⟩
  · simp [e, completeSubSteps] at hu

/-- Settles O31: each of the six effects of an event writes the registers of its own writer, and so does a sub-step. -/
theorem registersChangeOnlyThroughTheirWriters : Obligations.RegistersChangeOnlyThroughTheirWriters := by
  refine ⟨fun i s t a h hne => ?_, fun k s a hheld hne => ?_⟩
  · cases exec_effect h with
    | nothing same => exact absurd (same.getReg a) hne
    | stores d data hw same =>
      simp only [same.getReg] at hne ⊢
      obtain ⟨hap, ha, hv⟩ := store_writes hw hne
      exact .inl ⟨ha, by rwa [hv], hap⟩
    | unlocks call same =>
      simp only [same.getReg, same.lockst] at hne ⊢
      obtain ⟨rfl, hv⟩ | ⟨ha, hv⟩ | ⟨ha, hv⟩ := unlock_writes hne
      · exact .inl ⟨by simp, by rw [hv]; exact call.1, call.2⟩
      · exact .inr (.inr (.inl ⟨ha, .inr (.inr (.inl ⟨call, rfl, hv⟩))⟩))
      · exact .inr (.inr (.inr ⟨ha, .inr ⟨call, rfl, hv⟩⟩))
    | starts d data hap hbit hu hidle same =>
      simp only [same.getReg] at hne ⊢
      obtain ⟨rfl, hv⟩ | ⟨ha, hv⟩ := start_writes hne
      · exact .inl ⟨by simp, by rwa [hv], hap⟩
      · exact .inr (.inr (.inl ⟨ha, .inr (.inr (.inr ⟨⟨d, data, hap, hbit⟩, hu, hidle, hv⟩))⟩))
    | locks hat due same =>
      simp only [same.getReg] at hne ⊢
      obtain ⟨ha, hv⟩ | ⟨ha, hv⟩ | ⟨ha, hv⟩ := lock_writes hne
      · exact .inr (.inl ⟨ha, hat, .inl ⟨due, hv⟩⟩)
      · exact .inr (.inr (.inl ⟨ha, .inl ⟨hat, due, hv⟩⟩))
      · exact .inr (.inr (.inr ⟨ha, .inl ⟨hat, due, hv⟩⟩))
    | completes hat due temp humid htemp hhumid same =>
      simp only [same.getReg] at hne ⊢
      obtain ⟨ha, hv⟩ | ⟨ha, hv⟩ := complete_writes hne
      · exact .inr (.inl ⟨ha, hat, .inr ⟨due, temp, humid, htemp, hhumid, hv⟩⟩)
      · exact .inr (.inr (.inl ⟨ha, .inr (.inl ⟨hat, due, hv⟩)⟩))
  · obtain hr | ⟨u, hu, hr⟩ := tickerSubStep_regs k hheld
    · exact absurd (getReg_congr hr a) hne
    · simp only [getReg_congr (t := tickerSubStep k s) hr] at hne ⊢
      exact ⟨fun hsub => lockSubStep_writes (hsub.subset hu) hne,
        fun temp humid hsub => completeSubStep_writes (hsub.subset hu) hne⟩

end Sys2Proof.Proofs

/-! PROOFS. The family of 20_memory.md: the invariants over every step in every mode, the sub-steps of torn mode, the bus
calls that wait for the mutex, and the arbiter. -/

namespace Sys2Proof.Proofs

open Sys2Proof.Machine Sys2Proof.Safety

variable {i : Instr} {s t u : State}

/-! ### The mutex -/

theorem held_iff : held s = true ↔ s.cfg.bgAtomic = false ∧ s.bg.mutex = .heldByTicker := by simp [held]

theorem held_of_mutex_free (h : s.bg.mutex = .free) : held s = false := by simp [held, h]

theorem held_congr (hc : t.cfg = s.cfg) (hb : t.bg = s.bg) : held t = held s := by rw [held, held, hc, hb]

theorem timer_waits_while_held (hheld : held s = true) (hi : i = .tick ∨ i = .chkto ∨ i = .chkmc) :
    exec i s = .fault .mutexHeld := by
  rcases hi with rfl | rfl | rfl <;> exact if_pos hheld

/-! ### What the invariants read, and what an operation under way makes of it -/

/-- Two states agree in the read-only registers, LOCKST and MEASST: in all that the invariants R43 to R48 read. -/
structure SameView (t u : State) : Prop where
  regs : ∀ a, isReadOnly a = true → getReg t a = getReg u a
  lockst : t.lockst = u.lockst
  measst : t.measst = u.measst

theorem SameView.blockInv (h : SameView t u) : BlockInv u → BlockInv t := blockInv_congr h.regs h.lockst h.measst

theorem SameDevice.sameView (h : SameDevice t u) : SameView t u := ⟨fun a _ => h.getReg a, h.lockst, h.measst⟩

/-- A sub-step reads only what it may write, so states of the same view have the same view after it. -/
theorem SameView.applySubStep (h : SameView t u) (v : SubStep) : SameView (applySubStep v t) (applySubStep v u) := by
  cases v with
  | setLockState l => exact ⟨h.regs, rfl, h.measst⟩
  | setMeasState m => exact ⟨h.regs, h.lockst, rfl⟩
  | intWrite b v => exact ⟨fun a ha => by simp [Machine.applySubStep, h.regs a ha], h.lockst, h.measst⟩
  | setStatusBit i =>
    exact ⟨fun a ha => by simp [Machine.applySubStep, h.regs a ha, h.regs 2 rfl], h.lockst, h.measst⟩
  | clrStatusBit i =>
    exact ⟨fun a ha => by simp [Machine.applySubStep, h.regs a ha, h.regs 2 rfl], h.lockst, h.measst⟩

theorem SameView.runSubSteps (h : SameView t u) (ops : List SubStep) :
    SameView (runSubSteps ops t) (runSubSteps ops u) := by
  induction ops generalizing t u with
  | nil => exact h
  | cons v ops ih => exact ih (h.applySubStep v)

theorem operationUnderWay_congr (hv : SameView t s) (hw : t.bg.work = s.bg.work) (h : OperationUnderWay s) :
    OperationUnderWay t := by
  obtain ⟨hne, hpart, hinv⟩ := h
  rw [OperationUnderWay, hw]
  exact ⟨hne, hpart, (hv.runSubSteps _).blockInv hinv⟩

theorem boundaryInv_congr (hc : t.cfg = s.cfg) (hb : t.bg = s.bg) (hv : SameView t s) (h : BoundaryInv s) :
    BoundaryInv t := by
  rw [BoundaryInv, held_congr hc hb]
  exact ⟨fun hf => hv.blockInv (h.1 hf), fun hh => operationUnderWay_congr hv (by rw [hb]) (h.2 hh)⟩

/-- While the mutex is held an event leaves the operation alone, and all that the invariants read: it neither locks,
unlocks, starts nor completes, and a plain store goes to a writable register. -/
theorem exec_while_held (hheld : held s = true) (h : exec i s = .next t) :
    t.cfg = s.cfg ∧ t.bg = s.bg ∧ SameView t s := by
  have hi : ¬(i = .tick ∨ i = .chkto ∨ i = .chkmc) := by
    intro hi
    rw [timer_waits_while_held hheld hi] at h
    cases h
  obtain ⟨hb, hc, -, -, -, -, -, ⟨hr, hl, hm, -⟩ | ⟨d, -, hw, hr, hl, hm, -⟩ | ⟨hf, -⟩ | ⟨hf, -⟩⟩ := bus_shape i s t hi h
  · exact ⟨hc, hb, SameDevice.sameView ⟨hr, hl, hm⟩⟩
  · refine ⟨hc, hb, fun a ha => ?_, hl, hm⟩
    rw [getReg_congr (s := setReg s.ap d s) hr, getReg_store_readOnly hw ha]
  · exact absurd hheld (by simp [hf])
  · exact absurd hheld (by simp [hf])

/-! ### An operation begins -/

/-- All sub-steps of lock() are to be made, or all of a complete() with values in range while the measurement is in
progress. -/
def OperationBegun (s : State) : Prop :=
  s.bg.work = lockSubSteps ∨
    s.measst = .inProgress ∧ ∃ temp humid, TempInRange temp ∧ HumidInRange humid ∧
      s.bg.work = completeSubSteps temp humid

/-- An operation that begins where the invariants hold leads back to them. -/
theorem operationUnderWay_of_begun (hs : BlockInv s) (h : OperationBegun s) : OperationUnderWay s := by
  obtain hw | ⟨hm, x, y, hx, hy, hw⟩ := h
  · rw [OperationUnderWay, hw, runSubSteps_lock]
    exact ⟨nofun, .inl (List.Sublist.refl _), blockInv_lockedState hs⟩
  · rw [OperationUnderWay, hw, runSubSteps_complete]
    exact ⟨nofun, .inr ⟨x, y, hx, hy, List.Sublist.refl _⟩, blockInv_completedState hx hy hm hs⟩

theorem boundaryInv_of_begun (hs : BlockInv s) (h : held s = true → OperationBegun s) : BoundaryInv s :=
  ⟨fun _ => hs, fun hheld => operationUnderWay_of_begun hs (h hheld)⟩

theorem not_held_startBackground_of_atomic (ops : List SubStep) (h : s.cfg.bgAtomic = true) :
    held (startBackground ops s) = false :=
  held_of_atomic (by rw [startBackground_keeps]; exact h)

/-- A mutex that checkTimeout leaves held is held by an operation that begins, if one held before is. -/
theorem checkTimeout_begins (h : held s = true → OperationBegun s) :
    held (checkTimeout s) = true → OperationBegun (checkTimeout s) := by
  obtain ⟨-, e⟩ | ⟨-, e⟩ := checkTimeout_cases s <;> rw [e]
  · cases hat : s.cfg.bgAtomic
    · rw [startBackground_torn _ hat]
      exact fun _ => .inl rfl
    · rw [not_held_startBackground_of_atomic _ hat]
      exact nofun
  · exact h

theorem checkComplete_begins (h : held s = true → OperationBegun s) :
    held (checkComplete s) = true → OperationBegun (checkComplete s) := by
  obtain ⟨⟨hm, -⟩, x, y, hx, hy, e⟩ | ⟨-, e⟩ := checkComplete_cases s <;> rw [e]
  · cases hat : s.cfg.bgAtomic
    · rw [startBackground_torn _ (by exact hat)]
      exact fun _ => .inr ⟨hm, x, y, hx, hy, rfl⟩
    · rw [not_held_startBackground_of_atomic _ (by exact hat)]
      exact nofun
  · exact h

theorem scheduledChecks_begins (h : held s = true → OperationBegun s) :
    held (scheduledChecks s) = true → OperationBegun (scheduledChecks s) := by
  have ht : ∀ v, v = (if timeoutDue s.now then checkTimeout s else s) → held v = true → OperationBegun v := by
    rintro v rfl
    split
    · exact checkTimeout_begins h
    · exact h
  unfold scheduledChecks
  generalize (if timeoutDue s.now then checkTimeout s else s) = v at ht
  replace ht := ht v rfl
  dsimp only
  split_ifs
  · exact ht
  · exact checkComplete_begins ht
  · exact ht

/-- An event that takes the mutex begins an operation (20_memory.md R67). -/
theorem exec_begins (hfree : held s = false) (h : exec i s = .next t) : held t = true → OperationBegun t := by
  have hbegin : held (beginEvent s) = true → OperationBegun (beginEvent s) := fun hh => absurd hh (by simp [hfree])
  by_cases hi : i = .tick ∨ i = .chkto ∨ i = .chkmc
  · rcases hi with rfl | rfl | rfl
    · obtain ⟨-, e⟩ | ⟨-, -, e⟩ | ⟨-, -, -, e⟩ | ⟨-, -, -, e⟩ := execTick_cases s <;> cases e.symm.trans h
      · exact scheduledChecks_begins hbegin
      · exact hbegin
    · obtain ⟨-, e⟩ | ⟨-, e⟩ := execChkto_cases s <;> cases e.symm.trans h
      have hcheck := checkTimeout_begins hbegin
      unfold stampTimeoutCheck
      split <;> exact hcheck
    · obtain ⟨-, e⟩ | ⟨-, e⟩ := execChkmc_cases s <;> cases e.symm.trans h
      have hcheck := checkComplete_begins hbegin
      unfold stampCompleteCheck
      split <;> exact hcheck
  · obtain ⟨hb, hc, -⟩ := bus_shape i s t hi h
    rw [held_congr hc hb, hfree]
    exact nofun

/-! ### Every step keeps the invariants -/

theorem exec_keeps_boundaryInv (hs : BoundaryInv s) (h : exec i s = .next t) : BoundaryInv t := by
  cases hheld : held s
  · exact boundaryInv_of_begun (exec_keeps_blockInv (hs.1 hheld) h) (exec_begins hheld h)
  · obtain ⟨hc, hb, hv⟩ := exec_while_held hheld h
    exact boundaryInv_congr hc hb hv hs

/-- In torn mode the release of the mutex leaves registers, LOCKST and MEASST alone: a completion check still owed only takes
the mutex again. -/
theorem releaseMutex_sameDevice (h : s.cfg.bgAtomic = false) : SameDevice (releaseMutex s) s := by
  obtain ⟨-, e⟩ | ⟨-, -, x, y, -, -, e⟩ := releaseMutex_cases s
  · rw [e]; exact ⟨rfl, rfl, rfl⟩
  · rw [e, startBackground_torn _ (by exact h)]; exact ⟨rfl, rfl, rfl⟩

theorem releaseMutex_begins (s : State) : held (releaseMutex s) = true → OperationBegun (releaseMutex s) := by
  have hfree : held { s with bg := { mutex := .free, work := [], mcDue := false } } = false := held_of_mutex_free rfl
  unfold releaseMutex
  dsimp only
  split
  · exact checkComplete_begins (by rw [hfree]; exact nofun)
  · rw [hfree]; exact nofun

theorem OperationUnderWay.commute (h : OperationUnderWay s) : s.bg.work.Pairwise Commute := by
  obtain ⟨-, hsub | ⟨x, y, -, -, hsub⟩, -⟩ := h
  · exact lockSubSteps_commute.sublist hsub
  · exact (completeSubSteps_commute x y).sublist hsub

/-- A sub-step keeps what the operation leads to: the writes that remain commute, so the one picked may as well be the
first. -/
theorem tickerSubStep_keeps_boundaryInv (k : Nat) (hheld : held s = true) (h : OperationUnderWay s) :
    BoundaryInv (tickerSubStep k s) := by
  have htorn := (held_iff.1 hheld).1
  have hcomm := OperationUnderWay.commute h
  obtain ⟨hne, hpart, hinv⟩ := h
  obtain ⟨v, hv, -⟩ := pick_names k hne
  rw [runSubSteps_pull hcomm hv] at hinv
  by_cases hlast : s.bg.work.eraseIdx (k % s.bg.work.length) = []
  · rw [tickerSubStep_last hv hlast]
    rw [hlast] at hinv
    refine boundaryInv_of_begun ((releaseMutex_sameDevice ?_).blockInv ?_) (releaseMutex_begins _)
    · rw [applySubStep_keeps]; exact htorn
    · exact SameDevice.blockInv ⟨rfl, rfl, rfl⟩ hinv
  · have hsub := List.eraseIdx_sublist s.bg.work (k % s.bg.work.length)
    rw [tickerSubStep_more hv hlast]
    refine ⟨fun hf => ?_, fun _ => ⟨hlast, ?_, ?_⟩⟩
    · rw [applySubStep_keeps] at hf
      exact absurd (hheld.symm.trans hf) (by decide)
    · exact hpart.imp hsub.trans fun ⟨x, y, hx, hy, hw⟩ => ⟨x, y, hx, hy, hsub.trans hw⟩
    · rw [runSubSteps_indep]
      exact SameDevice.blockInv ⟨rfl, rfl, rfl⟩ hinv

/-- The reset values meet the invariants R43 to R48, whatever the session code. -/
theorem blockInv_resetWith (code : Byte) : BlockInv (State.resetWith code) := by
  have hstatus : getReg (State.resetWith code) Reg.status = 0x02#8 := rfl
  have hbytes : 0xFF#8 ++ 0xFF#8 = 0xFFFF#16 := by decide
  have htemp : temperature (State.resetWith code) = 0xFFFF#16 := hbytes
  have hhumid : humidity (State.resetWith code) = 0xFFFF#16 := hbytes
  refine ⟨rfl, ⟨by rw [lockedFlag, hstatus]; rfl, rfl⟩, ?_, nofun, ⟨?_, .inl htemp, .inl hhumid⟩, .inr (.inr hstatus)⟩
  · exact fun _ => ⟨rfl, rfl, rfl, rfl, by rw [dataReady, hstatus]; rfl, rfl⟩
  · rw [dataReady, hstatus]; exact nofun

theorem boundaryInv_reset (ok : Bool) : BoundaryInv (withdrawCutOff (resetBlock ok s)) := by
  have hfree : held (withdrawCutOff (resetBlock ok s)) = false := held_of_mutex_free rfl
  refine ⟨fun _ => ?_, by rw [hfree]; exact nofun⟩
  exact SameDevice.blockInv (u := State.resetWith (Config.sessionDraw s.freeIx)) ⟨rfl, rfl, rfl⟩ (blockInv_resetWith _)

/-- Settles O36: a step is a reset, a sub-step or an event, behind arrivals that touch the channels only. -/
theorem everyStepKeepsTheInvariantsInEveryMode : Obligations.EveryStepKeepsTheInvariantsInEveryMode := by
  intro s t hs h
  have hports : ∀ p, BoundaryInv { arrive (nextBoundary s) s with ports := p } := fun p =>
    boundaryInv_congr (s := s) rfl rfl ⟨fun _ _ => rfl, rfl, rfl⟩ hs
  obtain ⟨-, rfl⟩ | ⟨-, hheld, rfl⟩ | ⟨-, -, w, q, -, hx⟩ | ⟨-, -, w, q, -, hx⟩ | ⟨-, -, hx⟩ := step_cases h
  · exact boundaryInv_reset _
  · exact tickerSubStep_keeps_boundaryInv _ hheld ((hports _).2 hheld)
  · exact exec_keeps_boundaryInv (hports _) hx
  · exact exec_keeps_boundaryInv (hports _) hx
  · exact exec_keeps_boundaryInv (hports _) hx

/-! ### The checks of torn mode -/

theorem stampTimeoutCheck_eq (s : State) :
    stampTimeoutCheck s = { s with lastTo := if s.cfg.tickerMode = .free then s.now else s.lastTo } := by
  unfold stampTimeoutCheck
  cases s.cfg.tickerMode <;> rfl

theorem stampCompleteCheck_eq (s : State) :
    stampCompleteCheck s = { s with lastMc := if s.cfg.tickerMode = .free then s.now else s.lastMc } := by
  unfold stampCompleteCheck
  cases s.cfg.tickerMode <;> rfl

/-- CHKTO with the mutex free, its stamp written out (44_ticker.md R192). -/
theorem exec_chkto_of_free (hfree : held s = false) :
    exec .chkto s = .next
      { checkTimeout (beginEvent s) with lastTo := if s.cfg.tickerMode = .free then s.now else s.lastTo } := by
  obtain ⟨hheld, -⟩ | ⟨-, e⟩ := execChkto_cases s
  · exact absurd hheld (by simp [hfree])
  · exact e.trans (by rw [stampTimeoutCheck_eq, checkTimeout_keeps]; rfl)

/-- CHKMC with the mutex free, its stamp written out (44_ticker.md R193). -/
theorem exec_chkmc_of_free (hfree : held s = false) :
    exec .chkmc s = .next
      { checkComplete (beginEvent s) with lastMc := if s.cfg.tickerMode = .free then s.now else s.lastMc } := by
  obtain ⟨hheld, -⟩ | ⟨-, e⟩ := execChkmc_cases s
  · exact absurd hheld (by simp [hfree])
  · exact e.trans (by rw [stampCompleteCheck_eq, checkComplete_keeps]; rfl)

/-- Settles O45: a check that fires begins its operation, which in torn mode takes the mutex. -/
theorem tornChecksTakeTheMutex : Obligations.TornChecksTakeTheMutex := by
  refine ⟨fun i s hheld hi => timer_waits_while_held hheld hi, fun s htorn hmutex => ?_⟩
  have hchkto := exec_chkto_of_free (held_of_mutex_free hmutex)
  have hchkmc := exec_chkmc_of_free (held_of_mutex_free hmutex)
  refine ⟨fun hdue => ?_, fun hdue => ?_, fun hdue => ?_, fun hdue => ?_⟩
  · obtain ⟨-, e⟩ | ⟨hnot, -⟩ := checkTimeout_cases (beginEvent s)
    · rw [e, startBackground_torn _ (by exact htorn)] at hchkto
      exact ⟨_, hchkto, rfl, rfl, nofun, rfl⟩
    · exact absurd hdue hnot
  · obtain ⟨-, x, y, hx, hy, e⟩ | ⟨hnot, -⟩ := checkComplete_cases (beginEvent s)
    · rw [e, startBackground_torn _ (by exact htorn)] at hchkmc
      exact ⟨x, y, hx, hy, _, hchkmc, rfl, rfl, nofun, rfl⟩
    · exact absurd hdue hnot
  · obtain ⟨hfires, -⟩ | ⟨-, e⟩ := checkTimeout_cases (beginEvent s)
    · exact absurd hfires hdue
    · rw [e] at hchkto
      exact ⟨_, hchkto, rfl, rfl, nofun, rfl⟩
  · obtain ⟨hfires, -⟩ | ⟨-, e⟩ := checkComplete_cases (beginEvent s)
    · exact absurd hfires hdue
    · rw [e] at hchkmc
      exact ⟨_, hchkmc, rfl, rfl, nofun, rfl⟩

/-! ### One sub-step -/

theorem applySubStep_now (v : SubStep) (s : State) : (applySubStep v s).now = s.now := by rw [applySubStep_keeps]

theorem applySubStep_cfg (v : SubStep) (s : State) : (applySubStep v s).cfg = s.cfg := by rw [applySubStep_keeps]

theorem releaseMutex_out (s : State) : (releaseMutex s).out = s.out := by
  obtain ⟨-, e⟩ | ⟨-, -, x, y, -, -, e⟩ := releaseMutex_cases s
  · rw [e]
  · rw [e, startBackground_keeps]

/-- The writes that remain after a pick are one fewer. -/
theorem length_eraseIdx_pick {k : Nat} {v : SubStep} {l : List SubStep} (hv : l[k % l.length]? = some v) :
    (l.eraseIdx (k % l.length)).length = l.length - 1 :=
  List.length_eraseIdx_of_lt (List.getElem?_eq_some_iff.1 hv).1

section
variable {k : Nat} {v : SubStep} (hv : s.bg.work[k % s.bg.work.length]? = some v)
include hv

theorem eraseIdx_pick_ne_nil (hmore : 1 < s.bg.work.length) : s.bg.work.eraseIdx (k % s.bg.work.length) ≠ [] := by
  rw [← List.length_pos_iff, length_eraseIdx_pick hv]
  exact Nat.sub_pos_of_lt hmore

theorem eraseIdx_pick_eq_nil (hlast : s.bg.work.length = 1) : s.bg.work.eraseIdx (k % s.bg.work.length) = [] := by
  rw [← List.length_eq_zero_iff, length_eraseIdx_pick hv, hlast]

/-- A move of the Ticker drives no response and no diagnostic (log entry 9). -/
theorem tickerSubStep_out : (tickerSubStep k s).out = (beginEvent s).out := by
  by_cases hlast : s.bg.work.eraseIdx (k % s.bg.work.length) = []
  · rw [tickerSubStep_last hv hlast, releaseMutex_out]
  · rw [tickerSubStep_more hv hlast]

/-- A sub-step that is not the last makes the write picked, and nothing else changes. -/
theorem tickerSubStep_more_sameState (hmore : 1 < s.bg.work.length) :
    SameState (tickerSubStep k s)
      { applySubStep v s with bg := { s.bg with work := s.bg.work.eraseIdx (k % s.bg.work.length) } } := by
  rw [tickerSubStep_more hv (eraseIdx_pick_ne_nil hv hmore)]
  rfl

/-- The last sub-step makes the write picked and frees the mutex, where no completion check is owed and due. -/
theorem tickerSubStep_last_sameState (hlast : s.bg.work.length = 1)
    (hdue : ¬(s.bg.mcDue = true ∧ CompletionDueAt s.now (applySubStep v s))) :
    SameState (tickerSubStep k s) { applySubStep v s with bg := { mutex := .free, work := [], mcDue := false } } := by
  rw [tickerSubStep_last hv (eraseIdx_pick_eq_nil hv hlast)]
  obtain ⟨-, e⟩ | ⟨howed, hnow, -⟩ := releaseMutex_cases
    { applySubStep v s with bg := { s.bg with work := [] }, out := (beginEvent s).out, freeIx := s.freeIx + 1 }
  · rw [e]
    rfl
  · exact absurd ⟨howed, applySubStep_now v s ▸ hnow⟩ hdue

/-- The last sub-step of a lock() that owes a completion check which is due makes the write picked, and complete() takes the
mutex. -/
theorem tickerSubStep_last_sameState_of_due (htorn : s.cfg.bgAtomic = false) (hlast : s.bg.work.length = 1)
    (hdue : s.bg.mcDue = true ∧ CompletionDueAt s.now (applySubStep v s)) :
    ∃ temp humid, TempInRange temp ∧ HumidInRange humid ∧
      SameState (tickerSubStep k s)
        { applySubStep v s with
          bg := { mutex := .heldByTicker, work := completeSubSteps temp humid, mcDue := false } } := by
  rw [tickerSubStep_last hv (eraseIdx_pick_eq_nil hv hlast)]
  obtain ⟨hnot, -⟩ | ⟨-, -, x, y, hx, hy, e⟩ := releaseMutex_cases
    { applySubStep v s with bg := { s.bg with work := [] }, out := (beginEvent s).out, freeIx := s.freeIx + 1 }
  · exact absurd ⟨hdue.1, (applySubStep_now v s).symm ▸ hdue.2⟩ hnot
  · rw [e, startBackground_torn _ (by exact (congrArg Config.bgAtomic (applySubStep_cfg v s)).trans htorn)]
    exact ⟨x, y, hx, hy, rfl⟩

end

/-- While the mutex is held a step without a reset is a move of torn mode. -/
theorem step_of_held (hrst : (nextBoundary s).rst = false) (hheld : held s = true) :
    step s = runTorn (nextBoundary s) (arrive (nextBoundary s) s) := by
  have hheld' : held (arrive (nextBoundary s) s) = true := hheld
  simp only [step, hrst, hheld', Bool.false_eq_true, if_false, if_true]

/-- While the mutex is held a step in which it is the Ticker's turn, or no bus word can be taken, is a sub-step. -/
theorem step_of_ticker_turn (hrst : (nextBoundary s).rst = false) (hheld : held s = true)
    (hturn : (nextBoundary s).busMoves = false ∨ takeBus (arrive (nextBoundary s) s) = none) :
    step s = .next (tickerSubStep (nextBoundary s).pick (arrive (nextBoundary s) s)) := by
  rw [step_of_held hrst hheld, runTorn]
  rcases hturn with h | h <;> simp [h]

/-- In torn mode no event changes a value register: only lock() and complete() do, and they are then left to sub-steps. -/
theorem exec_keeps_values {a : Reg} (htorn : s.cfg.bgAtomic = false) (ha : a ∈ ([3, 4, 5, 6] : List Reg))
    (h : exec i s = .next t) : getReg t a = getReg s a := by
  by_contra hne
  cases exec_effect h with
  | nothing same => exact hne (same.getReg a)
  | stores d _ hw same =>
    obtain ⟨-, ha', -⟩ := store_writes hw (same.getReg a ▸ hne)
    have hdisjoint : ∀ b : Reg, b ∈ ([3, 4, 5, 6] : List Reg) → b ∉ ([1, 7, 8, 10] : List Reg) := by decide
    exact hdisjoint a ha ha'
  | unlocks _ same =>
    obtain ⟨rfl, -⟩ | ⟨rfl, -⟩ | ⟨rfl, -⟩ := unlock_writes (same.getReg a ▸ hne) <;> exact absurd ha (by decide)
  | starts d _ _ _ _ _ same =>
    obtain ⟨rfl, -⟩ | ⟨rfl, -⟩ := start_writes (same.getReg a ▸ hne) <;> exact absurd ha (by decide)
  | locks hat => simp [htorn] at hat
  | completes hat => simp [htorn] at hat

/-- A sub-step changes a value register only to a byte that waits to be written. -/
theorem tickerSubStep_values {k : Nat} {a : Reg} (hheld : held s = true) (ha : a ∈ ([3, 4, 5, 6] : List Reg))
    (hne : getReg (tickerSubStep k s) a ≠ getReg s a) : .intWrite a (getReg (tickerSubStep k s) a) ∈ s.bg.work := by
  obtain hr | ⟨u, hu, hr⟩ := tickerSubStep_regs k hheld
  · exact absurd (getReg_congr hr a) hne
  · rw [getReg_congr (s := applySubStep u s) hr] at hne ⊢
    obtain ⟨v, rfl, hv⟩ | ⟨rfl, -⟩ := applySubStep_writes hne
    · rwa [hv]
    · exact absurd ha (by decide)

/-- Settles O47: what one move of the Ticker does, before the last and at the last; when a step is such a move; and that no
other step of torn mode but a reset changes a value register. -/
theorem aSubStepMakesOneWriteAndNothingElse : Obligations.ASubStepMakesOneWriteAndNothingElse := by
  refine ⟨fun k s hheld hne => ?_, fun s => ?_, fun s hrst hheld hturn => step_of_ticker_turn hrst hheld hturn,
    fun s t a htorn hrst h ha hne => ?_⟩
  · obtain ⟨v, hv, -⟩ := pick_names k hne
    refine ⟨k % s.bg.work.length, v, hv, Nat.mod_eq_of_lt, ?_, ?_, tickerSubStep_more_sameState hv, fun hlast =>
      ⟨tickerSubStep_last_sameState hv hlast,
        tickerSubStep_last_sameState_of_due hv (held_iff.1 hheld).1 hlast⟩⟩
    · rw [tickerSubStep_out hv]; rfl
    · rw [tickerSubStep_out hv]; rfl
  · exact ⟨fun _ => rfl, fun _ => rfl, fun _ _ => rfl, rfl, rfl, rfl, rfl⟩
  · obtain ⟨hr, -⟩ | ⟨-, hheld, rfl⟩ | ⟨-, -, w, q, -, hx⟩ | ⟨-, -, w, q, -, hx⟩ | ⟨-, -, hx⟩ := step_cases h
    · simp [hrst] at hr
    · exact ⟨hheld, tickerSubStep_values (s := arrive (nextBoundary s) s) hheld ha hne⟩
    · exact absurd (exec_keeps_values (by exact htorn) ha hx) hne
    · exact absurd (exec_keeps_values (by exact htorn) ha hx) hne
    · exact absurd (exec_keeps_values (by exact htorn) ha hx) hne

/-! ### All sub-steps of one operation -/

/-- Agreement up to the outputs and the count of free values does not depend on their values. -/
theorem SameState.of_outputs {o : Outputs} {n : Nat} (h : SameState t { u with out := o, freeIx := n }) :
    SameState t u := by
  have hu := congrArg (fun v : State => { v with out := u.out, freeIx := u.freeIx }) h
  exact hu

/-- A list of commuting sub-steps that leaves MEASST Idle, performed in the order of any picks, ends where the list does, with
the mutex free: no completion check still owed can be due then. -/
theorem runTickerSubSteps_sameState (picks : List Nat) (hne : s.bg.work ≠ []) (hcomm : s.bg.work.Pairwise Commute)
    (hlen : picks.length = s.bg.work.length) (hidle : (runSubSteps s.bg.work s).measst = .idle) :
    SameState (runTickerSubSteps picks s)
      { runSubSteps s.bg.work s with bg := { mutex := .free, work := [], mcDue := false } } := by
  induction picks generalizing s with
  | nil => exact absurd (List.length_eq_zero_iff.1 hlen.symm) hne
  | cons k picks ih =>
    obtain ⟨v, hv, -⟩ := pick_names k hne
    rw [runSubSteps_pull hcomm hv] at hidle ⊢
    rw [List.length_cons] at hlen
    rw [runTickerSubSteps]
    by_cases hlast : s.bg.work.eraseIdx (k % s.bg.work.length) = []
    · have hone : s.bg.work.length = 1 := by
        have := length_eraseIdx_pick hv
        rw [hlast, List.length_nil] at this
        omega
      obtain rfl : picks = [] := List.length_eq_zero_iff.1 (by omega)
      rw [hlast] at hidle ⊢
      refine tickerSubStep_last_sameState hv hone fun hdue => ?_
      exact absurd (hdue.2.1.symm.trans hidle) (by decide)
    · have hmore := tickerSubStep_more hv hlast
      have hrest := ih (s := tickerSubStep k s)
      rw [hmore] at hrest ⊢
      dsimp only at hrest
      rw [runSubSteps_indep] at hrest
      refine SameState.of_outputs (hrest hlast ?_ ?_ hidle)
      · exact hcomm.sublist (List.eraseIdx_sublist ..)
      · rw [length_eraseIdx_pick hv, ← hlen, Nat.add_sub_cancel]

/-- Settles O48: the sub-steps of lock() commute, and so do those of complete(); both leave MEASST Idle. -/
theorem subStepsInAnyOrderEqualTheAtomicOperation : Obligations.SubStepsInAnyOrderEqualTheAtomicOperation := by
  rintro s ops picks hops rfl hlen
  obtain hw | ⟨x, y, hw⟩ := hops
  · refine runTickerSubSteps_sameState picks ?_ ?_ hlen ?_ <;> rw [hw]
    · exact nofun
    · exact lockSubSteps_commute
    · rfl
  · refine runTickerSubSteps_sameState picks ?_ ?_ hlen ?_ <;> rw [hw]
    · exact nofun
    · exact completeSubSteps_commute x y
    · rfl

/-! ### Bus events while the mutex is held -/

theorem phase_of_wbyteCalls {d : Byte} (h : wbyteCalls d s = true) : s.phase = .addressed := by
  by_contra hp
  simp [wbyteCalls, hp] at h

/-- The data bytes that call, in the terms of the statements (41_protocol_engine.md R126, R127). -/
theorem wbyteCalls_iff_invokes {d : Byte} :
    wbyteCalls d s = true ↔ InvokesUnlock (.wbyte d) s ∨ InvokesStart (.wbyte d) s := by
  constructor
  · intro h
    have hp := phase_of_wbyteCalls h
    obtain ⟨hap, hbit⟩ | ⟨hap, rfl⟩ := (wbyteCalls_iff d s hp).1 h
    · exact .inr ⟨d, ⟨rfl, hp⟩, hap, hbit⟩
    · exact .inl ⟨⟨rfl, hp⟩, hap⟩
  · rintro (⟨⟨hd, hp⟩, hap⟩ | ⟨_, ⟨hd, hp⟩, hap, hbit⟩)
    · exact (wbyteCalls_iff d s hp).2 (.inr ⟨hap, Instr.wbyte.inj hd⟩)
    · exact (wbyteCalls_iff d s hp).2 (.inl ⟨hap, Instr.wbyte.inj hd ▸ hbit⟩)

theorem exec_call_of_no_drop {d : Byte} (hheld : held s = true) (hdrop : s.cfg.busDrop = false)
    (hcall : wbyteCalls d s = true) : exec (.wbyte d) s = .fault .mutexHeld := by
  obtain ⟨-, -, e⟩ | ⟨-, -, hd, -⟩ | ⟨hc, -⟩ := execWbyte_cases d s
  · exact e
  · simp [hdrop] at hd
  · simp [hheld, hcall] at hc

/-- A dropped call is stored, advances AP and emits diagnostic 5 (R75). -/
theorem wbyte_drop_of_calls {d : Byte} (hcall : wbyteCalls d s = true) :
    wbyte true d s = advance (emitDiag .sideEffectDropped (setReg s.ap d s)) := by
  have hp := phase_of_wbyteCalls hcall
  have h1 : isReadOnly 1 = false := rfl
  have h10 : isReadOnly 10 = false := rfl
  obtain ⟨hap, hbit⟩ | ⟨hap, rfl⟩ := (wbyteCalls_iff d s hp).1 hcall
  · simp [wbyte, hp, wbyteData, hap, busWrite_writable d h1, wbyteSideEffect, startBit, hbit]
  · simp [wbyte, hp, wbyteData, hap, busWrite_writable _ h10, wbyteSideEffect]

/-- A call that finds the mutex held is held, or with `BUS_DROP` may be dropped. -/
theorem exec_call_of_held {d : Byte} (hheld : held s = true) (hcall : wbyteCalls d s = true) :
    exec (.wbyte d) s = .fault .mutexHeld ∨
      exec (.wbyte d) s = .next (advance (emitDiag .sideEffectDropped (setReg s.ap d (beginEvent s)))) := by
  obtain ⟨-, -, e⟩ | ⟨-, -, -, e⟩ | ⟨hfree, -⟩ := execWbyte_cases d s
  · exact .inl e
  · exact .inr (e.trans (congrArg _ (wbyte_drop_of_calls hcall)))
  · simp [hheld, hcall] at hfree

/-- Settles O51: a call that finds the mutex held has no step, or with `BUS_DROP` may be stored and dropped. -/
theorem busDropHoldsOrDropsTheCall : Obligations.BusDropHoldsOrDropsTheCall := by
  refine ⟨rfl, fun s d hheld hinvokes => ⟨fun hdrop t => ?_, fun _ => ?_⟩⟩
  · rw [exec_call_of_no_drop hheld hdrop (wbyteCalls_iff_invokes.2 hinvokes)]
    exact nofun
  · obtain e | e := exec_call_of_held hheld (wbyteCalls_iff_invokes.2 hinvokes)
    · refine .inl fun t => ?_
      rw [e]
      exact nofun
    · exact .inr ⟨_, e, rfl, rfl, nofun, rfl⟩

/-- The bus word that is taken after the arrivals, and the state it leaves. -/
theorem takeBus_arrive {w : EventWord} {rest : List EventWord} (b : Boundary) (hreg : s.initError = none)
    (hq : s.ports.busQ = w :: rest) :
    takeBus (arrive b s) = some (w,
      { s with
        ports :=
          { busQ := rest ++ busSends (phaseAfterWords s.phase (w :: rest)) b.bus
            tmrQ := s.ports.tmrQ ++ tickerSends s.cfg.tickerMode b.tmr
            env := s.ports.env.tail } }) := by
  simp [takeBus, arrive, hreg, hq]

theorem nextBoundary_cons {b : Boundary} {bs : List Boundary} (h : s.ports.env = b :: bs) : nextBoundary s = b := by
  simp [nextBoundary, h]

theorem runTorn_of_waiting {b : Boundary} {w : EventWord} (hturn : b.busMoves = true) (htake : takeBus s = some (w, u))
    (h : exec (decode w) u = .fault .mutexHeld) : runTorn b s = .next (tickerSubStep b.pick s) := by
  simp [runTorn, hturn, htake, h]

theorem runTorn_of_next {b : Boundary} {w : EventWord} (hturn : b.busMoves = true) (htake : takeBus s = some (w, u))
    (h : exec (decode w) u = .next t) : runTorn b s = .next t := by
  simp [runTorn, hturn, htake, h]

/-- Settles O50: the call has no step, so the Ticker moves, and its sub-step keeps the channels. -/
theorem busCallsAreHeldWhileTheMutexIsHeld : Obligations.BusCallsAreHeldWhileTheMutexIsHeld := by
  intro s d hheld hdrop hinvokes
  have hcall := wbyteCalls_iff_invokes.2 hinvokes
  refine ⟨exec_call_of_no_drop hheld hdrop hcall, fun w rest b bs hw hreg hq henv hrst hturn => ?_⟩
  obtain rfl : nextBoundary s = b := nextBoundary_cons henv
  have hwaits := runTorn_of_waiting hturn (takeBus_arrive (nextBoundary s) hreg hq)
    (by rw [hw]; exact exec_call_of_no_drop hheld hdrop hcall)
  obtain ⟨hports, -⟩ := tickerSubStep_keeps (nextBoundary s).pick (arrive (nextBoundary s) s)
  refine ⟨(step_of_held hrst hheld).trans hwaits, ?_⟩
  rw [hports]
  simp [arrive, hq]

/-- An event that is no timer event and calls neither start() nor unlock() has a step in every state. -/
theorem exec_next_of_plain (hi : ¬(i = .tick ∨ i = .chkto ∨ i = .chkmc)) (hunlock : ¬InvokesUnlock i s)
    (hstart : ¬InvokesStart i s) : ∃ t, exec i s = .next t := by
  cases i with
  | wbyte d =>
    have hcall : ¬wbyteCalls d s = true := fun h => (wbyteCalls_iff_invokes.1 h).elim hunlock hstart
    obtain ⟨-, h, -⟩ | ⟨-, h, -⟩ | ⟨-, e⟩ := execWbyte_cases d s
    · exact absurd h hcall
    · exact absurd h hcall
    · exact ⟨_, e⟩
  | tick => exact absurd (.inl rfl) hi
  | chkto => exact absurd (.inr (.inl rfl)) hi
  | chkmc => exact absurd (.inr (.inr rfl)) hi
  | nop => exact ⟨_, rfl⟩
  | wstart => exact ⟨_, rfl⟩
  | rreq => exact ⟨_, rfl⟩
  | rcont => exact ⟨_, rfl⟩
  | stop => exact ⟨_, rfl⟩
  | reserved w => exact ⟨_, rfl⟩

/-- Settles O52: such an event has a step in the state the arbiter leaves, and it leaves the operation alone. -/
theorem plainBusEventsRunBetweenSubSteps : Obligations.PlainBusEventsRunBetweenSubSteps := by
  intro s w rest b bs hheld hreg hq henv hrst hturn htick hchkto hchkmc hunlock hstart
  obtain rfl : nextBoundary s = b := nextBoundary_cons henv
  have htake := takeBus_arrive (nextBoundary s) hreg hq
  rw [henv, List.tail_cons] at htake
  have hplain : ∀ p, ∃ t, exec (decode w) { s with ports := p } = .next t := fun p =>
    exec_next_of_plain (by simp [htick, hchkto, hchkmc]) hunlock hstart
  refine (hplain _).imp fun t ht => ⟨ht, (step_of_held hrst hheld).trans (runTorn_of_next hturn htake ht), ?_⟩
  obtain ⟨-, hb, -⟩ := exec_while_held (by exact hheld) ht
  exact hb

/-! ### The values of a completion, and the arbiter -/

/-- Settles O28: the bytes that complete() writes, and the words they make. -/
theorem completionSplitsTheValuesByName : Obligations.CompletionSplitsTheValuesByName := by
  intro x y s
  rw [completeWith, runSubSteps_complete]
  refine ⟨temperature_completedState x y, humidity_completedState x y, ?_, ?_, ?_, ?_⟩ <;> simp [getReg_completedState]

/-- Settles O53: a step without a reset and without the mutex is the next event of the stream. -/
theorem stepRunsTheDecodedEvent : Obligations.StepRunsTheDecodedEvent := by
  intro s hrst hfree
  have hfree' : held (arrive (nextBoundary s) s) = false := hfree
  have hstep : step s = runEvent (arrive (nextBoundary s) s) := by
    simp only [step, hrst, hfree', Bool.false_eq_true, if_false]
  refine ⟨fun w u i hfetch hw => ?_, fun hfetch => ?_⟩
  · simp [hstep, runEvent, hfetch, hw]
  · simp [hstep, runEvent, hfetch]

/-- Settles O55: the first word of the bus channel, else the first of the timer channel; arrivals join behind. -/
theorem theArbiterTakesTheBusFirst : Obligations.TheArbiterTakesTheBusFirst := by
  refine fun s w rest => ⟨fun hreg hq => ?_, fun hreg hempty hq => ?_, fun b => ⟨rfl, rfl⟩⟩
  · simp [fetchEvent, takeBus, hreg, hq]
  · simp [fetchEvent, takeBus, takeTimer, hreg, hempty, hq]

end Sys2Proof.Proofs

/-! PROOFS. The family of 30_encoding.md: the fields of an event word, the decoder and the encoder, the opcode map, which
events read DATA and which respond, and the word that is placed on a channel. -/

namespace Sys2Proof.Proofs

open Sys2Proof.Machine Sys2Proof.Safety

variable {i j : Instr} {w w' : EventWord} {s t u : State}

/-! ### The fields of an event word -/

/-- Bits 15..8 of a word, KIND and RSVD: all that a row of the opcode map tests. -/
def opcodeField (w : EventWord) : Byte := w.extractLsb' 8 8

theorem opcodeField_append_dataField (w : EventWord) : opcodeField w ++ dataField w = w :=
  (BitVec.extractLsb'_append_extractLsb'_eq_extractLsb' rfl).trans BitVec.extractLsb'_eq_self

theorem kindField_append_rsvdField (w : EventWord) : kindField w ++ rsvdField w = opcodeField w :=
  BitVec.extractLsb'_append_extractLsb'_eq_extractLsb' rfl

theorem kindField_eq (w : EventWord) : kindField w = (opcodeField w).extractLsb' 4 4 := by
  rw [← kindField_append_rsvdField, BitVec.extractLsb'_append_eq_left]

theorem rsvdField_eq (w : EventWord) : rsvdField w = (opcodeField w).extractLsb' 0 4 := by
  rw [← kindField_append_rsvdField, BitVec.extractLsb'_append_eq_right]

@[simp] theorem opcodeField_append (b d : Byte) : opcodeField (b ++ d : EventWord) = b :=
  BitVec.extractLsb'_append_eq_left

@[simp] theorem dataField_append (b d : Byte) : dataField (b ++ d : EventWord) = d :=
  BitVec.extractLsb'_append_eq_right

/-- The mask 0xFF00 keeps KIND and RSVD and clears DATA. -/
theorem and_opcodeMask (w : EventWord) : w &&& 0xFF00#16 = opcodeField w ++ 0x00#8 := by
  have h : (opcodeField w ++ dataField w) &&& (0xFF#8 ++ 0x00#8) = opcodeField w ++ 0x00#8 := by
    rw [BitVec.and_append, BitVec.and_zero]
    exact congrArg (· ++ 0x00#8) BitVec.and_allOnes
  rwa [opcodeField_append_dataField] at h

/-- A word of one of the eight events without operand: RSVD is zero and KIND is 0, 1 or 3 to 8 (R82). -/
abbrev IsPlainWord (w : EventWord) : Prop := rsvdField w = 0#4 ∧ kindField w ≠ 2#4 ∧ (kindField w).toNat < 9

/-- The reserved words, in terms of the fields (R86). -/
theorem isReservedWord_iff : isReservedWord w = true ↔ rsvdField w ≠ 0#4 ∨ 9 ≤ (kindField w).toNat := by
  have hbits : ∀ r : BitVec 4,
      (((r.getLsbD 0 = true ∨ r.getLsbD 1 = true) ∨ r.getLsbD 2 = true) ∨ r.getLsbD 3 = true) ↔ r ≠ 0#4 := by decide
  have hkind : 0x9000 ≤ w.toNat ↔ 9 ≤ (kindField w).toNat := by
    simp only [kindField, BitVec.extractLsb'_toNat, Nat.shiftRight_eq_div_pow]
    omega
  simp [isReservedWord, hkind, ← hbits, rsvdField]

/-- Every word is one of an event without operand, one of WBYTE, or reserved. -/
theorem word_cases (w : EventWord) : IsPlainWord w ∨ (∃ d : Byte, w = 0x20#8 ++ d) ∨ isReservedWord w = true := by
  rw [isReservedWord_iff]
  by_cases hr : rsvdField w = 0#4
  · by_cases hk : kindField w = 2#4
    · have hop : opcodeField w = 0x20#8 := by rw [← kindField_append_rsvdField, hk, hr]; rfl
      exact .inr (.inl ⟨dataField w, by rw [← hop, opcodeField_append_dataField]⟩)
    · by_cases h9 : (kindField w).toNat < 9
      · exact .inl ⟨hr, hk, h9⟩
      · exact .inr (.inr (.inr (Nat.le_of_not_lt h9)))
  · exact .inr (.inr (.inl hr))

/-! ### The decoder -/

theorem decode_of_reservedWord (h : isReservedWord w = true) : decode w = .reserved w := by
  unfold decode
  split
  · rfl
  · next hr =>
    obtain ⟨n, hn⟩ := Nat.exists_eq_add_of_le' ((isReservedWord_iff.1 h).resolve_left hr)
    rw [hn]
    rfl

theorem decode_wbyteWord (d : Byte) : decode (0x20#8 ++ d) = .wbyte d := by
  simp [decode, kindField_eq, rsvdField_eq]

/-- The decoder ignores DATA in the word of an event without operand (R83). -/
theorem decode_of_plainWord (h : IsPlainWord w) : decode w = decode (w &&& 0xFF00#16) := by
  obtain ⟨hr, hk, h9⟩ := h
  have hop : opcodeField (w &&& 0xFF00#16) = opcodeField w := by rw [and_opcodeMask, opcodeField_append]
  have hkind : kindField (w &&& 0xFF00#16) = kindField w := by rw [kindField_eq, hop, ← kindField_eq]
  have hrsvd : rsvdField (w &&& 0xFF00#16) = rsvdField w := by rw [rsvdField_eq, hop, ← rsvdField_eq]
  have hk' : (kindField w).toNat ≠ 2 := fun e => hk (BitVec.eq_of_toNat_eq e)
  simp only [decode, hkind, hrsvd, hr, ne_eq, not_true_eq_false, if_false]
  generalize (kindField w).toNat = n at h9 hk'
  obtain hlow | rfl | hhigh := Nat.lt_trichotomy n 2
  · interval_cases n <;> rfl
  · exact absurd rfl hk'
  · interval_cases n <;> rfl

/-- The mnemonic never depends on DATA, and so is that of the word with DATA cleared. -/
theorem decode_mnemonic_congr (h : opcodeField w = opcodeField w') : (decode w).mnemonic = (decode w').mnemonic := by
  simp only [decode, kindField_eq, rsvdField_eq, h]
  split
  · rfl
  · split <;> rfl

theorem decode_mnemonic (w : EventWord) : (decode w).mnemonic = (decode (opcodeField w ++ 0x00#8)).mnemonic :=
  decode_mnemonic_congr (opcodeField_append ..).symm

/-- Settles O3: by cases on the event; of a RESERVED event well-formedness says that its word is reserved. -/
theorem decodeOfEncodeIsTheEvent : Obligations.DecodeOfEncodeIsTheEvent := by
  intro i hi
  cases i with
  | wbyte d => exact decode_wbyteWord d
  | reserved w => exact decode_of_reservedWord hi
  | _ => rfl

/-- Settles O2: RSVD is tested first, then KIND; above 8 KIND makes a word reserved. -/
theorem decodeFollowsKindAndRsvdOnEveryWord : Obligations.DecodeFollowsKindAndRsvdOnEveryWord := by
  refine fun w => ⟨fun hr => if_pos hr, fun hr => ⟨?_, ?_, ?_, ?_, ?_, ?_, ?_, ?_, ?_, fun hk => ?_⟩⟩
  case refine_10 => exact decode_of_reservedWord (isReservedWord_iff.2 (.inr hk))
  all_goals
    intro hk
    simp [decode, rsvdField, kindField, dataField, hr, hk]

/-! ### The encoder on what is decoded -/

/-- With DATA cleared, the word of an event without operand is the event's canonical word (R89). -/
theorem decode_canonical_of_plainWord (h : IsPlainWord w) :
    (decode (w &&& 0xFF00#16)).wf = true ∧ encode (decode (w &&& 0xFF00#16)) = w &&& 0xFF00#16 := by
  have hkinds : ∀ k : BitVec 4, k ≠ 2#4 → k.toNat < 9 →
      (decode (k ++ 0#4 ++ 0#8)).wf = true ∧ encode (decode (k ++ 0#4 ++ 0#8)) = k ++ 0#4 ++ 0#8 := by decide
  obtain ⟨hr, hk, h9⟩ := h
  rw [and_opcodeMask, ← kindField_append_rsvdField, hr]
  exact hkinds _ hk h9

theorem decode_wf (w : EventWord) : (decode w).wf = true := by
  obtain h | ⟨d, rfl⟩ | h := word_cases w
  · rw [decode_of_plainWord h]
    exact (decode_canonical_of_plainWord h).1
  · rw [decode_wbyteWord]
    rfl
  · rw [decode_of_reservedWord h]
    exact h

theorem encode_decode_of_plainWord (h : IsPlainWord w) : encode (decode w) = w &&& 0xFF00#16 := by
  rw [decode_of_plainWord h]
  exact (decode_canonical_of_plainWord h).2

theorem encode_decode_of_not_plainWord (h : ¬IsPlainWord w) : encode (decode w) = w := by
  obtain ⟨d, rfl⟩ | h := (word_cases w).resolve_left h
  · rw [decode_wbyteWord]
    rfl
  · rw [decode_of_reservedWord h]
    rfl

theorem opcodeField_encode_decode (w : EventWord) : opcodeField (encode (decode w)) = opcodeField w := by
  by_cases h : IsPlainWord w
  · rw [encode_decode_of_plainWord h, and_opcodeMask, opcodeField_append]
  · rw [encode_decode_of_not_plainWord h]

/-- Settles O4: a word of an event without operand loses DATA, every other word is kept. -/
theorem encodeOfDecodeClearsOnlyIgnoredBits : Obligations.EncodeOfDecodeClearsOnlyIgnoredBits := fun w =>
  ⟨decode_wf w, encode_decode_of_plainWord, encode_decode_of_not_plainWord⟩

/-! ### The opcode map -/

/-- No row tests a bit of DATA. -/
theorem rowMatches_congr {r : OpcodeRow} (hr : r ∈ opcodeRows) (h : opcodeField w = opcodeField w') :
    rowMatches r w = rowMatches r w' := by
  have hmask : ∀ r ∈ opcodeRows, 0xFF00#16 &&& r.mask = r.mask := by decide
  rw [rowMatches, rowMatches, ← hmask r hr, ← BitVec.and_assoc, ← BitVec.and_assoc, and_opcodeMask, and_opcodeMask, h]

/-- The family InOpcodeMap, for every event. -/
theorem inOpcodeMap (i : Instr) : Laws.InOpcodeMap.Statement i := by
  cases i with
  | nop => exact Laws.InOpcodeMap.nop
  | wstart => exact Laws.InOpcodeMap.wstart
  | wbyte d => exact Laws.InOpcodeMap.wbyte d
  | rreq => exact Laws.InOpcodeMap.rreq
  | rcont => exact Laws.InOpcodeMap.rcont
  | stop => exact Laws.InOpcodeMap.stop
  | tick => exact Laws.InOpcodeMap.tick
  | chkto => exact Laws.InOpcodeMap.chkto
  | chkmc => exact Laws.InOpcodeMap.chkmc
  | reserved w => exact Laws.InOpcodeMap.reserved w

/-- Some row of its mnemonic matches a word, since one matches the canonical word of the decoded event. -/
theorem exists_rowMatches (w : EventWord) :
    ∃ r ∈ opcodeRows, r.mnemonic = (decode w).mnemonic ∧ rowMatches r w = true := by
  obtain ⟨r, hr, hm, hmatch⟩ := inOpcodeMap (decode w) (decode_wf w)
  exact ⟨r, hr, hm, (rowMatches_congr hr (opcodeField_encode_decode w)).symm.trans hmatch⟩

/-- Match and mask of the three RESERVED rows that test KIND alone: 1001, 101x and 11xx. -/
def reservedKinds : List (BitVec 4 × BitVec 4) := [(0x9#4, 0xF#4), (0xA#4, 0xE#4), (0xC#4, 0xC#4)]

/-- The rows of the map: one for each other event, which tests KIND and RSVD whole; of RESERVED four that test one bit of
RSVD and three that test KIND alone. -/
theorem opcodeRow_cases : ∀ r ∈ opcodeRows,
    (r.mask = 0xFF00#16 ∧ (decode r.bits).mnemonic = r.mnemonic) ∨
      (∃ n ∈ [8, 9, 10, 11], r = ⟨.RESERVED, BitVec.twoPow 16 n, BitVec.twoPow 16 n⟩) ∨
        ∃ p ∈ reservedKinds, r = ⟨.RESERVED, p.1 ++ 0#12, p.2 ++ 0#12⟩ := by decide

theorem isReservedWord_of_rsvdRow {n : Nat} (hn : n ∈ [8, 9, 10, 11])
    (h : w &&& BitVec.twoPow 16 n = BitVec.twoPow 16 n) : isReservedWord w = true := by
  have hpow : ∀ n ∈ [8, 9, 10, 11], 0#16 ≠ BitVec.twoPow 16 n := by decide
  have hbit : w.getLsbD n = true := by
    by_contra hbit
    rw [BitVec.and_twoPow, if_neg hbit] at h
    exact hpow n hn h
  simp only [List.mem_cons, List.not_mem_nil, or_false] at hn
  obtain rfl | rfl | rfl | rfl := hn <;> simp [isReservedWord, -BitVec.getLsbD_eq_getElem, hbit]

theorem isReservedWord_of_kindRow {p : BitVec 4 × BitVec 4} (hp : p ∈ reservedKinds)
    (h : rowMatches ⟨.RESERVED, p.1 ++ 0#12, p.2 ++ 0#12⟩ w = true) : isReservedWord w = true := by
  have hkinds : ∀ p ∈ reservedKinds, ∀ k : BitVec 4, k &&& p.2 = p.1 → 9 ≤ k.toNat := by
    simp only [reservedKinds, List.forall_mem_cons]
    exact ⟨by decide, by decide, by decide, nofun⟩
  rw [Laws.InOpcodeMap.kindRow_matches, beq_iff_eq] at h
  exact isReservedWord_iff.2 (.inr (hkinds p hp _ h))

/-- A row that matches a word is one of the mnemonic the word decodes to. -/
theorem mnemonic_of_rowMatches {r : OpcodeRow} (hr : r ∈ opcodeRows) (h : rowMatches r w = true) :
    (decode w).mnemonic = r.mnemonic := by
  obtain ⟨hmask, hbits⟩ | ⟨n, hn, rfl⟩ | ⟨p, hp, rfl⟩ := opcodeRow_cases r hr
  · have hop : opcodeField w ++ 0x00#8 = r.bits := by
      rw [← and_opcodeMask, ← hmask]
      exact beq_iff_eq.1 h
    rw [decode_mnemonic, hop, hbits]
  · rw [decode_of_reservedWord (isReservedWord_of_rsvdRow hn (beq_iff_eq.1 h))]
    rfl
  · rw [decode_of_reservedWord (isReservedWord_of_kindRow hp h)]
    rfl

/-- Settles O5: the rows that match a word are of its decoded mnemonic, and there is one. -/
theorem opcodeRowsOfOneMnemonicMatchEachWord : Obligations.OpcodeRowsOfOneMnemonicMatchEachWord := by
  refine fun w m => ⟨?_, ?_⟩
  · rintro ⟨r, hr, rfl, h⟩
    exact mnemonic_of_rowMatches hr (beq_iff_eq.2 h)
  · rintro rfl
    obtain ⟨r, hr, hm, h⟩ := exists_rowMatches w
    exact ⟨r, hr, hm, beq_iff_eq.1 h⟩

/-! ### Which events read DATA -/

/-- Events of one mnemonic have one effect, unless they are write-bytes; RESERVED ignores its word (R132). -/
theorem exec_eq_of_mnemonic_eq (h : i.mnemonic = j.mnemonic) (hi : i.mnemonic ≠ .WBYTE) : exec i s = exec j s := by
  cases i with
  | wbyte d => exact absurd rfl hi
  | _ =>
    cases j <;> cases h
    rfl

theorem decode_of_opcodeField_wbyte (h : opcodeField w = 0x20#8) : decode w = .wbyte (dataField w) := by
  rw [← decode_wbyteWord, ← h, opcodeField_append_dataField]

theorem opcodeField_of_mnemonic_wbyte (h : (decode w).mnemonic = .WBYTE) : opcodeField w = 0x20#8 := by
  have hop := opcodeField_encode_decode w
  cases hdec : decode w with
  | wbyte d => rw [← hop, hdec, encode, opcodeField_append]
  | _ => rw [hdec] at h; cases h

theorem isReadOnly_eq_false_of_writable {a : Reg} : a = 1 ∨ a = 7 ∨ a = 8 ∨ a = 10 → isReadOnly a = false := by
  revert a; decide

/-- A stored data byte stands in the register it was written to, whatever its side effect. -/
theorem getReg_wbyteSideEffect (drop : Bool) (d : Byte) (hw : isReadOnly s.ap = false) :
    getReg (wbyteSideEffect drop s.ap d (setReg s.ap d (beginEvent s))) s.ap = d := by
  obtain ⟨-, hap, -, -, -, e⟩ | ⟨-, hap, -, e⟩ | ⟨c, e, -⟩ := sideEffect_shape s drop d hw
  · rw [e, hap]; simp [getReg]
  · rw [e, hap]; simp [getReg_unlock]
  · rw [e]; simp

theorem getReg_of_exec_wbyte {d : Byte} (hp : s.phase = .addressed) (hw : isReadOnly s.ap = false)
    (h : exec (.wbyte d) s = .next t) : getReg t s.ap = d := by
  obtain ⟨hp', -⟩ | ⟨-, hro, -⟩ | ⟨-, -, drop, -, -, rfl⟩ := execWbyte_next s t d h
  · exact absurd hp hp'
  · simp [hw] at hro
  · exact getReg_wbyteSideEffect drop d hw

/-- Settles O6: DATA is lost with the mnemonic of any other event; of WBYTE it is the address byte or the stored byte. -/
theorem dataIsReadByWbyteOnly : Obligations.DataIsReadByWbyteOnly := by
  refine ⟨fun w w' s hop hne => ?_, fun w s hop => ?_⟩
  · exact exec_eq_of_mnemonic_eq (decode_mnemonic_congr hop) fun h => hne (opcodeField_of_mnemonic_wbyte h)
  · have hdec := decode_of_opcodeField_wbyte hop
    refine ⟨hdec, fun hp => ?_, fun hp ha t h => ?_⟩
    · have hphase : s.phase = .awaitingAddress ∨ s.phase = .idle := by cases hs : s.phase <;> simp_all
      rw [hdec]
      exact ⟨_, execWbyte_address s _ hphase, rfl⟩
    · rw [hdec] at h
      exact getReg_of_exec_wbyte hp (isReadOnly_eq_false_of_writable ha) h

/-! ### Which events respond -/

theorem exec_wbyte_rspValid {d : Byte} (h : exec (.wbyte d) s = .next t) : t.out.rspValid = false := by
  obtain ⟨-, rfl⟩ | ⟨-, -, rfl⟩ | ⟨-, -, drop, -, -, rfl⟩ := execWbyte_next s t d h
  · rfl
  · rfl
  · obtain ⟨-, -, -, -, -, -, hrsp, -⟩ := sideEffect_keeps drop s.ap d (setReg s.ap d (beginEvent s))
    exact hrsp

theorem exec_timer_rspValid (hi : i = .tick ∨ i = .chkto ∨ i = .chkmc) (h : exec i s = .next t) :
    t.out.rspValid = false := by
  obtain ⟨-, -, -, -, -, -, -, hout, -⟩ := timer_keeps i s t hi h
  rw [hout]
  rfl

theorem exec_rspValid (h : exec i s = .next t) : t.out.rspValid = true ↔ i = .rreq ∨ i = .rcont := by
  cases i with
  | wbyte d => simp [exec_wbyte_rspValid h]
  | tick => simp [exec_timer_rspValid (.inl rfl) h]
  | chkto => simp [exec_timer_rspValid (.inr (.inl rfl)) h]
  | chkmc => simp [exec_timer_rspValid (.inr (.inr rfl)) h]
  | _ => cases h; simp

theorem exec_read_rspData (hi : i = .rreq ∨ i = .rcont) (h : exec i s = .next t) : t.out.rspData = getReg s t.ap := by
  obtain rfl | rfl := hi <;> cases h <;> rfl

theorem exec_wbyte_of_free (d : Byte) (hfree : held s = false) : ∃ t, exec (.wbyte d) s = .next t := by
  obtain ⟨hheld, -⟩ | ⟨hheld, -⟩ | ⟨-, e⟩ := execWbyte_cases d s
  · simp [hfree] at hheld
  · simp [hfree] at hheld
  · exact ⟨_, e⟩

/-- Settles O18: the two reads drive their response, no other event does, and only a held WBYTE has no step. -/
theorem onlyReadEventsRespond : Obligations.OnlyReadEventsRespond :=
  ⟨fun _ _ _ h => ⟨exec_rspValid h, fun hi => exec_read_rspData hi h⟩, fun d _ hfree => exec_wbyte_of_free d hfree⟩

/-! ### A word placed on a channel -/

theorem takeBus_withFetchWord (n k : Nat) (hreg : s.initError = none) :
    takeBus (arrive State.quietBoundary (s.withFetchWord n k)) = some (BitVec.ofNat 16 k, s) := by
  obtain ⟨-, hbus, -⟩ := withFetchWord_arrives s n k
  rw [hbus hreg]
  exact if_neg (by simp [hreg])

/-- The arbiter takes the placed word and leaves the very state it was placed in, also in a failed block. -/
theorem fetchEvent_withFetchWord (n k : Nat) :
    fetchEvent (arrive State.quietBoundary (s.withFetchWord n k)) = some (BitVec.ofNat 16 k, s) := by
  cases hreg : s.initError with
  | none => rw [fetchEvent, takeBus_withFetchWord n k hreg]
  | some c =>
    have hfailed : s.initError.isSome = true := by rw [hreg]; rfl
    obtain ⟨-, -, htmr⟩ := withFetchWord_arrives s n k
    have hbus : takeBus { s with ports := { s.ports with tmrQ := BitVec.ofNat 16 k :: s.ports.tmrQ } } = none :=
      if_pos hfailed
    rw [htmr hfailed, fetchEvent, hbus]
    rfl

/-- While the mutex is held, BUS's turn is its event, where that need not wait. -/
theorem runTorn_of_runs {b : Boundary} (hturn : b.busMoves = true) (htake : takeBus s = some (w, u))
    (h : exec (decode w) u ≠ .fault .mutexHeld) : runTorn b s = exec (decode w) u := by
  rw [runTorn, if_pos hturn, htake]
  dsimp only
  split
  · next hx => exact absurd hx h
  · rfl

/-- Settles O54: nothing else arrives, so the arbiter, or BUS in its turn, takes the placed word. -/
theorem aPlacedWordRunsNext : Obligations.APlacedWordRunsNext := by
  intro s n k
  obtain ⟨hb, -⟩ := withFetchWord_arrives s n k
  have hrst : (nextBoundary (s.withFetchWord n k)).rst = false := by rw [hb]; rfl
  refine ⟨fun hfree => ?_, fun hheld hreg hruns => ?_⟩
  · obtain ⟨hfetch, -⟩ := stepRunsTheDecodedEvent (s.withFetchWord n k) hrst hfree
    refine hfetch _ _ _ ?_ rfl
    rw [hb, fetchEvent_withFetchWord]
  · rw [step_of_held hrst hheld, hb]
    exact runTorn_of_runs rfl (takeBus_withFetchWord n k hreg) hruns

end Sys2Proof.Proofs

/-! PROOFS. The family of 40_register_file.md: a data byte for a read-only register, and where the address pointer stands
after a write transaction and along a read burst. -/

namespace Sys2Proof.Proofs

open Sys2Proof.Machine Sys2Proof.Safety

variable {i : Instr} {s t u : State} {d : Byte}

/-! ### Data bytes and the pointer -/

/-- One step of the pointer and then `n` more, modulo 12 (R104). -/
theorem reg_succ_add_mod (a : Reg) (n : Nat) : ((a + 1).val + n) % 12 = (a.val + (n + 1)) % 12 := by
  rw [Fin.val_add, Nat.mod_add_mod, Nat.add_assoc, Nat.add_comm n]
  rfl

/-- Settles O9: the byte is rejected before any side effect, and the pointer advances all the same. -/
theorem dataByteToAReadOnlyRegisterIsRejected : Obligations.DataByteToAReadOnlyRegisterIsRejected := by
  intro s d hp ha
  exact ⟨_, execWbyte_readOnly s d hp ((isReadOnly_iff s.ap).2 ha), rfl, rfl, nofun, rfl⟩

/-- Rejected or stored, a data byte that has a step advances the pointer and stays in the data phase (R125). -/
theorem exec_wbyte_data (hp : s.phase = .addressed) (h : exec (.wbyte d) s = .next t) :
    t.ap = s.ap + 1 ∧ t.phase = .addressed := by
  obtain ⟨hne, -⟩ | ⟨-, -, rfl⟩ | ⟨-, -, drop, -, -, rfl⟩ := execWbyte_next s t d h
  · exact absurd hp hne
  · exact ⟨rfl, hp⟩
  · obtain ⟨hap, hphase, -⟩ := sideEffect_keeps drop s.ap d (setReg s.ap d (beginEvent s))
    exact ⟨congrArg (· + 1) hap, hphase.trans hp⟩

/-- No bus event takes or releases the mutex. -/
theorem exec_bus_held (hi : ¬(i = .tick ∨ i = .chkto ∨ i = .chkmc)) (h : exec i s = .next t) : held t = held s := by
  obtain ⟨hbg, hcfg, -⟩ := bus_shape i s t hi h
  exact held_congr hcfg hbg

theorem runEvents_cons (h : exec i s = .next t) (rest : List Instr) : runEvents (i :: rest) s = runEvents rest t := by
  rw [runEvents, h]

/-- The data bytes of a transaction, each advancing the pointer by one (R106). -/
theorem runEvents_dataBytes (vs : List Byte) (hfree : held s = false) (hp : s.phase = .addressed) :
    ∃ u, runEvents (vs.map Instr.wbyte) s = .next u ∧ u.ap.val = (s.ap.val + vs.length) % 12 ∧
      u.phase = .addressed := by
  induction vs generalizing s with
  | nil => exact ⟨s, rfl, (Nat.mod_eq_of_lt s.ap.isLt).symm, hp⟩
  | cons v vs ih =>
    obtain ⟨t, ht⟩ := exec_wbyte_of_free v hfree
    obtain ⟨hap, hphase⟩ := exec_wbyte_data hp ht
    obtain ⟨u, hrun, huap, hup⟩ := ih ((exec_bus_held (by simp) ht).trans hfree) hphase
    refine ⟨u, (runEvents_cons ht _).trans hrun, ?_, hup⟩
    rw [huap, hap, reg_succ_add_mod, List.length_cons]

/-- Settles O20: WSTART and the address byte set the pointer to A mod 12, and each of the N data bytes advances it. -/
theorem writeTransactionPointerLaw : Obligations.WriteTransactionPointerLaw := by
  intro a vs s hfree
  have hstart : exec .wstart s = .next (setPhase .awaitingAddress (beginEvent s)) := rfl
  have haddr : exec (.wbyte a) (setPhase .awaitingAddress (beginEvent s)) = _ := execWbyte_address _ a (.inl rfl)
  obtain ⟨u, hrun, hap, hphase⟩ := runEvents_dataBytes vs
    (s := wbyteAddress a (beginEvent (setPhase .awaitingAddress (beginEvent s)))) hfree rfl
  refine ⟨u, ?_, ?_, hphase⟩
  · rw [runEvents_cons hstart, runEvents_cons haddr, hrun]
  · rw [hap]
    exact Nat.mod_add_mod ..

/-! ### Read bursts -/

/-- The bytes of `n` registers from address `a` on, wrapping (R107). -/
def registersFrom (a : Reg) (n : Nat) (s : State) : List Byte :=
  (List.range n).map (fun k => getReg s (a + Fin.ofNat 12 k))

theorem registersFrom_succ (a : Reg) (n : Nat) (s : State) :
    registersFrom a (n + 1) s = getReg s a :: registersFrom (a + 1) n s := by
  have hnext (k : Nat) : a + Fin.ofNat 12 (k + 1) = a + 1 + Fin.ofNat 12 k := by
    ext
    simp [Fin.val_add]
    omega
  have hhere : a + Fin.ofNat 12 0 = a := add_zero a
  rw [registersFrom, List.range_succ_eq_map, List.map_cons, List.map_map, hhere]
  simp only [Function.comp_def, Nat.succ_eq_add_one, hnext, registersFrom]

theorem registersFrom_congr (h : t.regs = s.regs) (a : Reg) (n : Nat) :
    registersFrom a n t = registersFrom a n s := by
  simp only [registersFrom, getReg_congr h]

/-- A read event puts the register at the pointer in front of the responses of the rest of the run (R84). -/
theorem runResponses_read {rest : List Instr} {bs : List Byte} (hi : i = .rreq ∨ i = .rcont) (h : exec i s = .next t)
    (hrest : runResponses rest t = some (bs, u)) : runResponses (i :: rest) s = some (getReg s t.ap :: bs, u) := by
  have hvalid : t.out.rspValid = true := (exec_rspValid h).2 hi
  simp [runResponses, h, hrest, hvalid, exec_read_rspData hi h]

/-- Read-continues respond the registers behind the pointer, one after the other. -/
theorem runResponses_rconts (n : Nat) (s : State) :
    ∃ u, runResponses (List.replicate n .rcont) s = some (registersFrom (s.ap + 1) n s, u) ∧
      u.ap.val = (s.ap.val + n) % 12 ∧ u.regs = s.regs ∧ u.phase = s.phase := by
  induction n generalizing s with
  | zero => exact ⟨s, rfl, (Nat.mod_eq_of_lt s.ap.isLt).symm, rfl, rfl⟩
  | succ n ih =>
    obtain ⟨t, ht, hap, hregs, hphase⟩ :
        ∃ t, exec .rcont s = .next t ∧ t.ap = s.ap + 1 ∧ t.regs = s.regs ∧ t.phase = s.phase :=
      ⟨_, rfl, rfl, rfl, rfl⟩
    obtain ⟨u, hrun, huap, huregs, huphase⟩ := ih t
    refine ⟨u, ?_, ?_, huregs.trans hregs, huphase.trans hphase⟩
    · rw [List.replicate_succ, runResponses_read (.inr rfl) ht hrun, registersFrom_congr hregs, hap,
        registersFrom_succ (s.ap + 1)]
    · rw [huap, hap, reg_succ_add_mod]

/-- Settles O21: RREQ responds at the pointer itself and moves nothing; the read-continues respond what follows. -/
theorem readBurstRespondsConsecutiveRegisters : Obligations.ReadBurstRespondsConsecutiveRegisters := by
  intro n s
  obtain ⟨t, ht, hap, hregs, hphase⟩ :
      ∃ t, exec .rreq s = .next t ∧ t.ap = s.ap ∧ t.regs = s.regs ∧ t.phase = s.phase :=
    ⟨_, rfl, rfl, rfl, rfl⟩
  obtain ⟨u, hrun, huap, huregs, huphase⟩ := runResponses_rconts n t
  refine ⟨u, ?_, by rw [huap, hap], huregs.trans hregs, huphase.trans hphase⟩
  rw [runResponses_read (.inl rfl) ht hrun, registersFrom_congr hregs, hap, ← registersFrom_succ]
  rfl

end Sys2Proof.Proofs

/-! PROOFS. The family of 41_protocol_engine.md: what each bus event does to PHASE, the pointer, the registers and the
controllers, and what it responds. -/

namespace Sys2Proof.Proofs

open Sys2Proof.Machine Sys2Proof.Safety

variable {i : Instr} {s t : State} {d : Byte}

/-! ### Pointer and PHASE, over all events -/

/-- An address byte that has a step sets the pointer and enters the data phase (R122, R124). -/
theorem exec_wbyte_address (hp : s.phase ≠ .addressed) (h : exec (.wbyte d) s = .next t) :
    t.ap = addressOf d ∧ t.phase = .addressed := by
  obtain ⟨-, rfl⟩ | ⟨hp', -⟩ | ⟨hp', -⟩ := execWbyte_next s t d h
  · exact ⟨rfl, rfl⟩
  · exact absurd hp' hp
  · exact absurd hp' hp

/-- Settles O13: a data byte, rejected or stored, advances the pointer; an address byte replaces it. -/
theorem everyDataByteAdvancesThePointer : Obligations.EveryDataByteAdvancesThePointer := by
  intro s t d h
  refine ⟨fun hp => ?_, fun hp => ?_⟩
  · obtain ⟨hap, -⟩ := exec_wbyte_data hp h
    rw [hap]
    exact advance_ap_val
  · obtain ⟨hap, -⟩ := exec_wbyte_address hp h
    rw [hap, addressOf_val]

theorem exec_wbyte_phase (h : exec (.wbyte d) s = .next t) : t.phase = .addressed := by
  by_cases hp : s.phase = .addressed
  · exact (exec_wbyte_data hp h).2
  · exact (exec_wbyte_address hp h).2

theorem exec_timer_phase (hi : i = .tick ∨ i = .chkto ∨ i = .chkmc) (h : exec i s = .next t) : t.phase = s.phase := by
  obtain ⟨-, hphase, -⟩ := timer_keeps i s t hi h
  exact hphase

/-- The table of R133. -/
theorem exec_phase (h : exec i s = .next t) : t.phase = phaseAfter i s.phase := by
  cases i with
  | wbyte d => exact exec_wbyte_phase h
  | tick => exact exec_timer_phase (.inl rfl) h
  | chkto => exact exec_timer_phase (.inr (.inl rfl)) h
  | chkmc => exact exec_timer_phase (.inr (.inr rfl)) h
  | _ => cases h; rfl

/-- Settles O17: the table event by event, and the address byte's pointer. -/
theorem phaseFollowsTheTransitionTable : Obligations.PhaseFollowsTheTransitionTable := by
  intro i s t h
  refine ⟨exec_phase h, ?_⟩
  rintro d rfl hp
  exact (everyDataByteAdvancesThePointer s t d h).2 hp

/-! ### Events without a side effect -/

/-- Settles O7: PHASE is the one field written besides the outputs. -/
theorem wstartEntersTheAddressPhase : Obligations.WstartEntersTheAddressPhase :=
  ⟨rfl, fun s => ⟨setPhase .awaitingAddress (beginEvent s), rfl, rfl, rfl, nofun, rfl⟩⟩

/-- Settles O8: outside the data phase the byte goes to the pointer, so no register and no side effect is reached. -/
theorem wbyteOutsideTheDataPhaseSetsTheAddress : Obligations.WbyteOutsideTheDataPhaseSetsTheAddress := fun s d hp =>
  ⟨wbyteAddress d (beginEvent s), execWbyte_address s d hp, rfl, rfl, nofun, rfl⟩

/-- Settles O14: both events respond at the pointer that they leave, RCONT having advanced it. -/
theorem readEventsRespondAtThePointer : Obligations.ReadEventsRespondAtThePointer := by
  refine ⟨⟨rfl, fun s => ?_⟩, rfl, fun s => ?_⟩
  · exact ⟨_, rfl, rfl, rfl, fun _ hb => Option.some.inj hb, rfl⟩
  · exact ⟨_, rfl, rfl, rfl, fun _ hb => Option.some.inj hb, rfl⟩

/-- Settles O15: neither event goes further than the outputs. -/
theorem nopAndReservedWordsChangeNothing : Obligations.NopAndReservedWordsChangeNothing := by
  refine ⟨⟨rfl, fun s => ?_⟩, fun w s => ?_, rfl⟩
  · exact ⟨beginEvent s, rfl, rfl, rfl, nofun, rfl⟩
  · exact ⟨emitDiag .reservedEvent (beginEvent s), rfl, rfl, rfl, nofun, rfl⟩

/-- Settles O16: PHASE is the one field written besides the outputs, so the pointer stays. -/
theorem stopEndsTheTransactionAndKeepsThePointer : Obligations.StopEndsTheTransactionAndKeepsThePointer :=
  ⟨rfl, fun s => ⟨setPhase .idle (beginEvent s), rfl, rfl, rfl, nofun, rfl⟩⟩

/-! ### The side effects of CTRL1 and UNLOCK -/

theorem wbyteSideEffect_ctrl1_clear (drop : Bool) (s : State) (hbit : d[0] = false) :
    wbyteSideEffect drop 1 d s = s := by
  simp [wbyteSideEffect, startBit, hbit]

theorem wbyteSideEffect_ctrl1_start (s : State) (hbit : d[0] = true) :
    wbyteSideEffect false 1 d s = startMeasurement s := by
  simp [wbyteSideEffect, startBit, hbit]

theorem wbyteSideEffect_unlock_match (s : State) (hcode : d = getReg s 9) :
    wbyteSideEffect false 10 d s = unlock s := by
  simp [wbyteSideEffect, hcode]

theorem wbyteSideEffect_unlock_mismatch (drop : Bool) (s : State) (hcode : d ≠ getReg s 9) :
    wbyteSideEffect drop 10 d s = emitDiag .codeMismatch s := by
  simp [wbyteSideEffect, hcode]

/-- All that start() does to an Unlocked, Idle block whose CTRL1 was just stored, STATUS being as before the store. -/
theorem startedState_store_ctrl1 (s : State) (d : Byte) :
    startedState (setReg 1 d s) =
      { s with
        regs := (s.regs.set 1 d).set 2 (s.regs[2] &&& 0xFE#8)
        measst := .inProgress
        tStart := s.now } := by
  simp [startedState, clrStatusBit, setReg, getReg]

/-- All that unlock() does to a block whose UNLOCK was just stored, STATUS being as before the store. -/
theorem unlock_store_unlock (s : State) (d : Byte) :
    unlock (setReg 10 d s) =
      { s with
        regs := ((s.regs.set 10 d).set 2 (s.regs[2] &&& 0xFD#8)).set 11 0x00#8
        lockst := .unlocked
        tUnlock := s.now } := by
  simp [unlock, clrStatusBit, setReg, getReg]

/-- A data byte for the writable register at the pointer: stored, then its side effect, then the pointer advances (R125). -/
theorem exec_wbyte_store {a : Reg} {u : State} (hp : s.phase = .addressed) (hap : s.ap = a)
    (hw : isReadOnly a = false) (hcall : (held s && wbyteCalls d s) = false)
    (heffect : wbyteSideEffect false a d (setReg a d (beginEvent s)) = u) :
    exec (.wbyte d) s = .next (advance u) := by
  subst hap heffect
  exact execWbyte_writable s d hp hw hcall

/-- A data byte for a writable register whose side effect is no more than a diagnostic. -/
theorem yields_store_diag {a : Reg} {c : Diag} (hp : s.phase = .addressed) (hap : s.ap = a)
    (hw : isReadOnly a = false) (hcall : (held s && wbyteCalls d s) = false)
    (heffect : wbyteSideEffect false a d (setReg a d (beginEvent s)) = emitDiag c (setReg a d (beginEvent s))) :
    Yields (exec (.wbyte d) s) { s with regs := s.regs.set a d, ap := a + 1 } none c := by
  refine ⟨_, exec_wbyte_store hp hap hw hcall heffect, ?_, rfl, nofun, rfl⟩
  rw [← hap]
  rfl

/-- Settles O11: the byte is stored before its side effect, and start() tests LOCKST before MEASST. -/
theorem ctrl1StartBitCallsStart : Obligations.Ctrl1StartBitCallsStart := by
  intro s d hp hap
  have hfree (hheld : held s = false) : (held s && wbyteCalls d s) = false := by rw [hheld, Bool.false_and]
  refine ⟨fun hbit => ?_, fun hbit hheld hl => ?_, fun hbit hheld hl hm => ?_, fun hbit hheld hl hm => ?_⟩
  · have hcall : wbyteCalls d s = false := by simp [wbyteCalls, hap, startBit, hbit]
    exact yields_store_diag hp hap rfl (by rw [hcall, Bool.and_false]) (wbyteSideEffect_ctrl1_clear false _ hbit)
  · refine yields_store_diag hp hap rfl (hfree hheld) ?_
    simp [wbyteSideEffect_ctrl1_start _ hbit, startMeasurement_eq, hl]
  · refine yields_store_diag hp hap rfl (hfree hheld) ?_
    simp [wbyteSideEffect_ctrl1_start _ hbit, startMeasurement_eq, hl, hm]
  · have hstart : wbyteSideEffect false 1 d (setReg 1 d (beginEvent s)) = startedState (setReg 1 d (beginEvent s)) := by
      simp [wbyteSideEffect_ctrl1_start _ hbit, startMeasurement_eq, hl, hm]
    have hx := exec_wbyte_store hp hap rfl (hfree hheld) (hstart.trans (startedState_store_ctrl1 _ d))
    refine ⟨_, hx, ?_, rfl, nofun, rfl⟩
    simp [SameState, advance, hap]

/-- Settles O12: UNLOCK is not the register the byte is compared with, so the store does not disturb the comparison. -/
theorem unlockWriteComparesWithTheSessionCode : Obligations.UnlockWriteComparesWithTheSessionCode := by
  intro s d hp hap
  have hcode : getReg (setReg 10 d (beginEvent s)) 9 = getReg s 9 := by simp
  refine ⟨fun (hne : d ≠ getReg s 9) => ?_, fun heq hheld => ?_⟩
  · have hcall : wbyteCalls d s = false := by simp [wbyteCalls, hap, hne]
    exact yields_store_diag hp hap rfl (by rw [hcall, Bool.and_false])
      (wbyteSideEffect_unlock_mismatch false _ (hcode ▸ hne))
  · have hunlock := wbyteSideEffect_unlock_match _ (heq.trans hcode.symm)
    have hx := exec_wbyte_store hp hap rfl (by rw [hheld, Bool.false_and]) (hunlock.trans (unlock_store_unlock _ d))
    refine ⟨_, hx, ?_, rfl, nofun, rfl⟩
    simp [SameState, advance, hap]

end Sys2Proof.Proofs

/-! PROOFS. The family of 42_lock_controller.md: what lock() writes, which events move LOCKST and T_UNLOCK, and the instant at
which periodic mode relocks. -/

namespace Sys2Proof.Proofs

open Sys2Proof.Machine Sys2Proof.Safety

variable {i : Instr} {s t : State}

/-! ### lock() -/

theorem regs_eq_of_getReg (h : ∀ a, getReg t a = getReg s a) : t.regs = s.regs :=
  Vector.ext fun n hn => h ⟨n, hn⟩

/-- Of the legal values of STATUS only one has the locked flag up (R44, R48). -/
theorem status_of_locked (h : BlockInv s) (hl : s.lockst = .locked) : getReg s 2 = 0x02#8 := by
  obtain ⟨-, ⟨hflag, -⟩, -, -, -, hstatus⟩ := h
  have hup : lockedFlag s = true := by rw [hflag, hl]; rfl
  rcases hstatus with e | e | e
  · simp [lockedFlag, e] at hup
  · simp [lockedFlag, e] at hup
  · exact e

/-- In a Locked state that meets the invariants every register already holds what lock() writes. -/
theorem getReg_lockedState_of_locked (h : BlockInv s) (hl : s.lockst = .locked) (a : Reg) :
    getReg (lockedState s) a = getReg s a := by
  have hstatus := status_of_locked h hl
  obtain ⟨-, ⟨-, hmirror⟩, hforced, -⟩ := h
  obtain ⟨htempL, htempH, hhumidH, hhumidL, -⟩ := hforced hl
  rw [if_pos hl] at hmirror
  rw [getReg_lockedState]
  split_ifs with h2 hvalue h11
  · rw [h2, hstatus]; rfl
  · rcases hvalue with rfl | rfl | rfl | rfl
    exacts [htempL.symm, htempH.symm, hhumidH.symm, hhumidL.symm]
  · rw [h11]; exact hmirror.symm
  · rfl

theorem lockedState_of_locked (h : BlockInv s) (hl : s.lockst = .locked) : lockedState s = s := by
  have hregs : (lockedState s).regs = s.regs := regs_eq_of_getReg (getReg_lockedState_of_locked h hl)
  obtain ⟨-, -, hforced, -⟩ := h
  obtain ⟨-, -, -, -, -, hidle⟩ := hforced hl
  calc lockedState s
    _ = { s with lockst := .locked, measst := .idle, regs := (lockedState s).regs } := rfl
    _ = s := by rw [hregs, ← hl, ← hidle]

/-- Settles O27: the nine sub-steps leave `lockedState`, which a Locked state that meets the invariants already is. -/
theorem lockWritesItsNineElementsAndIsIdempotent : Obligations.LockWritesItsNineElementsAndIsIdempotent :=
  ⟨rfl, runSubSteps_lock, fun s h hl => (runSubSteps_lock s).trans (lockedState_of_locked h hl)⟩

/-! ### Who locks and who unlocks -/

theorem not_invokesUnlock_of_timer (hi : i = .tick ∨ i = .chkto ∨ i = .chkmc) : ¬InvokesUnlock i s := by
  rintro ⟨⟨hw, -⟩, -⟩
  simp [hw] at hi

theorem timer_of_timerLocks (h : TimerLocks i s) : i = .tick ∨ i = .chkto ∨ i = .chkmc := by
  obtain ⟨rfl, -⟩ | ⟨rfl, -⟩ := h
  · exact .inr (.inl rfl)
  · exact .inl rfl

theorem unlocked_of_timerLocks (h : TimerLocks i s) : s.lockst = .unlocked := by
  obtain ⟨-, hu, -⟩ | ⟨-, -, -, hu, -⟩ := h <;> exact hu

/-- A bus event with the mutex free moves LOCKST and T_UNLOCK by the correct code alone (R151, R153, R155). -/
theorem exec_bus_lock (hi : ¬(i = .tick ∨ i = .chkto ∨ i = .chkmc)) (hfree : held s = false) (h : exec i s = .next t) :
    t.lockst = (if InvokesUnlock i s then .unlocked else s.lockst) ∧
      t.tUnlock = if InvokesUnlock i s then s.now else s.tUnlock := by
  obtain ⟨-, -, -, -, -, -, -, ⟨-, hl, -, hstamp, -, hnot, -⟩ | ⟨d, -, -, -, hl, -, hstamp, -, hnot⟩ |
    ⟨-, hc, -, hl, -, hstamp, -⟩ | ⟨-, ⟨d, -, hap, -⟩, -, -, -, hl, -, hstamp, -⟩⟩ := bus_shape i s t hi h
  · rw [if_neg hnot, if_neg hnot]
    exact ⟨hl, hstamp⟩
  · rw [if_neg (hnot hfree).1, if_neg (hnot hfree).1]
    exact ⟨hl, hstamp⟩
  · rw [if_pos hc, if_pos hc]
    exact ⟨hl, hstamp⟩
  · have hnot : ¬InvokesUnlock i s := fun hc => absurd (hap.symm.trans hc.2) (by decide)
    rw [if_neg hnot, if_neg hnot]
    exact ⟨hl, hstamp⟩

/-- LOCKST after an event of atomic mode: the correct code unlocks, a due timeout check locks, nothing else moves it (R153). -/
theorem exec_lockst (hat : s.cfg.bgAtomic = true) (h : exec i s = .next t) :
    t.lockst = if InvokesUnlock i s then .unlocked else if TimerLocks i s then .locked else s.lockst := by
  by_cases hi : i = .tick ∨ i = .chkto ∨ i = .chkmc
  · rw [if_neg (not_invokesUnlock_of_timer hi)]
    obtain ⟨-, hl, -, hnot⟩ | ⟨-, hdue, -, hl, -⟩ | ⟨-, hnot, -, x, y, -, -, -, hl, -⟩ := timer_shape i s t hi h
    · rw [if_neg (hnot hat).2.1, hl]
    · rw [if_pos hdue, hl]
    · rw [if_neg hnot, hl]
  · rw [if_neg (mt timer_of_timerLocks hi)]
    exact (exec_bus_lock hi (held_of_atomic hat) h).1

/-- T_UNLOCK after an event with the mutex free: every correct UNLOCK write stamps it, and nothing else does (R151, R155). -/
theorem exec_tUnlock (hfree : held s = false) (h : exec i s = .next t) :
    t.tUnlock = if InvokesUnlock i s then s.now else s.tUnlock := by
  by_cases hi : i = .tick ∨ i = .chkto ∨ i = .chkmc
  · obtain ⟨-, -, hstamp, -⟩ := timer_keeps i s t hi h
    rw [if_neg (not_invokesUnlock_of_timer hi), hstamp]
  · exact (exec_bus_lock hi hfree h).2

/-- A Locked block unlocks by the correct code alone. -/
theorem exec_unlocks_iff (hat : s.cfg.bgAtomic = true) (h : exec i s = .next t) (hl : s.lockst = .locked) :
    t.lockst = .unlocked ↔ InvokesUnlock i s := by
  have hnot : ¬TimerLocks i s := fun hdue => absurd (hl.symm.trans (unlocked_of_timerLocks hdue)) (by decide)
  rw [exec_lockst hat h, if_neg hnot, hl]
  split_ifs with hc
  · exact iff_of_true rfl hc
  · exact iff_of_false (by decide) hc

/-- An Unlocked block locks by a due timeout check alone. -/
theorem exec_locks_iff (hat : s.cfg.bgAtomic = true) (h : exec i s = .next t) (hu : s.lockst = .unlocked) :
    t.lockst = .locked ↔ TimerLocks i s := by
  have hnot (hdue : TimerLocks i s) : ¬InvokesUnlock i s := not_invokesUnlock_of_timer (timer_of_timerLocks hdue)
  rw [exec_lockst hat h]
  by_cases hdue : TimerLocks i s
  · rw [if_neg (hnot hdue), if_pos hdue]
    exact iff_of_true rfl hdue
  · rw [if_neg hdue, hu, ite_self]
    exact iff_of_false (by decide) hdue

/-- Settles O32: what LOCKST and T_UNLOCK are after an event, read off for each of the two lock states. -/
theorem onlyTheTimeoutLocksAndOnlyTheCodeUnlocks : Obligations.OnlyTheTimeoutLocksAndOnlyTheCodeUnlocks := by
  intro i s t hat h
  have hstamp := exec_tUnlock (held_of_atomic hat) h
  exact ⟨exec_unlocks_iff hat h, exec_locks_iff hat h, fun hc => by rw [hstamp, if_pos hc],
    fun hc => by rw [hstamp, if_neg hc]⟩

/-! ### The relock instant -/

/-- The relock instant lies past the threshold, also for an unlock at this very instant. -/
theorem threshold_lt_relockTime (n : Nat) : n + 5000 < relockTime n := by
  simp only [relockTime, Config.tRelock, Config.pTimeout]
  omega

/-- The relock instant is the first multiple of P_TIMEOUT past the threshold (R154): an instant not past it is the relock
instant exactly if the timeout check is due there and past the threshold. -/
theorem eq_relockTime_iff {m n : Nat} (hle : m ≤ relockTime n) :
    m = relockTime n ↔ m % 1000 = 0 ∧ n + 5000 < m := by
  simp only [relockTime, Config.tRelock, Config.pTimeout] at hle ⊢
  omega

/-- The relock condition without a wrap of `now`, on natural numbers. -/
theorem relockDueAt_iff {m : Time} (hu : s.lockst = .unlocked) (hle : s.tUnlock.toNat ≤ m.toNat) :
    RelockDueAt m s ↔ s.tUnlock.toNat + 5000 < m.toNat := by
  have hsub : (m - s.tUnlock).toNat = m.toNat - s.tUnlock.toNat := BitVec.toNat_sub_of_le hle
  rw [RelockDueAt, hsub]
  simp only [hu, true_and]
  omega

theorem toNat_now_succ (hwrap : s.now.toNat + 1 < 2 ^ 64) : (s.now + 1).toNat = s.now.toNat + 1 :=
  BitVec.toNat_add_of_lt hwrap

/-- Before the relock instant, in periodic, atomic mode, the TICK that reaches it is the one that locks. -/
theorem exec_tick_locks_iff (hat : s.cfg.bgAtomic = true) (hp : s.cfg.tickerMode = .periodic)
    (hwrap : s.now.toNat + 1 < 2 ^ 64) (hu : s.lockst = .unlocked) (hle : s.tUnlock.toNat ≤ s.now.toNat)
    (hlt : s.now.toNat < relockTime s.tUnlock.toNat) (h : exec .tick s = .next t) :
    t.lockst = .locked ↔ s.now.toNat + 1 = relockTime s.tUnlock.toNat := by
  have hnow := toNat_now_succ hwrap
  calc t.lockst = .locked
    _ ↔ TimerLocks .tick s := exec_locks_iff hat h hu
    _ ↔ (s.now + 1).toNat % 1000 = 0 ∧ RelockDueAt (s.now + 1) s := by simp [TimerLocks, hp]
    _ ↔ (s.now.toNat + 1) % 1000 = 0 ∧ s.tUnlock.toNat + 5000 < s.now.toNat + 1 := by
      rw [relockDueAt_iff hu (hnow ▸ Nat.le_succ_of_le hle), hnow]
    _ ↔ s.now.toNat + 1 = relockTime s.tUnlock.toNat := (eq_relockTime_iff hlt).symm

/-- In periodic mode the only timer event that can lock is TICK, where the Ticker sends no separate check (R245). -/
theorem eq_tick_of_timerLocks (hp : s.cfg.tickerMode = .periodic) (hi : noSeparateCheck s.cfg i = true)
    (h : TimerLocks i s) : i = .tick := by
  obtain ⟨rfl, -⟩ | ⟨rfl, -⟩ := h
  · simp [noSeparateCheck, hp] at hi
  · rfl

/-- An event that leaves the block Unlocked, before its relock instant if it was Unlocked already, leaves it before its relock
instant: the correct code moves the instant into the future, and a TICK that does not lock does not reach it. -/
theorem exec_keeps_before_relock (hat : s.cfg.bgAtomic = true) (hp : s.cfg.tickerMode = .periodic)
    (hwrap : s.now.toNat + 1 < 2 ^ 64) (h : exec i s = .next t)
    (hs : s.lockst = .unlocked → s.tUnlock.toNat ≤ s.now.toNat ∧ s.now.toNat < relockTime s.tUnlock.toNat)
    (hut : t.lockst = .unlocked) : t.tUnlock.toNat ≤ t.now.toNat ∧ t.now.toNat < relockTime t.tUnlock.toNat := by
  have hnow := exec_now h
  have hstamp := exec_tUnlock (held_of_atomic hat) h
  by_cases hc : InvokesUnlock i s
  · have hbus : i ≠ .tick := fun hi => not_invokesUnlock_of_timer (.inl hi) hc
    have hpast := threshold_lt_relockTime s.now.toNat
    rw [hnow, if_neg hbus, hstamp, if_pos hc]
    exact ⟨Nat.le_refl _, by omega⟩
  · have hu : s.lockst = .unlocked := by
      cases hl : s.lockst with
      | unlocked => rfl
      | locked => exact absurd ((exec_unlocks_iff hat h hl).1 hut) hc
    obtain ⟨hle, hlt⟩ := hs hu
    rw [hnow, hstamp, if_neg hc]
    split_ifs with htick
    · subst htick
      have hnot : s.now.toNat + 1 ≠ relockTime s.tUnlock.toNat := fun heq =>
        absurd (hut.symm.trans ((exec_tick_locks_iff hat hp hwrap hu hle hlt h).2 heq)) (by decide)
      rw [toNat_now_succ hwrap]
      omega
    · exact ⟨hle, hlt⟩

/-- Settles O40: the bound is kept, and what locks is a TICK, which locks where it reaches the relock instant. -/
theorem periodicRelockInstant : Obligations.PeriodicRelockInstant := by
  intro i s t hat hp hi hwrap h hs
  refine ⟨exec_keeps_before_relock hat hp hwrap h hs, fun hu hlocks => ?_⟩
  obtain ⟨hle, hlt⟩ := hs hu
  obtain rfl := eq_tick_of_timerLocks hp hi ((exec_locks_iff hat h hu).1 hlocks)
  rw [exec_now h, if_pos rfl, toNat_now_succ hwrap]
  exact (exec_tick_locks_iff hat hp hwrap hu hle hlt h).1 hlocks

/-! ### TICKs alone -/

/-- A TICK of periodic, atomic mode has a step, keeps the switches and advances time. -/
theorem exec_tick_next (hat : s.cfg.bgAtomic = true) (hp : s.cfg.tickerMode = .periodic) :
    ∃ t, exec .tick s = .next t ∧ t.cfg = s.cfg ∧ t.now = s.now + 1 :=
  have ht := execTick_periodic s (held_of_atomic hat) hp
  ⟨_, ht, (exec_keeps _ _ _ ht).2.2, exec_now ht⟩

/-- A property that every TICK of periodic, atomic mode before the instant `m` keeps holds after any number of TICKs that do
not pass `m`. -/
theorem runEvents_ticks {P : State → Prop} {m : Nat} (hm : m < 2 ^ 64)
    (hstep : ∀ s t, s.cfg.bgAtomic = true → s.cfg.tickerMode = .periodic → s.now.toNat < m → P s →
      exec .tick s = .next t → P t)
    (k : Nat) (hat : s.cfg.bgAtomic = true) (hp : s.cfg.tickerMode = .periodic) (hk : s.now.toNat + k ≤ m) (hs : P s) :
    ∃ u, runEvents (List.replicate k .tick) s = .next u ∧ u.now.toNat = s.now.toNat + k ∧ P u := by
  induction k generalizing s with
  | zero => exact ⟨s, rfl, rfl, hs⟩
  | succ k ih =>
    obtain ⟨t, ht, hcfg, hnow⟩ := exec_tick_next hat hp
    have hnext : t.now.toNat = s.now.toNat + 1 := by
      rw [hnow, toNat_now_succ (by omega)]
    obtain ⟨u, hrun, hunow, hu⟩ :=
      ih (hcfg ▸ hat) (hcfg ▸ hp) (by omega) (hstep s t hat hp (by omega) hs ht)
    exact ⟨u, (runEvents_cons ht _).trans hrun, by omega, hu⟩

/-- The block was unlocked at `n` and has been left to the Ticker since: it is Locked exactly from the relock instant of `n`
on. -/
structure LeftToRelock (n : Nat) (s : State) : Prop where
  stamp : s.tUnlock.toNat = n
  stamp_le : n ≤ s.now.toNat
  locked_iff : s.lockst = .locked ↔ relockTime n ≤ s.now.toNat

/-- A TICK keeps it so: lock() leaves T_UNLOCK alone, and a Locked block stays Locked. -/
theorem LeftToRelock.tick {n : Nat} (hs : LeftToRelock n s) (hat : s.cfg.bgAtomic = true)
    (hp : s.cfg.tickerMode = .periodic) (hwrap : s.now.toNat + 1 < 2 ^ 64) (h : exec .tick s = .next t) :
    LeftToRelock n t := by
  obtain ⟨rfl, hle, hlocked⟩ := hs
  have hplain : ¬InvokesUnlock .tick s := not_invokesUnlock_of_timer (.inl rfl)
  have hnow : t.now.toNat = s.now.toNat + 1 := by
    rw [exec_now h, if_pos rfl, toNat_now_succ hwrap]
  have hstamp : t.tUnlock = s.tUnlock := (exec_tUnlock (held_of_atomic hat) h).trans (if_neg hplain)
  refine ⟨by rw [hstamp], by omega, ?_⟩
  rw [hnow]
  cases hl : s.lockst with
  | locked =>
    have hpast := hlocked.1 hl
    have hstays : t.lockst = .locked := by
      rw [exec_lockst hat h, if_neg hplain]
      split_ifs
      · rfl
      · exact hl
    exact iff_of_true hstays (by omega)
  | unlocked =>
    have hbefore : s.now.toNat < relockTime s.tUnlock.toNat :=
      Nat.lt_of_not_le fun hpast => absurd (hl.symm.trans (hlocked.2 hpast)) (by decide)
    rw [exec_tick_locks_iff hat hp hwrap hl hle hbefore h]
    omega

/-- Settles O42: an Unlocked block is before its relock instant at the unlock itself, and TICKs keep it on schedule. -/
theorem ticksAloneRelockAtTheInstant : Obligations.TicksAloneRelockAtTheInstant := by
  intro k s hat hp hu hstamp hwrap
  have hpast := threshold_lt_relockTime s.now.toNat
  have hs : LeftToRelock s.now.toNat s :=
    ⟨by rw [hstamp], Nat.le_refl _, iff_of_false (by rw [hu]; decide) (by omega)⟩
  obtain ⟨u, hrun, hnow, hleft⟩ := runEvents_ticks hwrap
    (fun _ _ hat hp hlt hs ht => hs.tick hat hp (by omega) ht) k hat hp (Nat.le_refl _) hs
  exact ⟨u, hrun, hnow, hnow ▸ hleft.locked_iff⟩

end Sys2Proof.Proofs

/-! PROOFS. The family of 43_measurement.md: what an event does to MEASST, T_START and the measured values, and the instant at
which periodic mode completes a measurement. -/

namespace Sys2Proof.Proofs

open Sys2Proof.Machine Sys2Proof.Safety

variable {i : Instr} {s t u : State}

/-! ### The result of a measurement -/

/-- Two states agree in data-ready and in both measured values. -/
structure SameResult (t u : State) : Prop where
  dataReady : dataReady t = dataReady u
  temperature : temperature t = temperature u
  humidity : humidity t = humidity u

/-- Data-ready is set, and both measured values are in range (10_state.md R47). -/
abbrev ResultReady (s : State) : Prop :=
  dataReady s = true ∧ TempInRange (temperature s) ∧ HumidInRange (humidity s)

theorem SameResult.trans (htu : SameResult t u) (hus : SameResult u s) : SameResult t s :=
  ⟨htu.dataReady.trans hus.dataReady, htu.temperature.trans hus.temperature, htu.humidity.trans hus.humidity⟩

theorem SameResult.resultReady (h : SameResult t u) (hu : ResultReady u) : ResultReady t := by
  rwa [ResultReady, h.dataReady, h.temperature, h.humidity]

/-- The result stands in read-only registers. -/
theorem sameResult_of_readOnly (hr : ∀ a, isReadOnly a = true → getReg t a = getReg u a) : SameResult t u where
  dataReady := by rw [dataReady, hr Reg.status rfl, dataReady]
  temperature := by rw [temperature, hr Reg.tempH rfl, hr Reg.tempL rfl, temperature]
  humidity := by rw [humidity, hr Reg.humidH rfl, hr Reg.humidL rfl, humidity]

theorem sameResult_of_regs (hr : t.regs = u.regs) : SameResult t u :=
  sameResult_of_readOnly fun a _ => getReg_congr hr a

theorem sameResult_store {a : Reg} {v : Byte} (hw : isReadOnly a = false) : SameResult (setReg a v s) s :=
  sameResult_of_readOnly fun _ => getReg_store_readOnly hw

theorem sameResult_unlock (s : State) : SameResult (unlock s) s where
  dataReady := dataReady_unlock
  temperature := by simp [temperature, getReg_unlock]
  humidity := by simp [humidity, getReg_unlock]

theorem resultReady_completedState {x y : BitVec 16} (hx : TempInRange x) (hy : HumidInRange y) :
    ResultReady (completedState x y s) := by
  rw [ResultReady, temperature_completedState, humidity_completedState]
  exact ⟨by simp [dataReady, getReg_completedState], hx, hy⟩

/-! ### What an event does to a measurement -/

/-- Is this event a call of start() that is not refused (R170)? -/
abbrev AcceptsStart (i : Instr) (s : State) : Prop := InvokesStart i s ∧ s.lockst = .unlocked ∧ s.measst = .idle

theorem not_invokesStart_of_timer (hi : i = .tick ∨ i = .chkto ∨ i = .chkmc) : ¬InvokesStart i s := by
  rintro ⟨d, ⟨hw, -⟩, -⟩
  simp [hw] at hi

theorem timer_of_timerCompletes (h : TimerCompletes i s) : i = .tick ∨ i = .chkto ∨ i = .chkmc := by
  obtain ⟨rfl, -⟩ | ⟨rfl, -⟩ := h
  · exact .inr (.inr rfl)
  · exact .inl rfl

theorem inProgress_of_timerCompletes (h : TimerCompletes i s) : s.measst = .inProgress := by
  obtain ⟨-, hm, -⟩ | ⟨-, -, -, hm, -⟩ := h <;> exact hm

/-- The four things an event of atomic mode can do to a measurement, each with the condition under which it does it: nothing;
an accepted start(); lock(), which aborts it; complete() (R174). -/
inductive MeasurementEffect (i : Instr) (s t : State) : Prop
  | keeps (noStart : ¬AcceptsStart i s) (noLock : ¬TimerLocks i s) (noCompletion : ¬TimerCompletes i s)
      (measst : t.measst = s.measst) (tStart : t.tStart = s.tStart) (result : SameResult t s)
  | starts (accepted : AcceptsStart i s) (measst : t.measst = .inProgress) (tStart : t.tStart = s.now)
      (notReady : dataReady t = false)
  | locks (due : TimerLocks i s) (lockst : t.lockst = .locked) (measst : t.measst = .idle) (tStart : t.tStart = s.tStart)
      (notReady : dataReady t = false)
  | completes (due : TimerCompletes i s) (lockst : t.lockst = s.lockst) (measst : t.measst = .idle)
      (tStart : t.tStart = s.tStart) (ready : ResultReady t)

theorem exec_timer_measurement (hi : i = .tick ∨ i = .chkto ∨ i = .chkmc) (hat : s.cfg.bgAtomic = true)
    (h : exec i s = .next t) : MeasurementEffect i s t := by
  obtain ⟨-, -, -, hstart, -⟩ := timer_keeps i s t hi h
  obtain ⟨hr, -, hm, hnot⟩ | ⟨-, hdue, hr, hl, hm, -⟩ | ⟨-, -, hdue, x, y, hx, hy, hr, hl, hm, -⟩ := timer_shape i s t hi h
  · obtain ⟨-, hnoLock, hnoCompletion⟩ := hnot hat
    exact .keeps (fun hc => not_invokesStart_of_timer hi hc.1) hnoLock hnoCompletion hm hstart (sameResult_of_regs hr)
  · exact .locks hdue hl hm hstart ((sameResult_of_regs hr).dataReady.trans dataReady_lockedState)
  · exact .completes hdue hl hm hstart ((sameResult_of_regs hr).resultReady (resultReady_completedState hx hy))

theorem exec_bus_measurement (hi : ¬(i = .tick ∨ i = .chkto ∨ i = .chkmc)) (hfree : held s = false)
    (h : exec i s = .next t) : MeasurementEffect i s t := by
  have hnoLock : ¬TimerLocks i s := mt timer_of_timerLocks hi
  have hnoCompletion : ¬TimerCompletes i s := mt timer_of_timerCompletes hi
  obtain ⟨-, -, -, -, -, -, -, ⟨hr, -, hm, -, hstart, -, hnot⟩ | ⟨d, -, hw, hr, -, hm, -, hstart, hnot⟩ |
    ⟨-, hc, hr, -, hm, -, hstart⟩ | ⟨-, hc, hu, hidle, ⟨d, -, hr⟩, -, hm, -, hstart⟩⟩ := bus_shape i s t hi h
  · exact .keeps (fun hc => hnot hc.1) hnoLock hnoCompletion hm hstart (sameResult_of_regs hr)
  · have hstore : SameResult t (setReg s.ap d s) := sameResult_of_regs hr
    exact .keeps (hnot hfree).2 hnoLock hnoCompletion hm hstart (hstore.trans (sameResult_store hw))
  · have hnoStart : ¬AcceptsStart i s := fun ⟨⟨_, _, hap, _⟩, _⟩ => absurd (hap.symm.trans hc.2) (by decide)
    have hunlock : SameResult t (unlock (setReg 10 (getReg s 9) s)) := sameResult_of_regs (by simpa [getReg] using hr)
    exact .keeps hnoStart hnoLock hnoCompletion hm hstart
      (hunlock.trans ((sameResult_unlock _).trans (sameResult_store rfl)))
  · have hstarted : SameResult t (startedState (setReg 1 d s)) :=
      sameResult_of_regs (by simpa [startedState, getReg] using hr)
    exact .starts ⟨hc, hu, hidle⟩ hm hstart (hstarted.dataReady.trans dataReady_startedState)

/-- Whatever an event of atomic mode answers, it has one of the four effects on the measurement. -/
theorem exec_measurement (hat : s.cfg.bgAtomic = true) (h : exec i s = .next t) : MeasurementEffect i s t := by
  by_cases hi : i = .tick ∨ i = .chkto ∨ i = .chkmc
  · exact exec_timer_measurement hi hat h
  · exact exec_bus_measurement hi (held_of_atomic hat) h

/-- From Idle only an accepted start() begins a measurement; it stamps T_START and clears data-ready (R170). -/
theorem exec_measurement_of_idle (hat : s.cfg.bgAtomic = true) (h : exec i s = .next t) (hm : s.measst = .idle) :
    (t.measst = .inProgress ↔ InvokesStart i s ∧ s.lockst = .unlocked) ∧
      (t.measst = .inProgress → t.tStart = s.now ∧ dataReady t = false) ∧ (t.measst = .idle → t.tStart = s.tStart) := by
  cases exec_measurement hat h with
  | keeps noStart _ _ measst tStart =>
    have hidle : t.measst = .idle := measst.trans hm
    exact ⟨iff_of_false (by simp [hidle]) fun ⟨hc, hu⟩ => noStart ⟨hc, hu, hm⟩, by simp [hidle], fun _ => tStart⟩
  | starts accepted measst tStart notReady =>
    exact ⟨iff_of_true measst ⟨accepted.1, accepted.2.1⟩, fun _ => ⟨tStart, notReady⟩, by simp [measst]⟩
  | locks due _ measst tStart =>
    have hno : ¬InvokesStart i s := not_invokesStart_of_timer (timer_of_timerLocks due)
    exact ⟨iff_of_false (by simp [measst]) fun hc => hno hc.1, by simp [measst], fun _ => tStart⟩
  | completes due => exact absurd (hm.symm.trans (inProgress_of_timerCompletes due)) (by decide)

/-- A measurement in progress ends by a due lock or a due completion, and the result is ready exactly if no lock ended it. -/
theorem exec_measurement_of_inProgress (hat : s.cfg.bgAtomic = true) (h : exec i s = .next t)
    (hm : s.measst = .inProgress) :
    (t.measst = .idle ↔ TimerLocks i s ∨ TimerCompletes i s) ∧
      (t.measst = .idle → (dataReady t = true ↔ ¬(s.lockst = .unlocked ∧ t.lockst = .locked))) ∧
      t.tStart = s.tStart := by
  cases exec_measurement hat h with
  | keeps _ noLock noCompletion measst tStart =>
    have hstays : t.measst = .inProgress := measst.trans hm
    exact ⟨iff_of_false (by simp [hstays]) (not_or.2 ⟨noLock, noCompletion⟩), by simp [hstays], tStart⟩
  | starts accepted => exact absurd (hm.symm.trans accepted.2.2) (by decide)
  | locks due lockst measst tStart notReady =>
    exact ⟨iff_of_true measst (.inl due),
      fun _ => iff_of_false (by simp [notReady]) fun hno => hno ⟨unlocked_of_timerLocks due, lockst⟩, tStart⟩
  | completes due lockst measst tStart ready =>
    have hno : ¬(s.lockst = .unlocked ∧ t.lockst = .locked) := fun ⟨hu, hl⟩ =>
      absurd (hu.symm.trans (lockst.symm.trans hl)) (by decide)
    exact ⟨iff_of_true measst (.inr due), fun _ => iff_of_true ready.1 hno, tStart⟩

/-- The timer events that end a measurement, sorted by event. -/
theorem timer_ends_iff : TimerLocks i s ∨ TimerCompletes i s ↔
    (i = .chkmc ∧ CompletionDueAt s.now s) ∨ (i = .chkto ∧ RelockDueAt s.now s) ∨
      (i = .tick ∧ s.cfg.tickerMode = .periodic ∧
        ((s.now + 1).toNat % 1000 = 0 ∧ RelockDueAt (s.now + 1) s ∨
          (s.now + 1).toNat % 50 = 0 ∧ CompletionDueAt (s.now + 1) s)) := by
  rw [TimerLocks, TimerCompletes]
  tauto

/-- Settles O33: the four effects of an event on a measurement, read off for each of the two states of MEASST. -/
theorem measurementStateMachine : Obligations.MeasurementStateMachine := by
  intro i s t hat h
  refine ⟨exec_measurement_of_idle hat h, fun hm => ?_⟩
  rw [← timer_ends_iff]
  exact exec_measurement_of_inProgress hat h hm

/-! ### The completion instant -/

/-- The completion instant lies at or past the delay, also for a start at this very instant. -/
theorem delay_le_completionTime (n : Nat) : n + 500 ≤ completionTime n := by
  simp only [completionTime, Config.tMeas, Config.pComplete]
  omega

/-- The completion instant is the first multiple of P_COMPLETE not before the delay (R173): an instant not past it is the
completion instant exactly if the completion check is due there and the delay is over. -/
theorem eq_completionTime_iff {m n : Nat} (hle : m ≤ completionTime n) :
    m = completionTime n ↔ m % 50 = 0 ∧ n + 500 ≤ m := by
  simp only [completionTime, Config.tMeas, Config.pComplete] at hle ⊢
  omega

/-- The completion condition without a wrap of `now`, on natural numbers. -/
theorem completionDueAt_iff {m : Time} (hm : s.measst = .inProgress) (hle : s.tStart.toNat ≤ m.toNat) :
    CompletionDueAt m s ↔ s.tStart.toNat + 500 ≤ m.toNat := by
  have hsub : (m - s.tStart).toNat = m.toNat - s.tStart.toNat := BitVec.toNat_sub_of_le hle
  rw [CompletionDueAt, hsub]
  simp only [hm, true_and]
  omega

theorem exec_tick_now_toNat (hwrap : s.now.toNat + 1 < 2 ^ 64) (h : exec .tick s = .next t) :
    t.now.toNat = s.now.toNat + 1 := by
  rw [exec_now h, if_pos rfl, toNat_now_succ hwrap]

/-- Before the completion instant, in periodic mode, the TICK that reaches it is the one that finds the completion due. -/
theorem timerCompletes_tick_iff (hp : s.cfg.tickerMode = .periodic) (hwrap : s.now.toNat + 1 < 2 ^ 64)
    (hm : s.measst = .inProgress) (hle : s.tStart.toNat ≤ s.now.toNat)
    (hlt : s.now.toNat < completionTime s.tStart.toNat) :
    TimerCompletes .tick s ↔ s.now.toNat + 1 = completionTime s.tStart.toNat := by
  have hnow := toNat_now_succ hwrap
  calc TimerCompletes .tick s
    _ ↔ (s.now + 1).toNat % 50 = 0 ∧ CompletionDueAt (s.now + 1) s := by simp [TimerCompletes, hp]
    _ ↔ (s.now.toNat + 1) % 50 = 0 ∧ s.tStart.toNat + 500 ≤ s.now.toNat + 1 := by
      rw [completionDueAt_iff hm (hnow ▸ Nat.le_succ_of_le hle), hnow]
    _ ↔ s.now.toNat + 1 = completionTime s.tStart.toNat := (eq_completionTime_iff hlt).symm

/-- In periodic mode the only timer event that can complete is TICK, where the Ticker sends no separate check (R245). -/
theorem eq_tick_of_timerCompletes (hp : s.cfg.tickerMode = .periodic) (hi : noSeparateCheck s.cfg i = true)
    (h : TimerCompletes i s) : i = .tick := by
  obtain ⟨rfl, -⟩ | ⟨rfl, -⟩ := h
  · simp [noSeparateCheck, hp] at hi
  · rfl

/-- An event that leaves a measurement in progress, before its completion instant if it was in progress already, leaves it
before its completion instant: a start() moves the instant into the future, and a TICK that does not complete does not
reach it. -/
theorem exec_keeps_before_completion (hat : s.cfg.bgAtomic = true) (hp : s.cfg.tickerMode = .periodic)
    (hwrap : s.now.toNat + 1 < 2 ^ 64) (h : exec i s = .next t)
    (hs : s.measst = .inProgress → s.tStart.toNat ≤ s.now.toNat ∧ s.now.toNat < completionTime s.tStart.toNat)
    (hmt : t.measst = .inProgress) : t.tStart.toNat ≤ t.now.toNat ∧ t.now.toNat < completionTime t.tStart.toNat := by
  have hnow := exec_now h
  cases exec_measurement hat h with
  | keeps _ _ noCompletion measst tStart =>
    have hm : s.measst = .inProgress := measst.symm.trans hmt
    obtain ⟨hle, hlt⟩ := hs hm
    rw [hnow, tStart]
    split_ifs with htick
    · subst htick
      have hnot := mt (timerCompletes_tick_iff hp hwrap hm hle hlt).2 noCompletion
      rw [toNat_now_succ hwrap]
      omega
    · exact ⟨hle, hlt⟩
  | starts accepted _ tStart =>
    have hbus : i ≠ .tick := fun hi => not_invokesStart_of_timer (.inl hi) accepted.1
    have hpast := delay_le_completionTime s.now.toNat
    rw [hnow, if_neg hbus, tStart]
    omega
  | locks _ _ measst => exact absurd (hmt.symm.trans measst) (by decide)
  | completes _ _ measst => exact absurd (hmt.symm.trans measst) (by decide)

/-- Settles O41: the bound is kept, and what ends a measurement without locking is a completion by a TICK, which completes
where it reaches the completion instant. -/
theorem periodicCompletionInstant : Obligations.PeriodicCompletionInstant := by
  intro i s t hat hp hi hwrap h hs
  refine ⟨exec_keeps_before_completion hat hp hwrap h hs, fun hm hidle hu => ?_⟩
  obtain ⟨hle, hlt⟩ := hs hm
  cases exec_measurement hat h with
  | keeps _ _ _ measst => exact absurd (hm.symm.trans (measst.symm.trans hidle)) (by decide)
  | starts _ measst => exact absurd (measst.symm.trans hidle) (by decide)
  | locks _ lockst => exact absurd (hu.symm.trans lockst) (by decide)
  | completes due _ _ _ ready =>
    obtain rfl := eq_tick_of_timerCompletes hp hi due
    rw [exec_tick_now_toNat hwrap h]
    exact ⟨(timerCompletes_tick_iff hp hwrap hm hle hlt).1 due, ready.1⟩

/-! ### TICKs alone -/

/-- The measurement was started at `n` and has been left to the Ticker since: it is done, its result ready, exactly from the
completion instant of `n` on. -/
structure LeftToComplete (n : Nat) (s : State) : Prop where
  stamp : s.tStart.toNat = n
  stamp_le : n ≤ s.now.toNat
  idle_iff : s.measst = .idle ↔ completionTime n ≤ s.now.toNat
  ready : s.measst = .idle → ResultReady s

/-- A TICK that leaves the block Unlocked keeps it so: once done the measurement stays done, and its result stays. -/
theorem LeftToComplete.tick {n : Nat} (hs : LeftToComplete n s) (hat : s.cfg.bgAtomic = true)
    (hp : s.cfg.tickerMode = .periodic) (hwrap : s.now.toNat + 1 < 2 ^ 64) (h : exec .tick s = .next t)
    (hut : t.lockst = .unlocked) : LeftToComplete n t := by
  obtain ⟨rfl, hle, hidle, hready⟩ := hs
  have hnow := exec_tick_now_toNat hwrap h
  have hbefore (hm : s.measst = .inProgress) : s.now.toNat < completionTime s.tStart.toNat :=
    Nat.lt_of_not_le fun hpast => absurd (hm.symm.trans (hidle.2 hpast)) (by decide)
  cases exec_measurement hat h with
  | keeps _ _ noCompletion measst tStart result =>
    refine ⟨by rw [tStart], by omega, ?_, fun hm => result.resultReady (hready (measst.symm.trans hm))⟩
    rw [hnow, measst]
    cases hm : s.measst with
    | idle =>
      have hpast := hidle.1 hm
      exact iff_of_true rfl (by omega)
    | inProgress =>
      have hlt := hbefore hm
      have hnot := mt (timerCompletes_tick_iff hp hwrap hm hle hlt).2 noCompletion
      exact iff_of_false (by decide) (by omega)
  | starts accepted => exact absurd accepted.1 (not_invokesStart_of_timer (.inl rfl))
  | locks _ lockst => exact absurd (hut.symm.trans lockst) (by decide)
  | completes due _ measst tStart ready =>
    have hm := inProgress_of_timerCompletes due
    have hreach := (timerCompletes_tick_iff hp hwrap hm hle (hbefore hm)).1 due
    exact ⟨by rw [tStart], by omega, iff_of_true measst (by omega), fun _ => ready⟩

/-- Before the relock instant the block is Unlocked. -/
theorem LeftToRelock.unlocked {n : Nat} (hs : LeftToRelock n s) (hlt : s.now.toNat < relockTime n) :
    s.lockst = .unlocked := by
  cases hl : s.lockst with
  | unlocked => rfl
  | locked => exact absurd (hs.locked_iff.1 hl) (Nat.not_le_of_lt hlt)

/-- The block, unlocked at `m` and started at `n`, has been left to the Ticker since. -/
structure LeftToTicks (m n : Nat) (s : State) : Prop where
  relock : LeftToRelock m s
  complete : LeftToComplete n s

/-- A TICK that does not reach the relock instant keeps it so. -/
theorem LeftToTicks.tick {m n : Nat} (hs : LeftToTicks m n s) (hat : s.cfg.bgAtomic = true)
    (hp : s.cfg.tickerMode = .periodic) (hwrap : s.now.toNat + 1 < 2 ^ 64) (hlt : s.now.toNat + 1 < relockTime m)
    (h : exec .tick s = .next t) : LeftToTicks m n t := by
  have hrelock : LeftToRelock m t := hs.relock.tick hat hp hwrap h
  have hnow := exec_tick_now_toNat hwrap h
  exact ⟨hrelock, hs.complete.tick hat hp hwrap h (hrelock.unlocked (hnow ▸ hlt))⟩

/-- Settles O43: a measurement in progress is before its completion instant at the start itself; TICKs before the relock
instant leave the block Unlocked, and so keep the measurement on schedule. -/
theorem ticksAloneCompleteAtTheInstant : Obligations.TicksAloneCompleteAtTheInstant := by
  intro k s hat hp hu hm hstamp hle hrelock hwrap
  have hpast := delay_le_completionTime s.now.toNat
  have hs : LeftToTicks s.tUnlock.toNat s.now.toNat s :=
    ⟨⟨rfl, hle, iff_of_false (by rw [hu]; decide) (by omega)⟩,
      ⟨by rw [hstamp], Nat.le_refl _, iff_of_false (by rw [hm]; decide) (by omega), by simp [hm]⟩⟩
  obtain ⟨u, hrun, hnow, hleft⟩ := runEvents_ticks hwrap
    (fun _ _ hat hp hlt hs ht => hs.tick hat hp (by omega) (by omega) ht) k hat hp (Nat.le_refl _) hs
  exact ⟨u, hrun, hnow, hnow ▸ hleft.complete.idle_iff, hleft.complete.ready⟩

end Sys2Proof.Proofs

/-! PROOFS. The family of 44_ticker.md: what each check does in atomic and in torn mode, the timer events, the deadlines of free
mode, the order of the two checks, and the release of the mutex. -/

namespace Sys2Proof.Proofs

open Sys2Proof.Machine Sys2Proof.Safety

variable {i : Instr} {s t u : State}

/-! ### The two checks -/

theorem checkTimeout_of_due (hdue : RelockDueAt s.now s) : checkTimeout s = startBackground lockSubSteps s := by
  obtain ⟨-, e⟩ | ⟨hnot, -⟩ := checkTimeout_cases s
  · exact e
  · exact absurd hdue hnot

theorem checkTimeout_of_not_due (hnot : ¬RelockDueAt s.now s) : checkTimeout s = s := by
  obtain ⟨hdue, -⟩ | ⟨-, e⟩ := checkTimeout_cases s
  · exact absurd hdue hnot
  · exact e

theorem checkTimeout_atomic (hat : s.cfg.bgAtomic = true) (hdue : RelockDueAt s.now s) :
    checkTimeout s = lockedState s := by
  rw [checkTimeout_of_due hdue, startBackground_atomic _ hat, runSubSteps_lock]

theorem checkTimeout_torn (htorn : s.cfg.bgAtomic = false) (hdue : RelockDueAt s.now s) :
    checkTimeout s = { s with bg := { s.bg with mutex := .heldByTicker, work := lockSubSteps } } := by
  rw [checkTimeout_of_due hdue, startBackground_torn _ htorn]

theorem checkComplete_of_due (hdue : CompletionDueAt s.now s) :
    ∃ temp humid, TempInRange temp ∧ HumidInRange humid ∧
      checkComplete s = startBackground (completeSubSteps temp humid) { s with freeIx := s.freeIx + 1 } := by
  obtain ⟨-, e⟩ | ⟨hnot, -⟩ := checkComplete_cases s
  · exact e
  · exact absurd hdue hnot

theorem checkComplete_of_not_due (hnot : ¬CompletionDueAt s.now s) : checkComplete s = s := by
  obtain ⟨hdue, -⟩ | ⟨-, e⟩ := checkComplete_cases s
  · exact absurd hdue hnot
  · exact e

theorem checkComplete_atomic (hat : s.cfg.bgAtomic = true) (hdue : CompletionDueAt s.now s) :
    ∃ temp humid, TempInRange temp ∧ HumidInRange humid ∧
      checkComplete s = completedState temp humid { s with freeIx := s.freeIx + 1 } := by
  obtain ⟨x, y, hx, hy, e⟩ := checkComplete_of_due hdue
  exact ⟨x, y, hx, hy, by rw [e, startBackground_atomic _ (by exact hat), runSubSteps_complete]⟩

theorem checkComplete_torn (htorn : s.cfg.bgAtomic = false) (hdue : CompletionDueAt s.now s) :
    ∃ temp humid, TempInRange temp ∧ HumidInRange humid ∧
      checkComplete s =
        { s with
          bg := { s.bg with mutex := .heldByTicker, work := completeSubSteps temp humid }
          freeIx := s.freeIx + 1 } := by
  obtain ⟨x, y, hx, hy, e⟩ := checkComplete_of_due hdue
  exact ⟨x, y, hx, hy, by rw [e, startBackground_torn _ (by exact htorn)]⟩

/-- No completion is due while MEASST is Idle. -/
theorem not_completionDueAt_of_idle {m : Time} (hm : s.measst = .idle) : ¬CompletionDueAt m s :=
  fun hdue => absurd (hm.symm.trans hdue.1) (by decide)

/-- lock() writes every register that complete() writes, so a completion just before it leaves no trace. -/
theorem lockedState_completedState (x y : BitVec 16) :
    lockedState (completedState x y s) = lockedState s := by
  have hstatus : ∀ b : Byte, ((b ||| 0x01#8) ||| 0x02#8) &&& 0xFE#8 = (b ||| 0x02#8) &&& 0xFE#8 := by decide
  have hregs : (lockedState (completedState x y s)).regs = (lockedState s).regs := by
    refine regs_eq_of_getReg fun a => ?_
    rw [getReg_lockedState, getReg_lockedState]
    split_ifs with h2 hvalue h11
    · rw [getReg_completedState, if_pos rfl, hstatus]
    · rfl
    · rfl
    · rw [getReg_completedState, if_neg h2]
      simp only [not_or] at hvalue
      simp [hvalue]
  calc lockedState (completedState x y s)
    _ = { lockedState s with regs := (lockedState (completedState x y s)).regs } := rfl
    _ = lockedState s := by rw [hregs]

/-- Settles O29: a due lock() hides whether a completion came just before it and leaves none to be made; where no lock() is
due, the completion does not make it due. -/
theorem orderOfTheTwoChecksIsUnobservable : Obligations.OrderOfTheTwoChecksIsUnobservable := by
  intro s hat
  by_cases hrelock : RelockDueAt s.now s
  · rw [checkTimeout_atomic hat hrelock, checkComplete_of_not_due (not_completionDueAt_of_idle lockedState_measst)]
    by_cases hcomplete : CompletionDueAt s.now s
    · obtain ⟨x, y, -, -, e⟩ := checkComplete_atomic hat hcomplete
      rw [e, checkTimeout_atomic (by exact hat) (by exact hrelock), lockedState_completedState]
      rfl
    · rw [checkComplete_of_not_due hcomplete, checkTimeout_atomic hat hrelock]
      rfl
  · rw [checkTimeout_of_not_due hrelock]
    by_cases hcomplete : CompletionDueAt s.now s
    · obtain ⟨x, y, -, -, e⟩ := checkComplete_atomic hat hcomplete
      rw [e, checkTimeout_of_not_due (by exact hrelock)]
      rfl
    · rw [checkComplete_of_not_due hcomplete, checkTimeout_of_not_due hrelock]
      rfl

/-! ### CHKTO and CHKMC in atomic mode -/

/-- A timer event drives neither a response nor a diagnostic, so its next state says all of its outcome. -/
theorem yields_of_timer (hi : i = .tick ∨ i = .chkto ∨ i = .chkmc) (h : exec i s = .next t) (hsame : SameState t u) :
    Yields (exec i s) u none .noDiag := by
  obtain ⟨-, -, -, -, -, -, -, hout, -⟩ := timer_keeps i s t hi h
  exact ⟨t, h, hsame, by rw [hout]; rfl, nofun, by rw [hout]; rfl⟩

/-- Settles O23: CHKTO is the timeout check and its stamp. -/
theorem chktoLocksExactlyAfterTheTimeout : Obligations.ChktoLocksExactlyAfterTheTimeout := by
  intro s hat
  have hx := exec_chkto_of_free (held_of_atomic hat)
  refine ⟨fun hdue => ?_, fun hnot => ?_⟩
  · rw [checkTimeout_atomic (by exact hat) (by exact hdue)] at hx
    exact yields_of_timer (.inr (.inl rfl)) hx rfl
  · rw [checkTimeout_of_not_due (by exact hnot)] at hx
    exact yields_of_timer (.inr (.inl rfl)) hx rfl

/-- Settles O24: CHKMC is the completion check and its stamp. -/
theorem chkmcCompletesExactlyAfterTheDelay : Obligations.ChkmcCompletesExactlyAfterTheDelay := by
  intro s hat
  have hx := exec_chkmc_of_free (held_of_atomic hat)
  refine ⟨fun hdue => ?_, fun hnot => ?_⟩
  · obtain ⟨x, y, htemp, hhumid, e⟩ := checkComplete_atomic (s := beginEvent s) hat hdue
    rw [e] at hx
    exact ⟨x, y, htemp, hhumid, yields_of_timer (.inr (.inr rfl)) hx rfl⟩
  · rw [checkComplete_of_not_due (by exact hnot)] at hx
    exact yields_of_timer (.inr (.inr rfl)) hx rfl

/-! ### TICK -/

/-- Settles O25: the three outcomes of the scheduled checks of atomic mode, at the advanced time. -/
theorem periodicTickAdvancesTimeAndRunsTheDueChecks : Obligations.PeriodicTickAdvancesTimeAndRunsTheDueChecks := by
  intro s hat hp
  have hx := execTick_periodic s (held_of_atomic hat) hp
  obtain ⟨hat1000, hrelock, e⟩ | ⟨hno, hat50, hcomplete, x, y, htemp, hhumid, e⟩ | ⟨hno, hno', e⟩ :=
    scheduledChecks_atomic (advanceTime (beginEvent s)) hat
  all_goals rw [e] at hx
  · exact ⟨fun _ => yields_of_timer (.inl rfl) hx rfl, fun hn => absurd ⟨hat1000, hrelock⟩ hn,
      fun hn => absurd ⟨hat1000, hrelock⟩ hn⟩
  · exact ⟨fun h => absurd h hno, fun _ _ => ⟨x, y, htemp, hhumid, yields_of_timer (.inl rfl) hx rfl⟩,
      fun _ hn => absurd ⟨hat50, hcomplete⟩ hn⟩
  · exact ⟨fun h => absurd h hno, fun _ h => absurd h hno', fun _ _ => yields_of_timer (.inl rfl) hx rfl⟩

/-- Where the timeout check locks in torn mode, the completion check due at the same instant is owed (R199; log entry 7). -/
theorem scheduledChecks_torn_of_relock (htorn : s.cfg.bgAtomic = false)
    (hdue : s.now.toNat % 1000 = 0 ∧ RelockDueAt s.now s) :
    scheduledChecks s = { s with bg := { mutex := .heldByTicker, work := lockSubSteps, mcDue := true } } := by
  obtain ⟨hat1000, hrelock⟩ := hdue
  have hat50 : completeDue s.now = true := (completeDue_iff _).2 (by omega)
  simp [scheduledChecks, (timeoutDue_iff _).2 hat1000, checkTimeout_torn htorn hrelock, hat50, held, htorn]

/-- Where no lock() begins and the mutex is free, what is left of the scheduled checks is the completion check. -/
theorem scheduledChecks_of_no_relock (hfree : held s = false)
    (hnot : ¬(s.now.toNat % 1000 = 0 ∧ RelockDueAt s.now s)) :
    scheduledChecks s = if s.now.toNat % 50 = 0 then checkComplete s else s := by
  have htimeout : (if timeoutDue s.now = true then checkTimeout s else s) = s := by
    split_ifs with hdue
    · exact checkTimeout_of_not_due fun hrelock => hnot ⟨(timeoutDue_iff _).1 hdue, hrelock⟩
    · rfl
  simp [scheduledChecks, htimeout, hfree, completeDue_iff]

/-- Settles O46: the scheduled checks of torn mode at the advanced time, the mutex free. -/
theorem tornTickRunsTheDueChecks : Obligations.TornTickRunsTheDueChecks := by
  intro s htorn hmutex hp
  have hfree := held_of_mutex_free hmutex
  have hx := execTick_periodic s hfree hp
  refine ⟨fun hrelock => ?_, fun hno hcomplete => ?_, fun hno hno' => ?_⟩
  · rw [scheduledChecks_torn_of_relock (by exact htorn) (by exact hrelock)] at hx
    exact yields_of_timer (.inl rfl) hx rfl
  · obtain ⟨hat50, hdue⟩ := hcomplete
    obtain ⟨x, y, htemp, hhumid, e⟩ := checkComplete_torn (s := advanceTime (beginEvent s)) htorn hdue
    rw [scheduledChecks_of_no_relock (by exact hfree) (by exact hno), if_pos (by exact hat50), e] at hx
    exact ⟨x, y, htemp, hhumid, yields_of_timer (.inl rfl) hx rfl⟩
  · have hnothing : scheduledChecks (advanceTime (beginEvent s)) = advanceTime (beginEvent s) := by
      rw [scheduledChecks_of_no_relock (by exact hfree) (by exact hno)]
      split_ifs with hat50
      · exact checkComplete_of_not_due fun hdue => hno' ⟨hat50, hdue⟩
      · rfl
    rw [hnothing] at hx
    exact yields_of_timer (.inl rfl) hx rfl

/-- The fairness bound (R196), with its two periods written out. -/
theorem tickEnabled_iff :
    tickEnabled s = true ↔ (s.now + 1 - s.lastTo).toNat ≤ 1000 ∧ (s.now + 1 - s.lastMc).toNat ≤ 50 := by
  simp [tickEnabled]

/-- A TICK of free mode has a step only inside the fairness bound. -/
theorem tickEnabled_of_exec (hf : s.cfg.tickerMode = .free) (h : exec .tick s = .next t) : tickEnabled s = true := by
  obtain ⟨-, e⟩ | ⟨-, hp, -⟩ | ⟨-, -, hin, -⟩ | ⟨-, -, -, e⟩ := execTick_cases s
  · cases e.symm.trans h
  · exact absurd (hf.symm.trans hp) (by decide)
  · exact hin
  · cases e.symm.trans h

/-- Settles O26: of the four cases of TICK the fairness bound decides between the two of free mode. -/
theorem freeModeTickKeepsTheFairnessBound : Obligations.FreeModeTickKeepsTheFairnessBound := by
  intro s hf hfree
  refine ⟨fun hin => ?_, fun hout t h => hout (tickEnabled_iff.1 (tickEnabled_of_exec hf h))⟩
  have hx : exec .tick s = .next (advanceTime (beginEvent s)) := by
    simp [exec, execTick, hfree, hf, tickEnabled_iff.2 hin]
  exact yields_of_timer (.inl rfl) hx rfl

/-! ### The stamps of the two checks -/

/-- A timer event that has a step finds the mutex free. -/
theorem free_of_timer_next (hi : i = .tick ∨ i = .chkto ∨ i = .chkmc) (h : exec i s = .next t) : held s = false := by
  cases hheld : held s
  · rfl
  · cases (timer_waits_while_held hheld hi).symm.trans h

/-- TICK stamps no check, whatever checks it runs. -/
theorem exec_tick_checkStamps (h : exec .tick s = .next t) : t.lastTo = s.lastTo ∧ t.lastMc = s.lastMc := by
  obtain ⟨-, e⟩ | ⟨-, -, e⟩ | ⟨-, -, -, e⟩ | ⟨-, -, -, e⟩ := execTick_cases s <;> cases e.symm.trans h
  · rw [scheduledChecks_keeps]
    exact ⟨rfl, rfl⟩
  · exact ⟨rfl, rfl⟩

/-- CHKTO stamps LAST_TO and CHKMC stamps LAST_MC, in free mode; no other event stamps either (R192, R193). -/
theorem exec_checkStamps (hf : s.cfg.tickerMode = .free) (h : exec i s = .next t) :
    t.lastTo = (if i = .chkto then s.now else s.lastTo) ∧ t.lastMc = if i = .chkmc then s.now else s.lastMc := by
  by_cases hi : i = .tick ∨ i = .chkto ∨ i = .chkmc
  · have hfree := free_of_timer_next hi h
    obtain rfl | rfl | rfl := hi
    · exact exec_tick_checkStamps h
    · cases (exec_chkto_of_free hfree).symm.trans h
      rw [checkTimeout_keeps]
      exact ⟨if_pos hf, rfl⟩
    · cases (exec_chkmc_of_free hfree).symm.trans h
      rw [checkComplete_keeps]
      exact ⟨rfl, if_pos hf⟩
  · obtain ⟨-, -, -, hto, hmc, -⟩ := bus_shape i s t hi h
    rw [not_or, not_or] at hi
    rw [if_neg hi.2.1, if_neg hi.2.2]
    exact ⟨hto, hmc⟩

/-! ### The deadlines of free mode -/

/-- The last checks lie within their periods (R196). -/
structure ChecksRecent (s : State) : Prop where
  lastTo_le : s.lastTo.toNat ≤ s.now.toNat
  timeout : s.now.toNat ≤ s.lastTo.toNat + 1000
  lastMc_le : s.lastMc.toNat ≤ s.now.toNat
  completion : s.now.toNat ≤ s.lastMc.toNat + 50

/-- While Unlocked, the last timeout check does not lie past the threshold of the unlock. -/
abbrev RelockAhead (s : State) : Prop :=
  s.lockst = .unlocked → s.tUnlock.toNat ≤ s.now.toNat ∧ s.lastTo.toNat ≤ s.tUnlock.toNat + 5000

/-- While InProgress, the last completion check lies before the threshold of the measurement. -/
abbrev CompletionAhead (s : State) : Prop :=
  s.measst = .inProgress → s.tStart.toNat ≤ s.now.toNat ∧ s.lastMc.toNat ≤ s.tStart.toNat + 499

/-- The fairness bound without a wrap of `now`, on natural numbers. -/
theorem ChecksRecent.tickEnabled_iff_toNat (hs : ChecksRecent s) (hwrap : s.now.toNat + 1 < 2 ^ 64) :
    tickEnabled s = true ↔ s.now.toNat + 1 ≤ s.lastTo.toNat + 1000 ∧ s.now.toNat + 1 ≤ s.lastMc.toNat + 50 := by
  have hnow := toNat_now_succ hwrap
  have hto := BitVec.toNat_sub_of_le (x := s.now + 1) (y := s.lastTo) (BitVec.le_def.2 (hnow ▸ Nat.le_succ_of_le hs.lastTo_le))
  have hmc := BitVec.toNat_sub_of_le (x := s.now + 1) (y := s.lastMc) (BitVec.le_def.2 (hnow ▸ Nat.le_succ_of_le hs.lastMc_le))
  rw [tickEnabled_iff, hto, hmc, hnow]
  omega

/-- A block that is Unlocked after an event that invokes no unlock() was so before it. -/
theorem unlocked_of_exec (hat : s.cfg.bgAtomic = true) (h : exec i s = .next t) (hut : t.lockst = .unlocked)
    (hc : ¬InvokesUnlock i s) : s.lockst = .unlocked := by
  cases hl : s.lockst with
  | unlocked => rfl
  | locked => exact absurd ((exec_unlocks_iff hat h hl).1 hut) hc

/-- In free mode the only timer event that locks is CHKTO. -/
theorem timerLocks_iff_of_free (hf : s.cfg.tickerMode = .free) :
    TimerLocks i s ↔ i = .chkto ∧ RelockDueAt s.now s := by
  simp [TimerLocks, hf]

/-- In free mode the only timer event that completes is CHKMC. -/
theorem timerCompletes_iff_of_free (hf : s.cfg.tickerMode = .free) :
    TimerCompletes i s ↔ i = .chkmc ∧ CompletionDueAt s.now s := by
  simp [TimerCompletes, hf]

theorem now_le_of_exec (hwrap : s.now.toNat + 1 < 2 ^ 64) (h : exec i s = .next t) : s.now.toNat ≤ t.now.toNat := by
  obtain ⟨-, hevents⟩ := onlyTickAdvancesTime
  obtain ⟨-, -, hle⟩ := hevents i s t h
  exact hle hwrap

section
variable (hf : s.cfg.tickerMode = .free) (hwrap : s.now.toNat + 1 < 2 ^ 64) (h : exec i s = .next t)
include hf h

/-- No event stamps a check later than `now`. -/
theorem exec_checkStamps_le (hs : ChecksRecent s) : t.lastTo.toNat ≤ s.now.toNat ∧ t.lastMc.toNat ≤ s.now.toNat := by
  obtain ⟨hto, hmc⟩ := exec_checkStamps hf h
  rw [hto, hmc]
  constructor
  · split_ifs
    exacts [Nat.le_refl _, hs.lastTo_le]
  · split_ifs
    exacts [Nat.le_refl _, hs.lastMc_le]

include hwrap

/-- A TICK stays within both periods by the fairness bound; a check made now is as recent as can be. -/
theorem exec_keeps_checksRecent (hs : ChecksRecent s) : ChecksRecent t := by
  have hle := now_le_of_exec hwrap h
  obtain ⟨hto, hmc⟩ := exec_checkStamps hf h
  obtain ⟨hstamp, hstamp'⟩ := exec_checkStamps_le hf h hs
  suffices hperiods : t.now.toNat ≤ t.lastTo.toNat + 1000 ∧ t.now.toNat ≤ t.lastMc.toNat + 50 from
    ⟨Nat.le_trans hstamp hle, hperiods.1, Nat.le_trans hstamp' hle, hperiods.2⟩
  by_cases htick : i = .tick
  · subst htick
    rw [hto, hmc, exec_tick_now_toNat hwrap h]
    exact (hs.tickEnabled_iff_toNat hwrap).1 (tickEnabled_of_exec hf h)
  · rw [hto, hmc, exec_now h, if_neg htick]
    constructor
    · split_ifs
      exacts [Nat.le_add_right _ _, hs.timeout]
    · split_ifs
      exacts [Nat.le_add_right _ _, hs.completion]

/-- An unlock() moves the threshold into the future, and a timeout check that does not lock does not lie past it. -/
theorem exec_keeps_relockAhead (hat : s.cfg.bgAtomic = true) (hs : ChecksRecent s) (hahead : RelockAhead s) :
    RelockAhead t := by
  intro hut
  have hle := now_le_of_exec hwrap h
  obtain ⟨hto, -⟩ := exec_checkStamps hf h
  obtain ⟨hstamp, -⟩ := exec_checkStamps_le hf h hs
  rw [exec_tUnlock (held_of_atomic hat) h]
  by_cases hc : InvokesUnlock i s
  · rw [if_pos hc]
    exact ⟨hle, by omega⟩
  · have hu := unlocked_of_exec hat h hut hc
    obtain ⟨hunlock, hcheck⟩ := hahead hu
    rw [if_neg hc]
    refine ⟨Nat.le_trans hunlock hle, ?_⟩
    by_cases hchk : i = .chkto
    · have hnot : ¬RelockDueAt s.now s := fun hdue =>
        absurd (hut.symm.trans ((exec_locks_iff hat h hu).2 (.inl ⟨hchk, hdue⟩))) (by decide)
      rw [relockDueAt_iff hu hunlock] at hnot
      omega
    · rwa [hto, if_neg hchk]

/-- A start() moves the threshold into the future, and a completion check that does not complete lies before it. -/
theorem exec_keeps_completionAhead (hat : s.cfg.bgAtomic = true) (hs : ChecksRecent s) (hahead : CompletionAhead s) :
    CompletionAhead t := by
  intro hmt
  have hle := now_le_of_exec hwrap h
  obtain ⟨-, hmc⟩ := exec_checkStamps hf h
  obtain ⟨-, hstamp⟩ := exec_checkStamps_le hf h hs
  cases exec_measurement hat h with
  | keeps _ _ noCompletion measst tStart =>
    have hm : s.measst = .inProgress := measst.symm.trans hmt
    obtain ⟨hstart, hcheck⟩ := hahead hm
    rw [tStart]
    refine ⟨Nat.le_trans hstart hle, ?_⟩
    by_cases hchk : i = .chkmc
    · have hnot : ¬CompletionDueAt s.now s := fun hdue => noCompletion (.inl ⟨hchk, hdue⟩)
      rw [completionDueAt_iff hm hstart] at hnot
      omega
    · rwa [hmc, if_neg hchk]
  | starts _ _ tStart =>
    rw [tStart]
    exact ⟨hle, by omega⟩
  | locks _ _ measst => exact absurd (hmt.symm.trans measst) (by decide)
  | completes _ _ measst => exact absurd (hmt.symm.trans measst) (by decide)

end

section
variable (hat : s.cfg.bgAtomic = true) (hf : s.cfg.tickerMode = .free) (h : exec i s = .next t) (hs : ChecksRecent s)
include hat hf h hs

/-- A relock is made by CHKTO, past the threshold, and within one period of a check that was not past it. -/
theorem relock_within_period (hahead : RelockAhead s) (hu : s.lockst = .unlocked) (hlocks : t.lockst = .locked) :
    s.tUnlock.toNat + 5000 < t.now.toNat ∧ t.now.toNat ≤ s.tUnlock.toNat + 5000 + 1000 := by
  obtain ⟨hunlock, hcheck⟩ := hahead hu
  obtain ⟨rfl, hdue⟩ := (timerLocks_iff_of_free hf).1 ((exec_locks_iff hat h hu).1 hlocks)
  have hrecent := hs.timeout
  rw [relockDueAt_iff hu hunlock] at hdue
  rw [exec_now h, if_neg (by decide)]
  exact ⟨hdue, by omega⟩

/-- A completion is made by CHKMC, not before the threshold, and within one period of a check that was before it. -/
theorem completion_within_period (hahead : CompletionAhead s) (hm : s.measst = .inProgress) (hidle : t.measst = .idle)
    (hut : t.lockst = .unlocked) :
    s.tStart.toNat + 500 ≤ t.now.toNat ∧ t.now.toNat ≤ s.tStart.toNat + 500 + 49 := by
  obtain ⟨hstart, hcheck⟩ := hahead hm
  cases exec_measurement hat h with
  | keeps _ _ _ measst => exact absurd (hm.symm.trans (measst.symm.trans hidle)) (by decide)
  | starts _ measst => exact absurd (measst.symm.trans hidle) (by decide)
  | locks _ lockst => exact absurd (hut.symm.trans lockst) (by decide)
  | completes due =>
    obtain ⟨rfl, hdue⟩ := (timerCompletes_iff_of_free hf).1 due
    have hrecent := hs.completion
    rw [completionDueAt_iff hm hstart] at hdue
    rw [exec_now h, if_neg (by decide)]
    exact ⟨hdue, by omega⟩

end

/-- Settles O44: recent checks and thresholds not passed unchecked are kept by every event, and bound both instants. -/
theorem freeModeDeadlines : Obligations.FreeModeDeadlines := by
  rintro i s t hat hf hwrap h ⟨hto, htimeout, hmc, hcompletion, hrelock, hcomplete⟩
  have hs : ChecksRecent s := ⟨hto, htimeout, hmc, hcompletion⟩
  obtain ⟨hto', htimeout', hmc', hcompletion'⟩ := exec_keeps_checksRecent hf hwrap h hs
  exact ⟨⟨hto', htimeout', hmc', hcompletion', exec_keeps_relockAhead hf hwrap h hat hs hrelock,
      exec_keeps_completionAhead hf hwrap h hat hs hcomplete⟩,
    relock_within_period hat hf h hs hrelock, completion_within_period hat hf h hs hcomplete⟩

/-! ### The release of the mutex -/

/-- Fewer moves than there are writes leave the mutex held. -/
theorem held_of_fewer_picks (picks : List Nat) (hheld : held s = true) (hfewer : picks.length < s.bg.work.length) :
    held (runTickerSubSteps picks s) = true := by
  induction picks generalizing s with
  | nil => exact hheld
  | cons k picks ih =>
    rw [List.length_cons] at hfewer
    obtain ⟨v, hv, -⟩ := pick_names k (List.ne_nil_of_length_pos (Nat.zero_lt_of_lt hfewer))
    have hmore := tickerSubStep_more hv (eraseIdx_pick_ne_nil hv (by omega))
    refine ih ?_ ?_ <;> rw [hmore]
    · rw [applySubStep_keeps]
      exact hheld
    · simp only [length_eraseIdx_pick hv]
      omega

/-- The writes still to be made leave MEASST Idle, in any order. -/
def EndsIdle (s : State) : Prop :=
  .setMeasState .inProgress ∉ s.bg.work ∧ (s.measst = .idle ∨ .setMeasState .idle ∈ s.bg.work)

/-- A sub-step that writes MEASST sets it to what it says; any other keeps it. -/
theorem applySubStep_measst (v : SubStep) (s : State) :
    (∃ m, v = .setMeasState m ∧ (applySubStep v s).measst = m) ∨
      ((∀ m, v ≠ .setMeasState m) ∧ (applySubStep v s).measst = s.measst) := by
  cases v with
  | setMeasState m => exact .inl ⟨m, rfl, rfl⟩
  | setLockState | setStatusBit | clrStatusBit | intWrite => exact .inr ⟨nofun, rfl⟩

/-- A write that is made either sets MEASST to Idle, or leaves the write that does so, if there is one, among the rest. -/
theorem EndsIdle.applySubStep {k : Nat} {v : SubStep} (hs : EndsIdle s)
    (hv : s.bg.work[k % s.bg.work.length]? = some v) :
    (applySubStep v s).measst = .idle ∨ .setMeasState .idle ∈ s.bg.work.eraseIdx (k % s.bg.work.length) := by
  obtain ⟨hno, hidle⟩ := hs
  have hmem := List.mem_of_getElem? hv
  obtain ⟨m, rfl, hm⟩ | ⟨hne, hm⟩ := applySubStep_measst v s
  · cases m with
    | idle => exact .inl hm
    | inProgress => exact absurd hmem hno
  · refine hidle.imp hm.trans fun hlater => ?_
    obtain ⟨j, hj⟩ := List.getElem?_of_mem hlater
    refine List.mem_eraseIdx_iff_getElem?.2 ⟨j, fun heq => ?_, hj⟩
    exact hne .idle (Option.some.inj ((heq ▸ hv).symm.trans hj))

/-- As many moves as there are writes free the mutex, where a completion check still owed has nothing to do: at the last move
MEASST is Idle. -/
theorem not_held_of_all_picks (picks : List Nat) (hne : s.bg.work ≠ []) (hlen : picks.length = s.bg.work.length)
    (howed : s.bg.mcDue = true → EndsIdle s) : held (runTickerSubSteps picks s) = false := by
  induction picks generalizing s with
  | nil => exact absurd (List.length_eq_zero_iff.1 hlen.symm) hne
  | cons k picks ih =>
    obtain ⟨v, hv, -⟩ := pick_names k hne
    rw [List.length_cons] at hlen
    by_cases hlast : s.bg.work.length = 1
    · obtain rfl : picks = [] := List.length_eq_zero_iff.1 (by omega)
      have hnot : ¬(s.bg.mcDue = true ∧ CompletionDueAt s.now (applySubStep v s)) := by
        rintro ⟨hmc, hdue⟩
        obtain hidle | hlater := (howed hmc).applySubStep hv
        · exact not_completionDueAt_of_idle hidle hdue
        · rw [eraseIdx_pick_eq_nil hv hlast] at hlater
          exact absurd hlater List.not_mem_nil
      have hrelease := tickerSubStep_last_sameState hv hlast hnot
      exact held_of_mutex_free (congrArg (fun u : State => u.bg.mutex) hrelease)
    · have hrest := eraseIdx_pick_ne_nil hv (by omega)
      have hmore := tickerSubStep_more hv hrest
      refine ih ?_ ?_ ?_ <;> rw [hmore]
      · exact hrest
      · simp only [length_eraseIdx_pick hv]
        omega
      · exact fun hmc => ⟨fun hlater => (howed hmc).1 (List.mem_of_mem_eraseIdx hlater), (howed hmc).applySubStep hv⟩

/-- Settles O49: every move before the last keeps the mutex held, and the last one frees it. -/
theorem theMutexIsReleasedAfterTheLastSubStep : Obligations.TheMutexIsReleasedAfterTheLastSubStep :=
  fun _ picks hheld hne => ⟨held_of_fewer_picks picks hheld, not_held_of_all_picks picks hne⟩

end Sys2Proof.Proofs

/-! PROOFS. The family of 60_exceptions.md: the diagnostic of each event, and where an event or a step answers no next
state. -/

namespace Sys2Proof.Proofs

open Sys2Proof.Machine Sys2Proof.Safety

variable {i : Instr} {d : Byte} {s t : State}

/-! ### Diagnostics -/

theorem code_ne_seven (c : Diag) : c.code ≠ 7 := by cases c <;> decide

/-- The diagnostic of a stored data byte is that of its side effect: of a call that is dropped, of a start() that is
refused, of a code that does not match, and none otherwise. -/
theorem wbyteSideEffect_diag {drop : Bool} (hp : s.phase = .addressed) (hw : isReadOnly s.ap = false)
    (hdrop : drop = true ↔ held s = true ∧ wbyteCalls d s = true) :
    (wbyteSideEffect drop s.ap d (setReg s.ap d (beginEvent s))).out.diag = diagCause (.wbyte d) s := by
  have hwritable : s.ap ∉ ([0, 2, 3, 4, 5, 6, 9, 11] : List Reg) := by rw [← isReadOnly_iff, hw]; nofun
  have hcode : s.ap = 10 → getReg (setReg s.ap d (beginEvent s)) 9 = getReg s 9 := fun hap => by simp [hap]
  rw [wbyteCalls_iff d s hp] at hdrop
  have hfree : drop = false → s.ap = 1 ∧ d[0] = true ∨ s.ap = 10 ∧ d = getReg s 9 → held s = false := by
    rintro rfl hcall
    simpa [hcall] using hdrop
  rw [diagCause, if_neg (not_not_intro hp), if_neg hwritable]
  obtain ⟨hap, hbit, hd, e⟩ | ⟨hap, hbit, hd, hl, e⟩ | ⟨hap, hbit, hd, hl, hm, e⟩ | ⟨hap, hbit, hd, hl, hm, e⟩ |
    ⟨hap, hmatch, hd, e⟩ | ⟨hap, hmatch, hd, e⟩ | ⟨hap, hmatch, e⟩ | ⟨⟨hap, hbit⟩ | ⟨hap, hap'⟩, e⟩ :=
      sideEffect_cases drop s.ap d (setReg s.ap d (beginEvent s)) <;> rw [e]
  · simp [hap, hbit, (hdrop.1 hd).1]
  · simp [hap, hbit, hfree hd (.inl ⟨hap, hbit⟩), show s.lockst = .locked from hl]
  · simp [hap, hbit, hfree hd (.inl ⟨hap, hbit⟩), show s.lockst = .unlocked from hl,
      show s.measst = .inProgress from hm]
  · simp [hap, hbit, hfree hd (.inl ⟨hap, hbit⟩), show s.lockst = .unlocked from hl,
      show s.measst = .idle from hm]
  · rw [hcode hap] at hmatch
    simp [hap, hmatch, (hdrop.1 hd).1]
  · rw [hcode hap] at hmatch
    simp [hap, hmatch, hfree hd (.inr ⟨hap, hmatch⟩)]
  · rw [hcode hap] at hmatch
    simp [hap, hmatch]
  · simp [hap, hbit]
  · simp [hap, hap']

theorem exec_wbyte_diag (h : exec (.wbyte d) s = .next t) : t.out.diag = diagCause (.wbyte d) s := by
  obtain ⟨hp, rfl⟩ | ⟨hp, hro, rfl⟩ | ⟨hp, hw, drop, hdrop, -, rfl⟩ := execWbyte_next s t d h
  · rw [diagCause, if_pos hp]
    rfl
  · rw [diagCause, if_neg (not_not_intro hp), if_pos ((isReadOnly_iff _).1 hro)]
    rfl
  · exact wbyteSideEffect_diag hp hw hdrop

theorem exec_timer_diag (hi : i = .tick ∨ i = .chkto ∨ i = .chkmc) (h : exec i s = .next t) : t.out.diag = .noDiag := by
  obtain ⟨-, -, -, -, -, -, -, hout, -⟩ := timer_keeps i s t hi h
  rw [hout]
  rfl

/-- The table of R212. -/
theorem exec_diag (h : exec i s = .next t) : t.out.diag = diagCause i s := by
  cases i with
  | wbyte d => exact exec_wbyte_diag h
  | tick => exact exec_timer_diag (.inl rfl) h
  | chkto => exact exec_timer_diag (.inr (.inl rfl)) h
  | chkmc => exact exec_timer_diag (.inr (.inr rfl)) h
  | _ => cases h; rfl

/-- Settles O19: the table event by event; no code has the number 7. -/
theorem diagnosticsHaveTheListedCauses : Obligations.DiagnosticsHaveTheListedCauses :=
  ⟨fun _ _ _ h => ⟨exec_diag h, code_ne_seven _⟩, rfl, rfl, rfl, rfl, rfl, rfl, rfl⟩

/-! ### Stops -/

/-- A reset, an event and a sub-step of the Ticker keep the mode switches. -/
theorem step_keeps_cfg (h : step s = .next t) : t.cfg = s.cfg := by
  obtain ⟨-, rfl⟩ | ⟨-, -, rfl⟩ | ⟨-, -, w, q, -, hx⟩ | ⟨-, -, w, q, -, hx⟩ | ⟨-, -, hx⟩ := step_cases h
  · rfl
  · exact (tickerSubStep_keeps _ _).2.2
  all_goals exact (exec_keeps _ _ _ hx).2.2

/-- An event answers a next state, or waits for the mutex, or is a TICK outside the fairness bound of free mode. -/
theorem exec_next_or_stops (i : Instr) (s : State) :
    (∃ t, exec i s = .next t) ∨ (exec i s = .fault .mutexHeld ∧ held s = true) ∨
      (exec i s = .fault .tickNotEnabled ∧ i = .tick ∧ s.cfg.tickerMode = .free ∧ tickEnabled s = false) := by
  cases i with
  | wbyte d =>
    obtain ⟨hheld, -, e⟩ | ⟨-, -, -, e⟩ | ⟨-, e⟩ := execWbyte_cases d s
    · exact .inr (.inl ⟨e, hheld⟩)
    · exact .inl ⟨_, e⟩
    · exact .inl ⟨_, e⟩
  | tick =>
    obtain ⟨hheld, e⟩ | ⟨-, -, e⟩ | ⟨-, -, -, e⟩ | ⟨-, hfree, hbound, e⟩ := execTick_cases s
    · exact .inr (.inl ⟨e, hheld⟩)
    · exact .inl ⟨_, e⟩
    · exact .inl ⟨_, e⟩
    · exact .inr (.inr ⟨e, rfl, hfree, hbound⟩)
  | chkto =>
    obtain ⟨hheld, e⟩ | ⟨-, e⟩ := execChkto_cases s
    · exact .inr (.inl ⟨e, hheld⟩)
    · exact .inl ⟨_, e⟩
  | chkmc =>
    obtain ⟨hheld, e⟩ | ⟨-, e⟩ := execChkmc_cases s
    · exact .inr (.inl ⟨e, hheld⟩)
    · exact .inl ⟨_, e⟩
  | nop | wstart | rreq | rcont | stop | reserved => exact .inl ⟨_, rfl⟩

/-- Neither stop is met in periodic mode with the mutex free. -/
theorem exec_next_of_periodic (i : Instr) (hfree : held s = false) (hp : s.cfg.tickerMode = .periodic) :
    ∃ t, exec i s = .next t := by
  obtain hnext | ⟨-, hheld⟩ | ⟨-, -, hf, -⟩ := exec_next_or_stops i s
  · exact hnext
  · exact absurd hheld (by simp [hfree])
  · exact absurd hf (by simp [hp])

/-- A step with the mutex free is a reset, or one event in a state that differs from this one in its channels alone. -/
theorem step_of_free (hfree : held s = false) :
    (∃ t, step s = .next t) ∨ ∃ i p, step s = exec i { s with ports := p } := by
  cases hrst : (nextBoundary s).rst
  · obtain ⟨hword, hidle⟩ := stepRunsTheDecodedEvent s hrst hfree
    obtain ⟨w, q, -, -, e⟩ | ⟨-, w, q, -, e⟩ | ⟨-, -, e⟩ := fetchEvent_cases (arrive (nextBoundary s) s)
    · exact .inr ⟨_, _, hword w _ _ e rfl⟩
    · exact .inr ⟨_, _, hword w _ _ e rfl⟩
    · exact .inr ⟨_, _, hidle e⟩
  · exact .inl ⟨_, if_pos hrst⟩

theorem step_next_of_periodic (hfree : held s = false) (hp : s.cfg.tickerMode = .periodic) :
    ∃ t, step s = .next t := by
  obtain hnext | ⟨i, p, e⟩ := step_of_free hfree
  · exact hnext
  · rw [e]
    exact exec_next_of_periodic i (by exact hfree) (by exact hp)

/-- Settles O60: this hardware is atomic and periodic, so it meets neither of the two stops. -/
theorem thisHardwareNeverStops : Obligations.ThisHardwareNeverStops := by
  refine ⟨fun _ _ => step_keeps_cfg, fun s hcfg => ?_, exec_next_or_stops⟩
  have hfree : held s = false := held_of_atomic (by rw [hcfg]; rfl)
  have hp : s.cfg.tickerMode = .periodic := by rw [hcfg]; rfl
  exact ⟨fun i => exec_next_of_periodic i hfree hp, step_next_of_periodic hfree hp⟩

end Sys2Proof.Proofs

/-! PROOFS. The family of 70_reset_and_hazards.md: conforming traffic, the block after a reset and after a failed registration,
and the two hazards of one burst: unlock and start, and a read across events. -/

namespace Sys2Proof.Proofs

open Sys2Proof.Machine Sys2Proof.Safety

variable {i : Instr} {m : TickerMode} {w : EventWord} {q : List EventWord} {d : Byte} {s t u : State}

/-! ### Conforming traffic -/

theorem tickerSends_eq_self_iff : tickerSends m q = q ↔ ∀ w ∈ q, tickerMay m (decode w) = true :=
  List.filter_eq_self

/-- The first of the words that TICKER may send, and the rest. -/
theorem tickerSends_cons (h : tickerSends m (w :: q) = w :: q) :
    tickerMay m (decode w) = true ∧ tickerSends m q = q := by
  simpa only [tickerSends_eq_self_iff, List.forall_mem_cons] using h

/-- What TICKER adds to words it may send it may send. -/
theorem tickerSends_arrive (b : Boundary) (h : tickerSends s.cfg.tickerMode s.ports.tmrQ = s.ports.tmrQ) :
    tickerSends s.cfg.tickerMode (arrive b s).ports.tmrQ = (arrive b s).ports.tmrQ := by
  rw [arrive, tickerSends_append, h, tickerSends_idem]

/-- TICKER sends timer events and the idle encoding only (R245). -/
theorem nop_or_timer_of_tickerMay (h : tickerMay m i = true) : i = .nop ∨ i = .tick ∨ i = .chkto ∨ i = .chkmc := by
  cases i with
  | nop | tick | chkto | chkmc => simp
  | wstart | wbyte | rreq | rcont | stop | reserved => simp [tickerMay] at h

/-- No event that TICKER may send moves PHASE, so none disturbs the words that wait on the bus channel. -/
theorem phaseAfter_of_tickerMay (p : Phase) (h : tickerMay m i = true) : phaseAfter i p = p := by
  obtain rfl | rfl | rfl | rfl := nop_or_timer_of_tickerMay h <;> rfl

theorem conforming_congr (hphase : t.phase = s.phase) (hports : t.ports = s.ports) (hcfg : t.cfg = s.cfg)
    (hs : Conforming s) : Conforming t := by
  rwa [Conforming, hphase, hports, hcfg]

/-- An event that moves PHASE as the words left on the bus channel expect leaves conforming traffic. -/
theorem exec_keeps_conforming (h : exec i s = .next t)
    (hbus : busSends (phaseAfter i s.phase) s.ports.busQ = s.ports.busQ)
    (htmr : tickerSends s.cfg.tickerMode s.ports.tmrQ = s.ports.tmrQ) : Conforming t := by
  obtain ⟨hports, -, hcfg⟩ := exec_keeps i s t h
  rw [Conforming, exec_phase h, hports, hcfg]
  exact ⟨hbus, htmr⟩

theorem exec_busWord_keeps_conforming (hs : Conforming s) (hq : s.ports.busQ = w :: q)
    (h : exec (decode w) { s with ports := { s.ports with busQ := q } } = .next t) : Conforming t := by
  obtain ⟨hbus, htmr⟩ := hs
  rw [hq] at hbus
  exact exec_keeps_conforming h (busSends_cons hbus).2 htmr

theorem exec_timerWord_keeps_conforming (hs : Conforming s) (hq : s.ports.tmrQ = w :: q)
    (h : exec (decode w) { s with ports := { s.ports with tmrQ := q } } = .next t) : Conforming t := by
  obtain ⟨hbus, htmr⟩ := hs
  rw [hq] at htmr
  obtain ⟨hmay, hrest⟩ := tickerSends_cons htmr
  have hphase : phaseAfter (decode w) s.phase = s.phase := phaseAfter_of_tickerMay s.phase hmay
  exact exec_keeps_conforming h (hphase.symm ▸ hbus) hrest

theorem tickerSubStep_keeps_conforming (k : Nat) (hs : Conforming s) : Conforming (tickerSubStep k s) := by
  obtain ⟨hports, -, hcfg⟩ := tickerSubStep_keeps k s
  exact conforming_congr (tickerSubStep_phase k s) hports hcfg hs

/-- What arrives is conforming, and so is what a reset, a sub-step or an event leaves of it. -/
theorem step_keeps_conforming (hs : Conforming s) (h : step s = .next t) : Conforming t := by
  have harrive : Conforming (arrive (nextBoundary s) s) := arrive_conforming _ hs
  obtain ⟨-, rfl⟩ | ⟨-, -, rfl⟩ | ⟨-, -, w, q, hq, hx⟩ | ⟨-, -, w, q, hq, hx⟩ | ⟨-, -, hx⟩ := step_cases h
  · exact withdrawCutOff_conforming harrive.2
  · exact tickerSubStep_keeps_conforming _ harrive
  · exact exec_busWord_keeps_conforming harrive hq hx
  · exact exec_timerWord_keeps_conforming harrive hq hx
  · exact exec_keeps_conforming hx harrive.1 harrive.2

/-- In conforming traffic the word taken is one that its agent may send, and the other channel is left alone. -/
theorem fetchEvent_of_conforming (hs : Conforming s) (h : fetchEvent s = some (w, u)) :
    (busMay s.phase (decode w) = true ∧ u.ports.tmrQ = s.ports.tmrQ) ∨
      (tickerMay s.cfg.tickerMode (decode w) = true ∧ u.ports.busQ = s.ports.busQ) := by
  obtain ⟨hbus, htmr⟩ := hs
  obtain ⟨w', q, -, hq, e⟩ | ⟨-, w', q, hq, e⟩ | ⟨-, -, e⟩ := fetchEvent_cases s <;> cases e.symm.trans h
  · rw [hq] at hbus
    exact .inl ⟨(busSends_cons hbus).1, rfl⟩
  · rw [hq] at htmr
    exact .inr ⟨(tickerSends_cons htmr).1, rfl⟩

/-- Settles O56: the channels of the reset state are empty, every step keeps the traffic conforming, and what the arbiter takes
of conforming traffic is the head of a channel. -/
theorem everyStepKeepsTheTrafficConforming : Obligations.EveryStepKeepsTheTrafficConforming := by
  refine ⟨⟨rfl, rfl⟩, fun _ _ => step_keeps_conforming, ?_⟩
  rintro s u w i hs h rfl
  exact fetchEvent_of_conforming (arrive_conforming _ hs) h

/-! ### One burst that unlocks and starts -/

/-- The state after a data byte that a read-only register rejects (R101, R125). -/
def afterRejection (s : State) : State := advance (emitDiag .roWrite (beginEvent s))

/-- The state after the session code `d` was written to UNLOCK (R127, R151). -/
def afterUnlock (d : Byte) (s : State) : State := advance (unlock (setReg 10 d (beginEvent s)))

/-- The state after a byte `d` written to CTRL1 started a measurement (R126, R170). -/
def afterStart (d : Byte) (s : State) : State := advance (startedState (setReg 1 d (beginEvent s)))

@[simp] theorem getReg_afterRejection (s : State) (a : Reg) : getReg (afterRejection s) a = getReg s a := rfl

theorem getReg_afterUnlock (d : Byte) (s : State) (a : Reg) :
    getReg (afterUnlock d s) a =
      if a = 2 then getReg s 2 &&& 0xFD#8 else if a = 11 then 0x00#8 else if a = 10 then d else getReg s a := by
  simp [afterUnlock, getReg_unlock, eq_comm (a := (10 : Reg))]

theorem getReg_afterStart (d : Byte) (s : State) (a : Reg) :
    getReg (afterStart d s) a = if a = 2 then getReg s 2 &&& 0xFE#8 else if a = 1 then d else getReg s a := by
  simp [afterStart, getReg_startedState, eq_comm (a := (1 : Reg))]

theorem exec_wbyte_rejected (d : Byte) (hp : s.phase = .addressed) (hro : isReadOnly s.ap = true) :
    exec (.wbyte d) s = .next (afterRejection s) :=
  execWbyte_readOnly s d hp hro

theorem exec_wbyte_unlocks (hp : s.phase = .addressed) (hap : s.ap = 10) (hfree : held s = false)
    (hcode : d = getReg s 9) : exec (.wbyte d) s = .next (afterUnlock d s) :=
  exec_wbyte_store hp hap rfl (by rw [hfree, Bool.false_and]) (wbyteSideEffect_unlock_match _ (by simpa using hcode))

theorem exec_wbyte_starts (hp : s.phase = .addressed) (hap : s.ap = 1) (hfree : held s = false)
    (hl : s.lockst = .unlocked) (hm : s.measst = .idle) (hbit : d[0] = true) :
    exec (.wbyte d) s = .next (afterStart d s) := by
  refine exec_wbyte_store hp hap rfl (by rw [hfree, Bool.false_and]) ?_
  simp [wbyteSideEffect_ctrl1_start _ hbit, startMeasurement_eq, hl, hm]

/-- Settles O22: the pointer runs over UNLOCK, LOCK_STATUS, WHO_AM_I and CTRL1, of which the two in the middle reject their
byte. -/
theorem burstUnlocksThenStarts : Obligations.BurstUnlocksThenStarts := by
  intro s x y v hp hap hm hbit hfree
  have hap₁ : (afterUnlock s.regs[9] s).ap = 11 := by simp [afterUnlock, hap]
  have hap₂ : (afterRejection (afterUnlock s.regs[9] s)).ap = 0 := by simp [afterRejection, hap₁]
  have hap₃ : (afterRejection (afterRejection (afterUnlock s.regs[9] s))).ap = 1 := by simp [afterRejection, hap₁]
  have hunlock := exec_wbyte_unlocks hp hap hfree (rfl : s.regs[9] = getReg s 9)
  have hx := exec_wbyte_rejected (s := afterUnlock s.regs[9] s) x hp (by rw [hap₁]; rfl)
  have hy := exec_wbyte_rejected (s := afterRejection (afterUnlock s.regs[9] s)) y hp (by rw [hap₂]; rfl)
  have hstart := exec_wbyte_starts (s := afterRejection (afterRejection (afterUnlock s.regs[9] s)))
    hp hap₃ hfree rfl hm hbit
  refine ⟨afterStart v (afterRejection (afterRejection (afterUnlock s.regs[9] s))), ?_, rfl, rfl, rfl, rfl, ?_, ?_, ?_,
    ?_, ?_⟩
  · rw [runEvents_cons hunlock, runEvents_cons hx, runEvents_cons hy, runEvents_cons hstart, runEvents]
  · exact congrArg (· + 1) hap₃
  · simp [getReg_afterStart, getReg_afterUnlock]
  · simp [getReg_afterStart, getReg_afterUnlock]
  · show _ = getReg s 0
    simp [getReg_afterStart, getReg_afterUnlock]
  · simp [getReg_afterStart]

/-! ### Reads across events -/

/-- The block has locked, or the result is the one of `s`. -/
def LockedOrSameResult (s t : State) : Prop := t.lockst = .locked ∨ SameResult t s

/-- An event that calls neither start() nor unlock() locks the block, or leaves it Locked, or leaves its ready result alone: a
completion needs a measurement in progress, during which no result is ready (R46). -/
theorem exec_keeps_lockedOrSameResult (hat : t.cfg.bgAtomic = true) (ht : BlockInv t) (hready : dataReady s = true)
    (hnoStart : ¬InvokesStart i t) (hnoUnlock : ¬InvokesUnlock i t) (h : exec i t = .next u)
    (hres : LockedOrSameResult s t) : LockedOrSameResult s u := by
  cases exec_measurement hat h with
  | keeps _ noLock _ _ _ result =>
    have hl : u.lockst = t.lockst := by rw [exec_lockst hat h, if_neg hnoUnlock, if_neg noLock]
    exact hres.imp hl.trans result.trans
  | starts accepted => exact absurd accepted.1 hnoStart
  | locks _ lockst => exact .inl lockst
  | completes due =>
    obtain ⟨-, -, -, hbusy, -⟩ := ht
    obtain ⟨hu, hnotReady⟩ := hbusy (inProgress_of_timerCompletes due)
    obtain hl | hsame := hres
    · exact absurd (hl.symm.trans hu) (by decide)
    · exact absurd (hnotReady.symm.trans (hsame.dataReady.trans hready)) (by decide)

theorem runEvents_keeps_lockedOrSameResult (es : List Instr) (hat : t.cfg.bgAtomic = true) (ht : BlockInv t)
    (hready : dataReady s = true) (hfree : CallFree es t) (h : runEvents es t = .next u)
    (hres : LockedOrSameResult s t) : BlockInv u ∧ LockedOrSameResult s u := by
  induction es generalizing t with
  | nil => cases h; exact ⟨ht, hres⟩
  | cons i rest ih =>
    obtain ⟨hnoStart, hnoUnlock, hrest⟩ := hfree
    obtain ⟨v, hv⟩ : ∃ v, exec i t = .next v := by
      cases hx : exec i t with
      | next v => exact ⟨v, rfl⟩
      | fault | refused => simp [runEvents, hx] at h
    rw [runEvents_cons hv] at h
    refine ih ?_ (exec_keeps_blockInv ht hv) (hrest v hv) h
      (exec_keeps_lockedOrSameResult hat ht hready hnoStart hnoUnlock hv hres)
    rw [(exec_keeps i t v hv).2.2, hat]

theorem unlocked_of_lockStatus (hs : BlockInv s) (h : getReg s Reg.lockStatus = 0x00#8) : s.lockst = .unlocked := by
  obtain ⟨-, ⟨-, hmirror⟩, -⟩ := hs
  cases hl : s.lockst with
  | unlocked => rfl
  | locked => simp [h, hl] at hmirror

/-- Settles O39: along the run the block locks for good or keeps its result, and LOCK_STATUS = 0x00 rules the former out. -/
theorem burstReadSeesOneCompletion : Obligations.BurstReadSeesOneCompletion := by
  intro es s u hat hs hready hfree h hstatus
  obtain ⟨hu, hl | hsame⟩ := runEvents_keeps_lockedOrSameResult es hat hs hready hfree h (.inr ⟨rfl, rfl, rfl⟩)
  · exact absurd (hl.symm.trans (unlocked_of_lockStatus hu hstatus)) (by decide)
  · exact ⟨hsame.dataReady.trans hready, hsame.temperature, hsame.humidity⟩

/-! ### A failed registration -/

section
variable (hl : s.lockst = .locked) (hm : s.measst = .idle)
include hl hm

/-- In a Locked, Idle block neither check finds anything due. -/
theorem scheduledChecks_of_lockedIdle (hfree : held s = false) : scheduledChecks s = s := by
  have hnoRelock : ¬RelockDueAt s.now s := fun hdue => absurd (hl.symm.trans hdue.1) (by decide)
  rw [scheduledChecks_of_no_relock hfree fun hdue => hnoRelock hdue.2,
    checkComplete_of_not_due (not_completionDueAt_of_idle hm), ite_self]

/-- A timer event does nothing to a Locked, Idle block, in every mode. -/
theorem exec_timer_of_lockedIdle (h : exec i s = .next t) (hi : i = .tick ∨ i = .chkto ∨ i = .chkmc) :
    SameDevice t s ∧ t.bg = s.bg := by
  have hfree := free_of_timer_next hi h
  obtain rfl | rfl | rfl := hi
  · obtain ⟨-, e⟩ | ⟨-, -, e⟩ | ⟨-, -, -, e⟩ | ⟨-, -, -, e⟩ := execTick_cases s <;> cases e.symm.trans h
    · rw [scheduledChecks_of_lockedIdle (s := advanceTime (beginEvent s)) hl hm hfree]
      exact ⟨⟨rfl, rfl, rfl⟩, rfl⟩
    · exact ⟨⟨rfl, rfl, rfl⟩, rfl⟩
  · have hnoRelock : ¬RelockDueAt (beginEvent s).now (beginEvent s) := fun hdue =>
      absurd (hl.symm.trans hdue.1) (by decide)
    cases (exec_chkto_of_free hfree).symm.trans h
    rw [checkTimeout_of_not_due hnoRelock]
    exact ⟨⟨rfl, rfl, rfl⟩, rfl⟩
  · cases (exec_chkmc_of_free hfree).symm.trans h
    rw [checkComplete_of_not_due (not_completionDueAt_of_idle (s := beginEvent s) hm)]
    exact ⟨⟨rfl, rfl, rfl⟩, rfl⟩

/-- Nor does any other event that TICKER may send, which is NOP. -/
theorem exec_tickerMay_of_lockedIdle (h : exec i s = .next t) (hmay : tickerMay m i = true) :
    SameDevice t s ∧ t.bg = s.bg := by
  obtain rfl | hi := nop_or_timer_of_tickerMay hmay
  · cases h
    exact ⟨⟨rfl, rfl, rfl⟩, rfl⟩
  · exact exec_timer_of_lockedIdle hl hm h hi

end

/-- A block whose registration failed takes no word from the bus channel (R243). -/
theorem step_of_failed_keeps_busQ (hfailed : s.initError.isSome = true) (hrst : (nextBoundary s).rst = false)
    (h : step s = .next t) :
    t.ports.busQ = (arrive (nextBoundary s) s).ports.busQ ∧ t.initError = s.initError := by
  obtain ⟨hrst', -⟩ | ⟨-, -, rfl⟩ | ⟨-, hok, -⟩ | ⟨-, -, w, q, -, hx⟩ | ⟨-, -, hx⟩ := step_cases h
  · simp [hrst] at hrst'
  · obtain ⟨hports, herr, -⟩ := tickerSubStep_keeps (nextBoundary s).pick (arrive (nextBoundary s) s)
    exact ⟨congrArg Ports.busQ hports, herr⟩
  · simp [hok] at hfailed
  · obtain ⟨hports, herr, -⟩ := exec_keeps _ _ _ hx
    exact ⟨by rw [hports], herr⟩
  · obtain ⟨hports, herr, -⟩ := exec_keeps _ _ _ hx
    exact ⟨by rw [hports], herr⟩

/-- All that a Locked, Idle block whose registration failed performs are words of its Ticker, which do nothing to it. -/
theorem step_of_failed_lockedIdle (hfailed : s.initError.isSome = true) (hl : s.lockst = .locked) (hm : s.measst = .idle)
    (hfree : held s = false) (htmr : tickerSends s.cfg.tickerMode s.ports.tmrQ = s.ports.tmrQ)
    (hrst : (nextBoundary s).rst = false) (h : step s = .next t) : SameDevice t s ∧ t.bg = s.bg := by
  obtain ⟨hrst', -⟩ | ⟨-, hheld, -⟩ | ⟨-, hok, -⟩ | ⟨-, -, w, q, hq, hx⟩ | ⟨-, -, hx⟩ := step_cases h
  · simp [hrst] at hrst'
  · simp [hfree] at hheld
  · simp [hok] at hfailed
  · have hwords := tickerSends_arrive (nextBoundary s) htmr
    rw [hq] at hwords
    obtain ⟨⟨hregs, hl', hm'⟩, hbg⟩ :=
      exec_tickerMay_of_lockedIdle (by exact hl) (by exact hm) hx (tickerSends_cons hwords).1
    exact ⟨⟨hregs, hl', hm'⟩, hbg⟩
  · cases hx
    exact ⟨⟨rfl, rfl, rfl⟩, rfl⟩

/-- Settles O57: the code reported is a successor; without bus words only the Ticker's are left, and it finds nothing due. -/
theorem aFailedBlockReceivesNoBusEvents : Obligations.AFailedBlockReceivesNoBusEvents := by
  refine ⟨fun s => ⟨⟨Config.initErrorCode, Nat.succ_ne_zero _, rfl⟩, rfl⟩, fun s t => step_of_failed_keeps_busQ,
    fun i s t hi hl hm h => ?_, fun s t hfailed hl hm hfree htmr hrst h => ?_⟩
  · obtain ⟨⟨hregs, hl', hm'⟩, -⟩ := exec_timer_of_lockedIdle hl hm h hi
    exact ⟨hregs, hl'.trans hl, hm'.trans hm⟩
  · obtain ⟨⟨hregs, hl', hm'⟩, hbg⟩ := step_of_failed_lockedIdle hfailed hl hm hfree htmr hrst h
    exact ⟨hregs, hl'.trans hl, hm'.trans hm, (held_congr (step_keeps_cfg h) hbg).trans hfree⟩

/-! ### Reset -/

/-- Settles O37: the reset values meet the invariants, and lock() of a Locked state that meets them changes nothing. -/
theorem resetMeetsTheInvariants : Obligations.ResetMeetsTheInvariants := by
  have hfree : held State.reset = false := rfl
  have hinv : BlockInv State.reset := blockInv_resetWith _
  obtain ⟨-, ⟨hflag, hstatus⟩, hforced, -⟩ := hinv
  obtain ⟨htempL, htempH, hhumidH, hhumidL, hready, hidle⟩ := hforced rfl
  refine ⟨fun c => ⟨blockInv_resetWith c, rfl, ?_⟩, ⟨fun _ => blockInv_resetWith _, by rw [hfree]; exact nofun⟩, rfl, hidle,
    hflag, hready, hstatus, ?_⟩
  · exact (runSubSteps_lock _).trans (lockedState_of_locked (blockInv_resetWith c) rfl)
  · simp only [List.forall_mem_cons]
    exact ⟨htempL, htempH, hhumidH, hhumidL, nofun⟩

/-- Settles O59: a boundary that asserts `rst` answers the block's reset state, whatever arrives; the code is the next draw. -/
theorem assertedResetPutsEveryElementInItsResetValue :
    Obligations.AssertedResetPutsEveryElementInItsResetValue := fun s hrst _ =>
  ⟨Config.sessionDraw s.freeIx, _, if_pos hrst, rfl, rfl, rfl, rfl, rfl, rfl, rfl, rfl, rfl, rfl, rfl⟩

end Sys2Proof.Proofs

/-! PROOFS. The family of 95_test_vectors.md: the words of the decode table. -/

namespace Sys2Proof.Proofs

/-- Settles O1: the words of WBYTE by the rule for every byte, those of RESERVED since each is a reserved word (R86), and those
of the events without operand by running the decoder. -/
theorem listedWordsDecodeAsTheTableSays : Obligations.ListedWordsDecodeAsTheTableSays :=
  ⟨rfl, rfl, rfl, rfl, decode_wbyteWord 0x00#8, decode_wbyteWord 0xAB#8, decode_wbyteWord 0xFF#8,
    decode_of_reservedWord rfl, decode_of_reservedWord rfl, rfl, rfl, rfl, rfl, rfl, rfl,
    decode_of_reservedWord rfl, decode_of_reservedWord rfl, decode_of_reservedWord rfl⟩

end Sys2Proof.Proofs
